-- ==== Sys2Proof/Word.lean ====
section
/-! DEFINITION. The 64-bit word and the fixed constants of 00_scope.md R7. -/

namespace Sys2Proof

/-- A 64-bit word: an operand, a result, a word of `M`, a register (00_scope.md R8, R9). -/
abbrev Word := BitVec 64

/-- `NOTFOUND = 2^64 - 1`, the not-found sentinel (00_scope.md R7). -/
def notFound : Word := 0xFFFFFFFFFFFFFFFF#64

/-- `MAXW = 64`, the maximum width (00_scope.md R7). -/
def maxWidth : Nat := 64

/-- `MAXCOUNT = 2^58 - 1`, the maximum element count and bit size (00_scope.md R7). -/
def maxCount : Nat := 2 ^ 58 - 1

end Sys2Proof
end

