-- ==== Sys2Proof/Config.lean ====
section
/-! DEFINITION. What an implementation fixes (the build, 00_scope.md R4 to R6) and the free values: what the spec
leaves unspecified, as constants without a body (93_implementation_defined.md S2, log entry 5). -/

namespace Sys2Proof

/-- The parameters of a build (00_scope.md R4 to R6). "A model takes these as arguments": every state carries its
build and no step changes it (log entry 1). -/
structure Build where
  /-- NWORDS, the number of 64-bit words of `M` (R4). -/
  nwords : Nat
  /-- B_T, the top-block size in bits (R5). -/
  bt : Nat
  /-- B_M, the middle-block size in bits (R5). -/
  bm : Nat
  /-- RVMAX, the largest bit capacity of the rank vector (R6). -/
  rvmax : Nat
  deriving DecidableEq, Repr

/-- `R = B_T / B_M`, middle-blocks per top-block (R5). -/
def Build.perTop (b : Build) : Nat := b.bt / b.bm

/-- `NTOP = RVMAX / B_T`, the entries of `TOP` (R6). -/
def Build.ntop (b : Build) : Nat := b.rvmax / b.bt

/-- `NMID = NTOP * (R - 1)`, the entries of `MID` (R6). -/
def Build.nmid (b : Build) : Nat := b.ntop * (b.perTop - 1)

/-- The build of `State.reset`: the source's default block sizes (R5); NWORDS and RVMAX have no default in the
spec. DESIGN CHOICE, unsafe for a claim about this one build (log entry 1). -/
def Config.defaultBuild : Build := { nwords := 1024, bt := 4096, bm := 256, rvmax := 65536 }

/-- The value of the ID register (00_scope.md R1, 10_state.md R25). -/
def Config.identification : Word := 0x0000000042524501#64

/-- The result of a rank-vector query while the summary invariant does not hold (43_rank_select.md R204). Free. -/
opaque Config.freeResult : Nat → Word

/-- Whether `RV.SEL1` or `RV.SEL0` of a rank above 0 faults with RANK while the summary invariant does not hold
(43_rank_select.md R204; 93_implementation_defined.md S2). Free. -/
opaque Config.freeRankFault : Nat → Bool

/-- The entry of `TOP` that `RV.APPEND` or `RV.SHORTEN` writes while the summary invariant does not hold
(43_rank_select.md R204). Free. -/
opaque Config.freeTop : Nat → Word

/-- The entry of `MID` that `RV.APPEND` or `RV.SHORTEN` writes while the summary invariant does not hold
(43_rank_select.md R204). Free. -/
opaque Config.freeMid : Nat → BitVec 16

end Sys2Proof
end

