-- ==== Sys2Proof/Syntax.lean ====
section
/-! DEFINITION. The syntax: one constructor of `Instr` for each row of spec/opcode_table.json (30_encoding.md R104).
Every constructor carries all three operand fields of its packet, the ignored ones too: an ignored operand changes
nothing, "with one exception: on a fault, FINFO records A as it was sent even if the command's format ignores A"
(30_encoding.md R102, log entry 7). An ignored field is named `a`, `b` or `c`. -/

namespace Sys2Proof

/-- The four formats (30_encoding.md R102): how many operands a command uses. -/
inductive Format where
  /-- no operand -/
  | f0
  /-- A -/
  | f1
  /-- A and B -/
  | f2
  /-- A, B and C -/
  | f3
  deriving DecidableEq, Repr

/-- The commands (30_encoding.md R104). Every operand is a whole 64-bit field (R103). -/
inductive Instr where
  /-- `CSRR`, F1 (44_system.md R240). -/
  | csrr (num b c : Word)
  /-- `POPC`, F1 (40_word_primitives.md R130). -/
  | popc (x b c : Word)
  /-- `BSIZE`, F1 (40_word_primitives.md R131). -/
  | bsize (v b c : Word)
  /-- `CLZ`, F1 (40_word_primitives.md R132). -/
  | clz (x b c : Word)
  /-- `CTZ`, F1 (40_word_primitives.md R133). -/
  | ctz (x b c : Word)
  /-- `RDBITS`, F2 (41_bit_region.md R141). -/
  | rdbits (p w c : Word)
  /-- `WRBITS`, F3 (41_bit_region.md R142). -/
  | wrbits (p w val : Word)
  /-- `CNT1`, F2 (41_bit_region.md R143). -/
  | cnt1 (base last c : Word)
  /-- `SEL1`, F2 (41_bit_region.md R144). -/
  | sel1 (base rank c : Word)
  /-- `SEL0`, F2 (41_bit_region.md R145). -/
  | sel0 (base rank c : Word)
  /-- `PRED1`, F2 (41_bit_region.md R146). -/
  | pred1 (p maxWords c : Word)
  /-- `SUCC1`, F2 (41_bit_region.md R147). -/
  | succ1 (p maxWords c : Word)
  /-- `PRED0`, F2 (41_bit_region.md R148). -/
  | pred0 (p maxWords c : Word)
  /-- `SUCC0`, F2 (41_bit_region.md R149). -/
  | succ0 (p maxWords c : Word)
  /-- `MOVBITS`, F3 (41_bit_region.md R150). -/
  | movbits (src dst len : Word)
  /-- `CPYBITS`, F3 (41_bit_region.md R151). -/
  | cpybits (src dst len : Word)
  /-- `RV.INIT`, F2 (43_rank_select.md R210). -/
  | rvInit (base cap c : Word)
  /-- `RV.APPEND`, F1 (43_rank_select.md R211). -/
  | rvAppend (bit b c : Word)
  /-- `RV.RANK1`, F1 (43_rank_select.md R212). -/
  | rvRank1 (p b c : Word)
  /-- `RV.RANK0`, F1 (43_rank_select.md R213). -/
  | rvRank0 (p b c : Word)
  /-- `RV.SEL1`, F1 (43_rank_select.md R214). -/
  | rvSel1 (k b c : Word)
  /-- `RV.SEL0`, F1 (43_rank_select.md R215). -/
  | rvSel0 (k b c : Word)
  /-- `RV.PRED1`, F1 (43_rank_select.md R216). -/
  | rvPred1 (v b c : Word)
  /-- `RV.SUCC1`, F1 (43_rank_select.md R217). -/
  | rvSucc1 (v b c : Word)
  /-- `RV.PRED0`, F1 (43_rank_select.md R218). -/
  | rvPred0 (v b c : Word)
  /-- `RV.SUCC0`, F1 (43_rank_select.md R219). -/
  | rvSucc0 (v b c : Word)
  /-- `RV.SHORTEN`, F1 (43_rank_select.md R221). -/
  | rvShorten (n b c : Word)
  /-- `RV.NONES`, F0 (43_rank_select.md R222). -/
  | rvNones (a b c : Word)
  /-- `RV.NZEROS`, F0 (43_rank_select.md R223). -/
  | rvNzeros (a b c : Word)
  /-- `RV.CAP`, F1 (43_rank_select.md R224). -/
  | rvCap (cap b c : Word)
  /-- `RV.REBASE`, F1 (43_rank_select.md R225). -/
  | rvRebase (base b c : Word)
  /-- `RV.BIT`, F1 (43_rank_select.md R220). -/
  | rvBit (p b c : Word)
  /-- `PK.CFG`, F3 (42_packed_int.md R171). -/
  | pkCfg (base w cap : Word)
  /-- `PK.RD`, F1 (42_packed_int.md R172). -/
  | pkRd (i b c : Word)
  /-- `PK.WR`, F2 (42_packed_int.md R173). -/
  | pkWr (i val c : Word)
  /-- `PK.APPEND`, F1 (42_packed_int.md R174). -/
  | pkAppend (val b c : Word)
  /-- `PK.RESIZE`, F1 (42_packed_int.md R175). -/
  | pkResize (n b c : Word)
  /-- `PK.CLEAR`, F0 (42_packed_int.md R176). -/
  | pkClear (a b c : Word)
  /-- `PK.CONVERT`, F1 (42_packed_int.md R178). -/
  | pkConvert (w b c : Word)
  /-- `PK.SEEK`, F1 (42_packed_int.md R179). -/
  | pkSeek (i b c : Word)
  /-- `PK.ADV`, F1 (42_packed_int.md R180). -/
  | pkAdv (d b c : Word)
  /-- `PK.ITRD`, F0 (42_packed_int.md R181). -/
  | pkItrd (a b c : Word)
  /-- `PK.ITWR`, F1 (42_packed_int.md R182). -/
  | pkItwr (val b c : Word)
  /-- `PK.REBASE`, F1 (42_packed_int.md R183). -/
  | pkRebase (base b c : Word)
  /-- `PK.CAP`, F1 (42_packed_int.md R177). -/
  | pkCap (cap b c : Word)
  deriving DecidableEq, Repr

/-- The format of each command (30_encoding.md R104). -/
def Instr.format : Instr → Format
  | .csrr _ _ _ => .f1
  | .popc _ _ _ => .f1
  | .bsize _ _ _ => .f1
  | .clz _ _ _ => .f1
  | .ctz _ _ _ => .f1
  | .rdbits _ _ _ => .f2
  | .wrbits _ _ _ => .f3
  | .cnt1 _ _ _ => .f2
  | .sel1 _ _ _ => .f2
  | .sel0 _ _ _ => .f2
  | .pred1 _ _ _ => .f2
  | .succ1 _ _ _ => .f2
  | .pred0 _ _ _ => .f2
  | .succ0 _ _ _ => .f2
  | .movbits _ _ _ => .f3
  | .cpybits _ _ _ => .f3
  | .rvInit _ _ _ => .f2
  | .rvAppend _ _ _ => .f1
  | .rvRank1 _ _ _ => .f1
  | .rvRank0 _ _ _ => .f1
  | .rvSel1 _ _ _ => .f1
  | .rvSel0 _ _ _ => .f1
  | .rvPred1 _ _ _ => .f1
  | .rvSucc1 _ _ _ => .f1
  | .rvPred0 _ _ _ => .f1
  | .rvSucc0 _ _ _ => .f1
  | .rvShorten _ _ _ => .f1
  | .rvNones _ _ _ => .f0
  | .rvNzeros _ _ _ => .f0
  | .rvCap _ _ _ => .f1
  | .rvRebase _ _ _ => .f1
  | .rvBit _ _ _ => .f1
  | .pkCfg _ _ _ => .f3
  | .pkRd _ _ _ => .f1
  | .pkWr _ _ _ => .f2
  | .pkAppend _ _ _ => .f1
  | .pkResize _ _ _ => .f1
  | .pkClear _ _ _ => .f0
  | .pkConvert _ _ _ => .f1
  | .pkSeek _ _ _ => .f1
  | .pkAdv _ _ _ => .f1
  | .pkItrd _ _ _ => .f0
  | .pkItwr _ _ _ => .f1
  | .pkRebase _ _ _ => .f1
  | .pkCap _ _ _ => .f1

/-- Operand A as sent (packet bits 95:32). -/
def Instr.operandA : Instr → Word
  | .csrr x _ _ => x
  | .popc x _ _ => x
  | .bsize x _ _ => x
  | .clz x _ _ => x
  | .ctz x _ _ => x
  | .rdbits x _ _ => x
  | .wrbits x _ _ => x
  | .cnt1 x _ _ => x
  | .sel1 x _ _ => x
  | .sel0 x _ _ => x
  | .pred1 x _ _ => x
  | .succ1 x _ _ => x
  | .pred0 x _ _ => x
  | .succ0 x _ _ => x
  | .movbits x _ _ => x
  | .cpybits x _ _ => x
  | .rvInit x _ _ => x
  | .rvAppend x _ _ => x
  | .rvRank1 x _ _ => x
  | .rvRank0 x _ _ => x
  | .rvSel1 x _ _ => x
  | .rvSel0 x _ _ => x
  | .rvPred1 x _ _ => x
  | .rvSucc1 x _ _ => x
  | .rvPred0 x _ _ => x
  | .rvSucc0 x _ _ => x
  | .rvShorten x _ _ => x
  | .rvNones x _ _ => x
  | .rvNzeros x _ _ => x
  | .rvCap x _ _ => x
  | .rvRebase x _ _ => x
  | .rvBit x _ _ => x
  | .pkCfg x _ _ => x
  | .pkRd x _ _ => x
  | .pkWr x _ _ => x
  | .pkAppend x _ _ => x
  | .pkResize x _ _ => x
  | .pkClear x _ _ => x
  | .pkConvert x _ _ => x
  | .pkSeek x _ _ => x
  | .pkAdv x _ _ => x
  | .pkItrd x _ _ => x
  | .pkItwr x _ _ => x
  | .pkRebase x _ _ => x
  | .pkCap x _ _ => x

/-- Operand B as sent (packet bits 159:96). -/
def Instr.operandB : Instr → Word
  | .csrr _ x _ => x
  | .popc _ x _ => x
  | .bsize _ x _ => x
  | .clz _ x _ => x
  | .ctz _ x _ => x
  | .rdbits _ x _ => x
  | .wrbits _ x _ => x
  | .cnt1 _ x _ => x
  | .sel1 _ x _ => x
  | .sel0 _ x _ => x
  | .pred1 _ x _ => x
  | .succ1 _ x _ => x
  | .pred0 _ x _ => x
  | .succ0 _ x _ => x
  | .movbits _ x _ => x
  | .cpybits _ x _ => x
  | .rvInit _ x _ => x
  | .rvAppend _ x _ => x
  | .rvRank1 _ x _ => x
  | .rvRank0 _ x _ => x
  | .rvSel1 _ x _ => x
  | .rvSel0 _ x _ => x
  | .rvPred1 _ x _ => x
  | .rvSucc1 _ x _ => x
  | .rvPred0 _ x _ => x
  | .rvSucc0 _ x _ => x
  | .rvShorten _ x _ => x
  | .rvNones _ x _ => x
  | .rvNzeros _ x _ => x
  | .rvCap _ x _ => x
  | .rvRebase _ x _ => x
  | .rvBit _ x _ => x
  | .pkCfg _ x _ => x
  | .pkRd _ x _ => x
  | .pkWr _ x _ => x
  | .pkAppend _ x _ => x
  | .pkResize _ x _ => x
  | .pkClear _ x _ => x
  | .pkConvert _ x _ => x
  | .pkSeek _ x _ => x
  | .pkAdv _ x _ => x
  | .pkItrd _ x _ => x
  | .pkItwr _ x _ => x
  | .pkRebase _ x _ => x
  | .pkCap _ x _ => x

/-- Operand C as sent (packet bits 223:160). -/
def Instr.operandC : Instr → Word
  | .csrr _ _ x => x
  | .popc _ _ x => x
  | .bsize _ _ x => x
  | .clz _ _ x => x
  | .ctz _ _ x => x
  | .rdbits _ _ x => x
  | .wrbits _ _ x => x
  | .cnt1 _ _ x => x
  | .sel1 _ _ x => x
  | .sel0 _ _ x => x
  | .pred1 _ _ x => x
  | .succ1 _ _ x => x
  | .pred0 _ _ x => x
  | .succ0 _ _ x => x
  | .movbits _ _ x => x
  | .cpybits _ _ x => x
  | .rvInit _ _ x => x
  | .rvAppend _ _ x => x
  | .rvRank1 _ _ x => x
  | .rvRank0 _ _ x => x
  | .rvSel1 _ _ x => x
  | .rvSel0 _ _ x => x
  | .rvPred1 _ _ x => x
  | .rvSucc1 _ _ x => x
  | .rvPred0 _ _ x => x
  | .rvSucc0 _ _ x => x
  | .rvShorten _ _ x => x
  | .rvNones _ _ x => x
  | .rvNzeros _ _ x => x
  | .rvCap _ _ x => x
  | .rvRebase _ _ x => x
  | .rvBit _ _ x => x
  | .pkCfg _ _ x => x
  | .pkRd _ _ x => x
  | .pkWr _ _ x => x
  | .pkAppend _ _ x => x
  | .pkResize _ _ x => x
  | .pkClear _ _ x => x
  | .pkConvert _ _ x => x
  | .pkSeek _ _ x => x
  | .pkAdv _ _ x => x
  | .pkItrd _ _ x => x
  | .pkItwr _ _ x => x
  | .pkRebase _ _ x => x
  | .pkCap _ _ x => x

/-- The control and status registers (10_state.md R25). -/
inductive Csr where
  | id | nwords | bt | bm | rvmax
  | status | fcause | fcw | finfo
  | rvbase | rvsize | rvcap
  | pkbase | pkw | pksize | pkcap | pkwords | pkidx
  deriving DecidableEq, Repr

end Sys2Proof
end

