-- ==== Sys2Proof/WellFormed.lean ====
section
/-! DEFINITION. What is well formed: a build (00_scope.md R4 to R6), a request packet (30_encoding.md R105), and a
command as the assembler writes it (30_encoding.md R108). Every operand of `Instr` is a whole 64-bit field (R103), so
no term of `Instr` lies outside the encoding: decode and encode agree on all of them. -/

namespace Sys2Proof

/-- A power of two. -/
def isPow2 (n : Nat) : Bool := n ≠ 0 && 2 ^ n.log2 == n

/-- The legal ranges of the parameters: `1 ≤ NWORDS ≤ 2^52 - 1` (00_scope.md R4); `B_M` and `B_T` powers of two with
`64 ≤ B_M < B_T < 2^16` (R5); `RVMAX` a positive multiple of `B_T` (R6) that its 64-bit register holds (10_state.md
R24, R25; DEDUCED, log entry 10). -/
def Build.legal (b : Build) : Bool :=
  (1 ≤ b.nwords && b.nwords ≤ 2 ^ 52 - 1) && (isPow2 b.bt && isPow2 b.bm) &&
  (64 ≤ b.bm && b.bm < b.bt && b.bt < 2 ^ 16) &&
  (0 < b.rvmax && b.rvmax % b.bt == 0 && b.rvmax < 2 ^ 64)

/-- The assigned opcodes as the complement of R105's list: 0x00, 0x02 to 0x0F, 0x14 to 0x1F, 0x2B to 0x2F and 0x4D to
0xFF are unassigned (30_encoding.md R105). -/
def opAssigned (op : BitVec 8) : Bool :=
  let n := op.toNat
  !(n == 0 || (0x02 ≤ n && n ≤ 0x0F) || (0x14 ≤ n && n ≤ 0x1F) || (0x2B ≤ n && n ≤ 0x2F) || 0x4D ≤ n)

/-- A packet that is not illegal by 30_encoding.md R105: bits 31:8 zero and an assigned opcode in bits 7:0. -/
def Packet.wellFormed (p : BitVec 224) : Bool :=
  p.extractLsb' 8 24 == 0#24 && opAssigned (p.extractLsb' 0 8)

/-- A command as the assembler writes it: "The assembler sets the operands the format ignores, and `rsv`, to zero"
(30_encoding.md R108). No rule of the engine needs it. -/
def Instr.assembled (i : Instr) : Bool :=
  match i.format with
  | .f0 => i.operandA == 0 && i.operandB == 0 && i.operandC == 0
  | .f1 => i.operandB == 0 && i.operandC == 0
  | .f2 => i.operandC == 0
  | .f3 => true

end Sys2Proof
end

