-- ==== Sys2Proof/Decode.lean ====
section
/-! DEFINITION. The packet layout (30_encoding.md R100), the opcode map (R104) as one table, the decoder (R104, R105),
total on all 224-bit packets and rejecting by name, and after it the encoder. -/

namespace Sys2Proof

/-- Bits 31:0 of a packet, the command word `cw` (30_encoding.md R100). -/
def commandWord (p : BitVec 224) : BitVec 32 := p.extractLsb' 0 32

/-- Bits 7:0, the opcode (R100). -/
def fieldOp (p : BitVec 224) : BitVec 8 := p.extractLsb' 0 8

/-- Bits 31:8, reserved (R100). -/
def fieldRsv (p : BitVec 224) : BitVec 24 := p.extractLsb' 8 24

/-- Bits 95:32, operand A (R100). -/
def fieldA (p : BitVec 224) : Word := p.extractLsb' 32 64

/-- Bits 159:96, operand B (R100). -/
def fieldB (p : BitVec 224) : Word := p.extractLsb' 96 64

/-- Bits 223:160, operand C (R100). -/
def fieldC (p : BitVec 224) : Word := p.extractLsb' 160 64

/-- One row of the opcode map (30_encoding.md R104). -/
structure Row where
  op : BitVec 8
  mnemonic : String
  make : Word → Word → Word → Instr

/-- The system command (30_encoding.md R104). -/
def systemRows : List Row :=
  [ ⟨0x01#8, "CSRR", .csrr⟩ ]

/-- The word primitives (30_encoding.md R104). -/
def wordRows : List Row :=
  [ ⟨0x10#8, "POPC", .popc⟩,
    ⟨0x11#8, "BSIZE", .bsize⟩,
    ⟨0x12#8, "CLZ", .clz⟩,
    ⟨0x13#8, "CTZ", .ctz⟩ ]

/-- The bit-region commands (30_encoding.md R104). -/
def bitRows : List Row :=
  [ ⟨0x20#8, "RDBITS", .rdbits⟩,
    ⟨0x21#8, "WRBITS", .wrbits⟩,
    ⟨0x22#8, "CNT1", .cnt1⟩,
    ⟨0x23#8, "SEL1", .sel1⟩,
    ⟨0x24#8, "SEL0", .sel0⟩,
    ⟨0x25#8, "PRED1", .pred1⟩,
    ⟨0x26#8, "SUCC1", .succ1⟩,
    ⟨0x27#8, "PRED0", .pred0⟩,
    ⟨0x28#8, "SUCC0", .succ0⟩,
    ⟨0x29#8, "MOVBITS", .movbits⟩,
    ⟨0x2A#8, "CPYBITS", .cpybits⟩ ]

/-- The rank-vector commands (30_encoding.md R104). -/
def rankRows : List Row :=
  [ ⟨0x30#8, "RV.INIT", .rvInit⟩,
    ⟨0x31#8, "RV.APPEND", .rvAppend⟩,
    ⟨0x32#8, "RV.RANK1", .rvRank1⟩,
    ⟨0x33#8, "RV.RANK0", .rvRank0⟩,
    ⟨0x34#8, "RV.SEL1", .rvSel1⟩,
    ⟨0x35#8, "RV.SEL0", .rvSel0⟩,
    ⟨0x36#8, "RV.PRED1", .rvPred1⟩,
    ⟨0x37#8, "RV.SUCC1", .rvSucc1⟩,
    ⟨0x38#8, "RV.PRED0", .rvPred0⟩,
    ⟨0x39#8, "RV.SUCC0", .rvSucc0⟩,
    ⟨0x3A#8, "RV.SHORTEN", .rvShorten⟩,
    ⟨0x3B#8, "RV.NONES", .rvNones⟩,
    ⟨0x3C#8, "RV.NZEROS", .rvNzeros⟩,
    ⟨0x3D#8, "RV.CAP", .rvCap⟩,
    ⟨0x3E#8, "RV.REBASE", .rvRebase⟩,
    ⟨0x3F#8, "RV.BIT", .rvBit⟩ ]

/-- The packed-integer commands (30_encoding.md R104). -/
def packedRows : List Row :=
  [ ⟨0x40#8, "PK.CFG", .pkCfg⟩,
    ⟨0x41#8, "PK.RD", .pkRd⟩,
    ⟨0x42#8, "PK.WR", .pkWr⟩,
    ⟨0x43#8, "PK.APPEND", .pkAppend⟩,
    ⟨0x44#8, "PK.RESIZE", .pkResize⟩,
    ⟨0x45#8, "PK.CLEAR", .pkClear⟩,
    ⟨0x46#8, "PK.CONVERT", .pkConvert⟩,
    ⟨0x47#8, "PK.SEEK", .pkSeek⟩,
    ⟨0x48#8, "PK.ADV", .pkAdv⟩,
    ⟨0x49#8, "PK.ITRD", .pkItrd⟩,
    ⟨0x4A#8, "PK.ITWR", .pkItwr⟩,
    ⟨0x4B#8, "PK.REBASE", .pkRebase⟩,
    ⟨0x4C#8, "PK.CAP", .pkCap⟩ ]

/-- The opcode map (30_encoding.md R104): 45 rows. -/
def opcodeTable : List Row := systemRows ++ wordRows ++ bitRows ++ rankRows ++ packedRows

/-- Why a packet is illegal (30_encoding.md R105). -/
inductive Illegal where
  /-- bits 31:8 are not all zero -/
  | reservedBits
  /-- `op` is in no row of the map -/
  | unassignedOpcode
  deriving DecidableEq, Repr

/-- What the decoder answers. -/
inductive Decoded where
  | command (i : Instr)
  | illegal (why : Illegal)
  deriving DecidableEq, Repr

/-- The row of an opcode. -/
def rowOf (op : BitVec 8) : Option Row := opcodeTable.find? fun r => r.op == op

/-- The decoder: the command of the row whose `op` equals bits 7:0, provided bits 31:8 are zero; it "looks at nothing
else" (30_encoding.md R104, R105). -/
def decode (p : BitVec 224) : Decoded :=
  if fieldRsv p = 0#24 then
    match rowOf (fieldOp p) with
    | some r => .command (r.make (fieldA p) (fieldB p) (fieldC p))
    | none => .illegal .unassignedOpcode
  else .illegal .reservedBits

/-- The instruction the decoder reads from the packet whose low `nbits` bits are those of `w` and whose other bits
are zero. -/
def decodeTableWord (nbits w : Nat) : Option Instr :=
  match decode (BitVec.ofNat 224 (w % 2 ^ nbits)) with
  | .command i => some i
  | .illegal _ => none

/-- The opcode of each command (30_encoding.md R104), for the encoder. -/
def Instr.opcode : Instr → BitVec 8
  | .csrr _ _ _ => 0x01#8
  | .popc _ _ _ => 0x10#8
  | .bsize _ _ _ => 0x11#8
  | .clz _ _ _ => 0x12#8
  | .ctz _ _ _ => 0x13#8
  | .rdbits _ _ _ => 0x20#8
  | .wrbits _ _ _ => 0x21#8
  | .cnt1 _ _ _ => 0x22#8
  | .sel1 _ _ _ => 0x23#8
  | .sel0 _ _ _ => 0x24#8
  | .pred1 _ _ _ => 0x25#8
  | .succ1 _ _ _ => 0x26#8
  | .pred0 _ _ _ => 0x27#8
  | .succ0 _ _ _ => 0x28#8
  | .movbits _ _ _ => 0x29#8
  | .cpybits _ _ _ => 0x2A#8
  | .rvInit _ _ _ => 0x30#8
  | .rvAppend _ _ _ => 0x31#8
  | .rvRank1 _ _ _ => 0x32#8
  | .rvRank0 _ _ _ => 0x33#8
  | .rvSel1 _ _ _ => 0x34#8
  | .rvSel0 _ _ _ => 0x35#8
  | .rvPred1 _ _ _ => 0x36#8
  | .rvSucc1 _ _ _ => 0x37#8
  | .rvPred0 _ _ _ => 0x38#8
  | .rvSucc0 _ _ _ => 0x39#8
  | .rvShorten _ _ _ => 0x3A#8
  | .rvNones _ _ _ => 0x3B#8
  | .rvNzeros _ _ _ => 0x3C#8
  | .rvCap _ _ _ => 0x3D#8
  | .rvRebase _ _ _ => 0x3E#8
  | .rvBit _ _ _ => 0x3F#8
  | .pkCfg _ _ _ => 0x40#8
  | .pkRd _ _ _ => 0x41#8
  | .pkWr _ _ _ => 0x42#8
  | .pkAppend _ _ _ => 0x43#8
  | .pkResize _ _ _ => 0x44#8
  | .pkClear _ _ _ => 0x45#8
  | .pkConvert _ _ _ => 0x46#8
  | .pkSeek _ _ _ => 0x47#8
  | .pkAdv _ _ _ => 0x48#8
  | .pkItrd _ _ _ => 0x49#8
  | .pkItwr _ _ _ => 0x4A#8
  | .pkRebase _ _ _ => 0x4B#8
  | .pkCap _ _ _ => 0x4C#8

/-- A packet from its fields (30_encoding.md R100): C, B, A, `rsv = 0`, `op`, from the most significant bit down. -/
def packet (op : BitVec 8) (a b c : Word) : BitVec 224 := c ++ (b ++ (a ++ (0#24 ++ op)))

/-- The encoder: the packet of a command (30_encoding.md R100, R104). -/
def encode (i : Instr) : BitVec 224 := packet i.opcode i.operandA i.operandB i.operandC

end Sys2Proof
end

