-- ==== Sys2Proof/Machine/State.lean ====
section
/-! DEFINITION. The state of the engine and of its port, as plain data: the three memories and every register of
10_state.md, the host inputs waiting at the port, the responses sent. -/

namespace Sys2Proof.Machine

/-- A memory of `w`-bit cells as (address, content) pairs, addresses strictly rising, no cell equal to `unlisted`.
`M` has 64-bit words (10_state.md R23: "There are no bytes", 20_memory.md R62, log entry 6), `TOP` 64-bit and `MID`
16-bit entries (R27, R28). -/
abbrev Memory (w : Nat) := List (Nat × BitVec w)

/-- What an unlisted address reads as. The spec gives no contents (10_state.md R40: "unspecified"); a reset input
lists the contents it leaves (`HostInput.reset`), so every contents occur. DESIGN CHOICE, unsafe for a claim about
`State.reset` alone (log entry 2). -/
def unlisted (w : Nat) : BitVec w := 0#w

/-- The canonical form of a memory. -/
abbrev Memory.wf {w : Nat} (m : Memory w) : Prop :=
  m.Pairwise (fun x y => x.1 < y.1) ∧ ∀ c ∈ m, c.2 ≠ unlisted w

/-- A response packet (30_encoding.md R101): the status `st` and the result `R`. -/
structure Response where
  st : BitVec 8
  result : Word
  deriving DecidableEq, Repr

/-- What the host does next at the port (00_scope.md R11, R12): it sends a request packet (30_encoding.md R100) or
asserts reset (70_reset_and_hazards.md R310). A reset carries what the three memories hold after it: "A model takes
the post-reset contents of the three memories as universally quantified inputs" (10_state.md R40); the host does not
choose them (log entry 2). -/
inductive HostInput where
  | request (packet : BitVec 224)
  | reset (mem top : List (Nat × BitVec 64)) (mid : List (Nat × BitVec 16))
  deriving DecidableEq, Repr

/-- The whole state. Register widths are those of the "bits" column of 10_state.md R25. -/
structure State where
  /-- the constants of the build: registers NWORDS, BT, BM, RVMAX (R25; log entry 1) -/
  build : Build
  /-- `M` (R23) -/
  mem : Memory 64
  /-- `TOP` (R27) -/
  top : Memory 64
  /-- `MID` (R28) -/
  mid : Memory 16
  /-- STATUS bit 0, FAULTED (R25, R26) -/
  faulted : Bool
  /-- FCAUSE (R26) -/
  fcause : BitVec 8
  /-- FCW (R26) -/
  fcw : BitVec 32
  /-- FINFO (R26) -/
  finfo : Word
  /-- RVBASE (R30) -/
  rvbase : Word
  /-- RVSIZE (R30) -/
  rvsize : Word
  /-- RVCAP (R30) -/
  rvcap : Word
  /-- PKBASE (R31) -/
  pkbase : Word
  /-- PKW (R31) -/
  pkw : BitVec 7
  /-- PKSIZE (R31) -/
  pksize : Word
  /-- PKCAP (R31) -/
  pkcap : Word
  /-- PKWORDS (R31) -/
  pkwords : Word
  /-- PKIDX, the iterator (R31) -/
  pkidx : Word
  /-- the model's: host inputs not yet taken, oldest first (log entry 3) -/
  port : List HostInput
  /-- the model's: response packets sent since the last reset, oldest first (log entry 4) -/
  responses : List Response
  /-- the model's: requests taken; it only indexes the free values of Config (log entry 5) -/
  tick : Nat
  deriving DecidableEq, Repr

/-- Why the model stops. Neither is a fault of the spec (those are next states, 60_exceptions.md R285): each is an
access that 20_memory.md R62 says no rule makes, and no state reachable from a legal build has one. -/
inductive Fault where
  /-- An `RV.*` command would reach bits outside `M`, or entries outside `TOP` or `MID`: the registers violate
  10_state.md R30. Raised by the rank-vector meanings. Safe (log entry 9). -/
  | rankVectorOutsideMemory
  /-- A `PK.*` command would reach bits outside `M`, or PKW is not in 1..64: the registers violate 10_state.md R31.
  Raised by the packed-integer meanings. Safe (log entry 9). -/
  | packedVectorOutsideMemory
  /-- The search of 43_rank_select.md R207 met no bit although the summary invariant holds: only in an illegal build.
  Raised by `RV.SEL1` and `RV.SEL0`. Safe (log entry 9). -/
  | selectFoundNothing
  deriving DecidableEq, Repr

/-- Why the model gives an instruction no meaning. -/
inductive Refusal where
  /-- The instruction has no meaning in the model yet. Raised by `exec`; safe. No arm raises it. -/
  | notModelled (mnemonic : String)
  deriving DecidableEq, Repr

/-- The registers right after reset (10_state.md R25, R40): PKW 1, everything else 0; memories with the given
contents; nothing at the port. -/
def State.afterReset (b : Build) (mem top : Memory 64) (mid : Memory 16) (port : List HostInput) (tick : Nat) :
    State :=
  { build := b, mem := mem, top := top, mid := mid
    faulted := false, fcause := 0#8, fcw := 0#32, finfo := 0#64
    rvbase := 0#64, rvsize := 0#64, rvcap := 0#64
    pkbase := 0#64, pkw := 1#7, pksize := 0#64, pkcap := 0#64, pkwords := 0#64, pkidx := 0#64
    port := port, responses := [], tick := tick }

/-- The engine right after reset, with the default build, memories that list nothing and nothing at the port. -/
def State.reset : State := State.afterReset Config.defaultBuild [] [] [] [] 0

end Sys2Proof.Machine
end

