-- ==== Sys2Proof/Machine/WordOps.lean ====
section
/-! DEFINITION. Arithmetic the rules share (00_scope.md R9, R10), the searches "the smallest such q" and "the largest
such q", and the functions of one word: population count, bit size, leading and trailing zeros, and the word-level
selects (40_word_primitives.md R130 to R136). -/

namespace Sys2Proof.Machine

/-- `⌈a/b⌉ = (a + b - 1) div b` (00_scope.md R9). -/
def ceilDiv (a b : Nat) : Nat := (a + b - 1) / b

/-- `mask(w) = 2^w - 1`, for `0 ≤ w ≤ 64` (00_scope.md R10). -/
def mask (w : Nat) : Word := BitVec.ofNat 64 (2 ^ w - 1)

/-- The smallest `q` with `start ≤ q < start + count` that `f` accepts. -/
def leastFrom (f : Nat → Bool) (start : Nat) : (count : Nat) → Option Nat
  | 0 => none
  | n + 1 => if f start then some start else leastFrom f (start + 1) n

/-- The largest `q` with `start ≤ q < start + count` that `f` accepts. -/
def greatestFrom (f : Nat → Bool) (start : Nat) : (count : Nat) → Option Nat
  | 0 => none
  | n + 1 => if f (start + n) then some (start + n) else greatestFrom f start n

/-- How many `q` with `start ≤ q < start + count` the function accepts. -/
def countFrom (f : Nat → Bool) (start : Nat) : (count : Nat) → Nat
  | 0 => 0
  | n + 1 => countFrom f start n + (f (start + n)).toNat

/-- The `k`-th (from 1) `q` with `start ≤ q < start + count` that the function accepts; none when there are fewer. -/
def kthFrom (f : Nat → Bool) (k start : Nat) : (count : Nat) → Option Nat
  | 0 => none
  | n + 1 =>
    if f start then (if k = 1 then some start else kthFrom f (k - 1) (start + 1) n)
    else kthFrom f k (start + 1) n

/-- `popcount(x)`, the number of 1-bits of `x` (40_word_primitives.md R130). -/
def popcount (x : Word) : Nat := countFrom x.getLsbD 0 64

/-- `bitSize(v)`: 1 for 0, else the position of the most significant 1-bit plus one (R131). -/
def bitSize (v : Word) : Nat :=
  match greatestFrom v.getLsbD 0 64 with
  | none => 1
  | some q => q + 1

/-- Leading zeros: `63 - (position of the most significant 1-bit)`, and 64 for 0 (R132, 92_eei_decisions.md D18). -/
def leadingZeros (x : Word) : Nat :=
  match greatestFrom x.getLsbD 0 64 with
  | none => 64
  | some q => 63 - q

/-- Trailing zeros: the position of the least significant 1-bit, and 64 for 0 (R133, D18). -/
def trailingZeros (x : Word) : Nat :=
  match leastFrom x.getLsbD 0 64 with
  | none => 64
  | some q => q

/-- `pop8(y)`, the number of 1-bits of a byte value (R135). -/
def pop8 (y : BitVec 8) : Nat := countFrom y.getLsbD 0 8

/-- `sel8(y, r)`, the position of the r-th 1-bit of a byte value, for `1 ≤ r ≤ pop8(y)` (R135; the table "has rows
r = 0..8", 90_conflicts.md C2). None outside that range: "Entries with r > pop8(y) are never looked up". -/
def sel8 (y : BitVec 8) (r : Nat) : Option Nat := kthFrom y.getLsbD r 0 8

/-- Byte `j` of a word, `x[8j+7:8j]` (20_memory.md R62). -/
def byteOf (x : Word) (j : Nat) : BitVec 8 := x.extractLsb' (8 * j) 8

/-- The byte walk of `sel1w` from byte `j` on, `left` bytes still to see (40_word_primitives.md R136). -/
def selectBytes (x : Word) (k j : Nat) : (left : Nat) → Option Nat
  | 0 => none
  | n + 1 =>
    if k ≤ pop8 (byteOf x j) then (sel8 (byteOf x j) k).map (8 * j + ·)
    else selectBytes x (k - pop8 (byteOf x j)) (j + 1) n

/-- `sel1w(x, k)`, the position of the k-th 1-bit of a word, for `1 ≤ k ≤ popcount(x)` (R136). -/
def sel1w (x : Word) (k : Nat) : Option Nat := selectBytes x k 0 8

/-- `sel0w(x, k) = sel1w(~x, k)` (R136). -/
def sel0w (x : Word) (k : Nat) : Option Nat := sel1w (~~~x) k

end Sys2Proof.Machine
end

