-- ==== Sys2Proof/Machine/Ops.lean ====
section
/-! DEFINITION. The named operations: memory cells, the bit-field primitives (20_memory.md R64 to R67), responding
(30_encoding.md R101), taking a fault (60_exceptions.md R285) and the one way back, reset (R287;
70_reset_and_hazards.md R310). -/

namespace Sys2Proof.Machine

/-! ### Cells -/

/-- Reading one cell: `MemRead` for `M` (20_memory.md R62), an entry for `TOP` and `MID`. -/
def Memory.read {w : Nat} : Memory w → Nat → BitVec w
  | [], _ => unlisted w
  | (b, x) :: m, a => if a = b then x else Memory.read m a

/-- Writing one cell: `MemWrite` for `M` (20_memory.md R62). It keeps the canonical form. -/
def Memory.write {w : Nat} : Memory w → Nat → BitVec w → Memory w
  | [], a, v => if v = unlisted w then [] else [(a, v)]
  | (b, x) :: m, a, v =>
    if a < b then (if v = unlisted w then (b, x) :: m else (a, v) :: (b, x) :: m)
    else if a = b then (if v = unlisted w then m else (a, v) :: m)
    else (b, x) :: Memory.write m a v

/-- The memory of `n` cells with the listed contents, in canonical form; a pair outside the memory is no part of it,
and of two pairs with one address the later one counts. -/
def Memory.ofList {w : Nat} (n : Nat) (cells : List (Nat × BitVec w)) : Memory w :=
  cells.foldl (fun m c => if c.1 < n then Memory.write m c.1 c.2 else m) []

/-! ### Bits of `M` -/

/-- `bit(i)`, bit `i mod 64` of word `i div 64` (20_memory.md R66). -/
def bitAt (m : Memory 64) (i : Nat) : Bool := (m.read (i / 64)).getLsbD (i % 64)

/-- `BitRead(p, w)` (20_memory.md R64). -/
def bitRead (m : Memory 64) (p w : Nat) : Word :=
  if w = 0 then 0#64
  else if p % 64 + w ≤ 64 then (m.read (p / 64) >>> (p % 64)) &&& mask w
  else ((m.read (p / 64) >>> (p % 64)) ||| (m.read (p / 64 + 1) <<< (64 - p % 64))) &&& mask w

/-- `BitWrite(p, w, v)` (20_memory.md R65). -/
def bitWrite (m : Memory 64) (p w : Nat) (v : Word) : Memory 64 :=
  if w = 0 then m
  else if p % 64 + w ≤ 64 then
    m.write (p / 64) ((m.read (p / 64) &&& ~~~(mask w <<< (p % 64))) ||| (v <<< (p % 64)))
  else
    (m.write (p / 64)
      ((m.read (p / 64) &&& mask (p % 64)) ||| ((v &&& mask (64 - p % 64)) <<< (p % 64)))).write (p / 64 + 1)
      ((m.read (p / 64 + 1) &&& ~~~(mask (w - (64 - p % 64)))) ||| (v >>> (64 - p % 64)))

/-- `ones(a, b)`, the number of 1-bits of `[a, b)`, 0 when `a ≥ b` (20_memory.md R66). -/
def ones (m : Memory 64) (a b : Nat) : Nat := countFrom (bitAt m) a (b - a)

/-- `zeros(a, b) = (b - a) - ones(a, b)` (20_memory.md R66). -/
def zeros (m : Memory 64) (a b : Nat) : Nat := (b - a) - ones m a b

/-- `kth(a, k, x)`: the position of the k-th bit of value `x` at or above `a`, below the end `64 * NWORDS`
(20_memory.md R66). -/
def kth (m : Memory 64) (limit a k : Nat) (x : Bool) : Option Nat :=
  kthFrom (fun q => bitAt m q == x) k a (limit - a)

/-- Bits `j < len` of the region at `s` of the memory `old`, written to the region at `d` of `m`. -/
def moveFrom (old m : Memory 64) (s d : Nat) : (len : Nat) → Memory 64
  | 0 => m
  | n + 1 => bitWrite (moveFrom old m s d n) (d + n) 1 (BitVec.ofNat 64 (bitAt old (s + n)).toNat)

/-- `MoveBits(s, d, len)`: every source bit is taken before any write (20_memory.md R67). -/
def moveBits (m : Memory 64) (s d len : Nat) : Memory 64 := moveFrom m m s d len

/-! ### The state's own measures -/

/-- `64 * NWORDS`, the number of bit positions of `M` (20_memory.md R60). -/
def State.bits (s : State) : Nat := 64 * s.build.nwords

/-! ### Responses and faults -/

/-- The fault codes (60_exceptions.md R281). -/
inductive FaultCode where
  | illegal | width | bounds | value | rank | overlap | capacity | index | csrnum
  deriving DecidableEq, Repr

/-- The number of a code (60_exceptions.md R281). -/
def FaultCode.number : FaultCode → BitVec 8
  | .illegal => 0x01#8
  | .width => 0x02#8
  | .bounds => 0x03#8
  | .value => 0x04#8
  | .rank => 0x05#8
  | .overlap => 0x06#8
  | .capacity => 0x07#8
  | .index => 0x08#8
  | .csrnum => 0x09#8

/-- The status of a command that completes (60_exceptions.md R281). -/
def statusOk : BitVec 8 := 0x00#8

/-- The status a locked engine answers (60_exceptions.md R281, R286). -/
def statusLocked : BitVec 8 := 0x0A#8

/-- Sending one response packet (30_encoding.md R101). -/
def State.respond (s : State) (st : BitVec 8) (r : Word) : State :=
  { s with responses := s.responses ++ [⟨st, r⟩] }

/-- The response packet as 72 bits: `st` in bits 7:0, `R` in bits 71:8 (30_encoding.md R101). -/
def Response.pack (r : Response) : BitVec 72 := r.result ++ r.st

/-- Fault entry (60_exceptions.md R285): FAULTED, FCAUSE, FCW and FINFO are written, `st = code`, `R = 0`, and
"Nothing else changes". -/
def State.takeFault (s : State) (code : FaultCode) (cw : BitVec 32) (a : Word) : State :=
  State.respond { s with faulted := true, fcause := code.number, fcw := cw, finfo := a } code.number 0#64

/-- Reset, the only way to leave the locked state (60_exceptions.md R287; 70_reset_and_hazards.md R310): every
register takes its reset value, the memories hold unspecified contents, here those of the reset input. The model's own
`tick` goes on, so that no free value is used twice (log entry 5). -/
def State.takeReset (s : State) (mem top : List (Nat × BitVec 64)) (mid : List (Nat × BitVec 16)) : State :=
  State.afterReset s.build (Memory.ofList s.build.nwords mem) (Memory.ofList s.build.ntop top)
    (Memory.ofList s.build.nmid mid) s.port s.tick

/-! ### How a command ends -/

/-- What a command's own rule answers. -/
inductive Reply where
  /-- it completes: the result and the state it leaves, the response not yet sent -/
  | done (r : Word) (s : State)
  /-- `raise Fault(code)`: nothing the command wrote is kept (00_scope.md R8, 60_exceptions.md R284) -/
  | raise (code : FaultCode)
  /-- it would leave the address spaces: the model stops (log entry 9) -/
  | stop (f : Fault)

/-- A command of opcode `op` with operand A `a` on the state `s`, its own rule answering `reply`: a locked engine
answers LOCKED and nothing changes (60_exceptions.md R283, R286); otherwise the rule's answer is sent or its fault
taken (R285). FCW holds the command word, which is the opcode, since `rsv = 0` (30_encoding.md R100, R104). -/
def runCommand (op : BitVec 8) (a : Word) (s : State) (reply : Reply) : Host.Outcome State Fault Refusal :=
  if s.faulted then .next (s.respond statusLocked 0#64)
  else
    match reply with
    | .done r t => .next (t.respond statusOk r)
    | .raise code => .next (s.takeFault code (op.setWidth 32) a)
    | .stop f => .fault f

end Sys2Proof.Machine
end

