-- ==== Sys2Proof/Machine/Flags.lean ====
section
/-! DEFINITION. Flags. "There are no condition codes, status flags or predicates written as a side effect of a
command" (10_state.md R22): the one status bit is STATUS.FAULTED, written by fault entry (`State.takeFault`) and reset
alone. Here is how the STATUS register shows it. -/

namespace Sys2Proof.Machine

/-- The STATUS register: FAULTED in bit 0, bits 63:1 zero (10_state.md R25, R26). -/
def statusRegister (s : State) : Word := BitVec.ofNat 64 s.faulted.toNat

end Sys2Proof.Machine
end

