-- ==== Sys2Proof/Machine/Operands.lean ====
section
/-! DEFINITION. The operand forms: "every operand is the whole 64-bit field, read as an unsigned number" and checked,
never truncated (30_encoding.md R103); and the register numbers of `CSRR` (10_state.md R25). -/

namespace Sys2Proof.Machine

/-- A natural number as a 64-bit register or result. Every rule's number is below 2^64 (00_scope.md R4, R9). -/
def word (n : Nat) : Word := BitVec.ofNat 64 n

/-- A value operand fits in `w` bits: `val < 2^w` (41_bit_region.md R142, 42_packed_int.md R173). -/
def fits (val : Word) (w : Nat) : Bool := val.toNat < 2 ^ w

/-- A width operand of `PK.CFG` and `PK.CONVERT`: 1..64 (60_exceptions.md R281). -/
def elementWidth (w : Word) : Bool := 1 ≤ w.toNat && w.toNat ≤ maxWidth

/-- The bit-region `[p, p+len)` is in bounds (20_memory.md R69), on natural numbers. -/
def State.holdsRegion (s : State) (p len : Nat) : Bool := p + len ≤ s.bits

/-- The words `[base, base + n)` lie in `M`: a context being placed is in bounds (20_memory.md R69). -/
def State.holdsWords (s : State) (base n : Nat) : Bool := base + n ≤ s.build.nwords

/-- The number of each register (10_state.md R25). -/
def Csr.number : Csr → Nat
  | .id => 0x00
  | .nwords => 0x01
  | .bt => 0x02
  | .bm => 0x03
  | .rvmax => 0x04
  | .status => 0x08
  | .fcause => 0x09
  | .fcw => 0x0A
  | .finfo => 0x0B
  | .rvbase => 0x10
  | .rvsize => 0x11
  | .rvcap => 0x12
  | .pkbase => 0x18
  | .pkw => 0x19
  | .pksize => 0x1A
  | .pkcap => 0x1B
  | .pkwords => 0x1C
  | .pkidx => 0x1D

/-- Every register of the table of 10_state.md R25. -/
def csrs : List Csr :=
  [ .id, .nwords, .bt, .bm, .rvmax, .status, .fcause, .fcw, .finfo, .rvbase, .rvsize, .rvcap,
    .pkbase, .pkw, .pksize, .pkcap, .pkwords, .pkidx ]

/-- The register a number names; none for a number outside the table, also above 0xFF (10_state.md R24, R25). -/
def csrOf (num : Nat) : Option Csr := csrs.find? fun r => Csr.number r == num

/-- The 64-bit value of a register, "fields above its width read as zero" (44_system.md R240; 10_state.md R25). -/
def State.csr (s : State) : Csr → Word
  | .id => Config.identification
  | .nwords => word s.build.nwords
  | .bt => word s.build.bt
  | .bm => word s.build.bm
  | .rvmax => word s.build.rvmax
  | .status => statusRegister s
  | .fcause => s.fcause.setWidth 64
  | .fcw => s.fcw.setWidth 64
  | .finfo => s.finfo
  | .rvbase => s.rvbase
  | .rvsize => s.rvsize
  | .rvcap => s.rvcap
  | .pkbase => s.pkbase
  | .pkw => s.pkw.setWidth 64
  | .pksize => s.pksize
  | .pkcap => s.pkcap
  | .pkwords => s.pkwords
  | .pkidx => s.pkidx

end Sys2Proof.Machine
end

