-- ==== Sys2Proof/Machine/BitRegion.lean ====
section
/-! DEFINITION. The bit-region commands (41_bit_region.md R141 to R151). "these commands do not look at, and do not
respect, RVBASE, RVSIZE, PKBASE or any other context register" (R140). -/

namespace Sys2Proof.Machine

/-- A position, or the sentinel when there is none (60_exceptions.md R290). -/
def positionOrNotFound (q : Option Nat) : Word :=
  match q with
  | some n => word n
  | none => notFound

/-- `RDBITS p, w` (41_bit_region.md R141). -/
def execRdbits (p w : Word) (s : State) : Host.Outcome State Fault Refusal :=
  runCommand 0x20#8 p s <|
    if w.toNat > maxWidth then .raise .width
    else if s.holdsRegion p.toNat w.toNat then .done (bitRead s.mem p.toNat w.toNat) s
    else .raise .bounds

/-- `WRBITS p, w, val` (R142). -/
def execWrbits (p w val : Word) (s : State) : Host.Outcome State Fault Refusal :=
  runCommand 0x21#8 p s <|
    if w.toNat > maxWidth then .raise .width
    else if !s.holdsRegion p.toNat w.toNat then .raise .bounds
    else if !fits val w.toNat then .raise .value
    else .done 0#64 { s with mem := bitWrite s.mem p.toNat w.toNat val }

/-- `CNT1 base, last` (R143): the region is `[64*base, last + 1)`, the bit at `last` counted (90_conflicts.md C1). -/
def execCnt1 (base last : Word) (s : State) : Host.Outcome State Fault Refusal :=
  runCommand 0x22#8 base s <|
    if base.toNat ≥ s.build.nwords || last.toNat ≥ s.bits || last.toNat < 64 * base.toNat then .raise .bounds
    else .done (word (ones s.mem (64 * base.toNat) (last.toNat + 1))) s

/-- The rule `SEL1` and `SEL0` share (R144, R145): the rank-th bit of value `x` from word `base` on. -/
def selectRule (x : Bool) (base rank : Word) (s : State) : Reply :=
  if base.toNat ≥ s.build.nwords then .raise .bounds
  else if rank.toNat = 0 then .raise .rank
  else
    match kth s.mem s.bits (64 * base.toNat) rank.toNat x with
    | none => .raise .rank
    | some q => .done (word q) s

/-- `SEL1 base, rank` (R144). -/
def execSel1 (base rank : Word) (s : State) : Host.Outcome State Fault Refusal :=
  runCommand 0x23#8 base s (selectRule true base rank s)

/-- `SEL0 base, rank` (R145). -/
def execSel0 (base rank : Word) (s : State) : Host.Outcome State Fault Refusal :=
  runCommand 0x24#8 base s (selectRule false base rank s)

/-- The rule `PRED1` and `PRED0` share (R146, R148): the largest position at or below `p`, in `maxWords` words, whose
bit is `x`. -/
def predecessorRule (x : Bool) (p maxWords : Word) (s : State) : Reply :=
  if p.toNat ≥ s.bits then .raise .bounds
  else if maxWords.toNat > p.toNat / 64 + 1 then .raise .bounds
  else if maxWords.toNat = 0 then .done notFound s
  else
    let lo := 64 * (p.toNat / 64 + 1 - maxWords.toNat)
    .done (positionOrNotFound (greatestFrom (fun q => bitAt s.mem q == x) lo (p.toNat + 1 - lo))) s

/-- The rule `SUCC1` and `SUCC0` share (R147, R149): the smallest position at or above `p`, in `maxWords` words, whose
bit is `x`. -/
def successorRule (x : Bool) (p maxWords : Word) (s : State) : Reply :=
  if p.toNat ≥ s.bits then .raise .bounds
  else if p.toNat / 64 + maxWords.toNat > s.build.nwords then .raise .bounds
  else
    let hi := 64 * (p.toNat / 64 + maxWords.toNat)
    .done (positionOrNotFound (leastFrom (fun q => bitAt s.mem q == x) p.toNat (hi - p.toNat))) s

/-- `PRED1 p, max_words` (R146). -/
def execPred1 (p maxWords : Word) (s : State) : Host.Outcome State Fault Refusal :=
  runCommand 0x25#8 p s (predecessorRule true p maxWords s)

/-- `SUCC1 p, max_words` (R147). -/
def execSucc1 (p maxWords : Word) (s : State) : Host.Outcome State Fault Refusal :=
  runCommand 0x26#8 p s (successorRule true p maxWords s)

/-- `PRED0 p, max_words` (R148). -/
def execPred0 (p maxWords : Word) (s : State) : Host.Outcome State Fault Refusal :=
  runCommand 0x27#8 p s (predecessorRule false p maxWords s)

/-- `SUCC0 p, max_words` (R149). -/
def execSucc0 (p maxWords : Word) (s : State) : Host.Outcome State Fault Refusal :=
  runCommand 0x28#8 p s (successorRule false p maxWords s)

/-- `MOVBITS src_p, dst_p, len` (R150). -/
def execMovbits (src dst len : Word) (s : State) : Host.Outcome State Fault Refusal :=
  runCommand 0x29#8 src s <|
    if !s.holdsRegion src.toNat len.toNat || !s.holdsRegion dst.toNat len.toNat then .raise .bounds
    else .done 0#64 { s with mem := moveBits s.mem src.toNat dst.toNat len.toNat }

/-- `CPYBITS src_p, dst_p, len` (R151): a forward overlap faults (92_eei_decisions.md D19). -/
def execCpybits (src dst len : Word) (s : State) : Host.Outcome State Fault Refusal :=
  runCommand 0x2A#8 src s <|
    if !s.holdsRegion src.toNat len.toNat || !s.holdsRegion dst.toNat len.toNat then .raise .bounds
    else if len.toNat > 0 && src.toNat < dst.toNat && dst.toNat < src.toNat + len.toNat then .raise .overlap
    else .done 0#64 { s with mem := moveBits s.mem src.toNat dst.toNat len.toNat }

end Sys2Proof.Machine
end

