-- ==== Sys2Proof/Machine/PackedInt.lean ====
section
/-! DEFINITION. The width-packed integer commands (42_packed_int.md R170 to R183). -/

namespace Sys2Proof.Machine

/-- `w`, the element width PKW (10_state.md R31). -/
def State.pwidth (s : State) : Nat := s.pkw.toNat

/-- `epos(i) = 64 * PKBASE + i * PKW` (42_packed_int.md R170). -/
def State.epos (s : State) (i : Nat) : Nat := 64 * s.pkbase.toNat + i * s.pwidth

/-- The first `n` elements of width `w` lie in `M`, and PKW is in 1..64: so whenever the registers are as 10_state.md
R31 says. A packed-integer command that would reach further stops the model (log entry 9). -/
def State.packs (s : State) (n w : Nat) : Bool :=
  (1 ≤ s.pwidth && s.pwidth ≤ maxWidth) && 64 * s.pkbase.toNat + n * w ≤ s.bits

/-- Reading element `i` (R172, R181). -/
def elementRead (i : Nat) (s : State) : Reply :=
  if i ≥ s.pksize.toNat then .raise .index
  else if !s.packs (i + 1) s.pwidth then .stop .packedVectorOutsideMemory
  else .done (bitRead s.mem (s.epos i) s.pwidth) s

/-- Writing element `i` (R173, R182). -/
def elementWrite (i : Nat) (val : Word) (s : State) : Reply :=
  if i ≥ s.pksize.toNat then .raise .index
  else if !fits val s.pwidth then .raise .value
  else if !s.packs (i + 1) s.pwidth then .stop .packedVectorOutsideMemory
  else .done 0#64 { s with mem := bitWrite s.mem (s.epos i) s.pwidth val }

/-- `PK.CFG base, w, cap` (R171). -/
def execPkCfg (base w cap : Word) (s : State) : Host.Outcome State Fault Refusal :=
  runCommand 0x40#8 base s <|
    let words := ceilDiv (cap.toNat * w.toNat) 64
    if !elementWidth w then .raise .width
    else if !s.holdsWords base.toNat words then .raise .bounds
    else
      .done (word (64 * words / w.toNat))
        { s with
          pkbase := base, pkw := w.setWidth 7, pkwords := word words
          pkcap := word (64 * words / w.toNat), pksize := 0#64, pkidx := 0#64 }

/-- `PK.RD i` (R172). -/
def execPkRd (i : Word) (s : State) : Host.Outcome State Fault Refusal :=
  runCommand 0x41#8 i s (elementRead i.toNat s)

/-- `PK.WR i, val` (R173). -/
def execPkWr (i val : Word) (s : State) : Host.Outcome State Fault Refusal :=
  runCommand 0x42#8 i s (elementWrite i.toNat val s)

/-- `PK.APPEND val` (R174). -/
def execPkAppend (val : Word) (s : State) : Host.Outcome State Fault Refusal :=
  runCommand 0x43#8 val s <|
    if s.pksize.toNat ≥ s.pkcap.toNat then .raise .capacity
    else if !fits val s.pwidth then .raise .value
    else if !s.packs (s.pksize.toNat + 1) s.pwidth then .stop .packedVectorOutsideMemory
    else
      .done s.pksize
        { s with
          mem := bitWrite s.mem (s.epos s.pksize.toNat) s.pwidth val
          pksize := word (s.pksize.toNat + 1) }

/-- `PK.RESIZE n` (R175): a refusal is the result 0, not a fault. -/
def execPkResize (n : Word) (s : State) : Host.Outcome State Fault Refusal :=
  runCommand 0x44#8 n s <|
    if n.toNat ≤ s.pkcap.toNat then .done 1#64 { s with pksize := n } else .done 0#64 s

/-- `PK.CLEAR` (R176). -/
def execPkClear (a : Word) (s : State) : Host.Outcome State Fault Refusal :=
  runCommand 0x45#8 a s (.done 0#64 { s with pksize := 0#64 })

/-- The widening loop of `PK.CONVERT`, from element `n - 1` down to 0 (R178): "iterate high-to-low index (so source
values are read before being overwritten)". -/
def widen (b0 w w2 : Nat) : (n : Nat) → Memory 64 → Memory 64
  | 0, m => m
  | n + 1, m => widen b0 w w2 n (bitWrite m (b0 + n * w2) w2 (bitRead m (b0 + n * w) w))

/-- The narrowing loop of `PK.CONVERT`, from element 0 up to `n - 1` (R178): "iterate low-to-high and mask each value
to w' bits". -/
def narrow (b0 w w2 : Nat) : (n : Nat) → Memory 64 → Memory 64
  | 0, m => m
  | n + 1, m =>
    let before := narrow b0 w w2 n m
    bitWrite before (b0 + n * w2) w2 (bitRead before (b0 + n * w) w &&& mask w2)

/-- `M` after `PK.CONVERT` of the first `n` elements at `b0` from width `w` to width `w2` (R178). -/
def convertElements (m : Memory 64) (b0 n w w2 : Nat) : Memory 64 :=
  if w2 > w then widen b0 w w2 n m else if w2 < w then narrow b0 w w2 n m else m

/-- `PK.CONVERT w2` (R178). -/
def execPkConvert (w : Word) (s : State) : Host.Outcome State Fault Refusal :=
  runCommand 0x46#8 w s <|
    if !elementWidth w then .raise .width
    else if ceilDiv (s.pksize.toNat * w.toNat) 64 > s.pkwords.toNat then .raise .capacity
    else if !s.packs s.pksize.toNat (max s.pwidth w.toNat) then .stop .packedVectorOutsideMemory
    else
      .done (word (64 * s.pkwords.toNat / w.toNat))
        { s with
          mem := convertElements s.mem (64 * s.pkbase.toNat) s.pksize.toNat s.pwidth w.toNat
          pkw := w.setWidth 7, pkcap := word (64 * s.pkwords.toNat / w.toNat) }

/-- `PK.SEEK i` (R179). -/
def execPkSeek (i : Word) (s : State) : Host.Outcome State Fault Refusal :=
  runCommand 0x47#8 i s (.done 0#64 { s with pkidx := i })

/-- `PK.ADV d` (R180): modulo 2^64. -/
def execPkAdv (d : Word) (s : State) : Host.Outcome State Fault Refusal :=
  runCommand 0x48#8 d s (.done (s.pkidx + d) { s with pkidx := s.pkidx + d })

/-- `PK.ITRD` (R181). -/
def execPkItrd (a : Word) (s : State) : Host.Outcome State Fault Refusal :=
  runCommand 0x49#8 a s (elementRead s.pkidx.toNat s)

/-- `PK.ITWR val` (R182). -/
def execPkItwr (val : Word) (s : State) : Host.Outcome State Fault Refusal :=
  runCommand 0x4A#8 val s (elementWrite s.pkidx.toNat val s)

/-- `PK.REBASE base` (R183). -/
def execPkRebase (base : Word) (s : State) : Host.Outcome State Fault Refusal :=
  runCommand 0x4B#8 base s <|
    if !s.holdsWords base.toNat s.pkwords.toNat then .raise .bounds
    else .done 0#64 { s with pkbase := base }

/-- `PK.CAP c` (R177). -/
def execPkCap (cap : Word) (s : State) : Host.Outcome State Fault Refusal :=
  runCommand 0x4C#8 cap s <|
    let words := ceilDiv (max s.pksize.toNat cap.toNat * s.pwidth) 64
    if !s.packs 0 0 then .stop .packedVectorOutsideMemory
    else if !s.holdsWords s.pkbase.toNat words then .raise .bounds
    else
      .done (word (64 * words / s.pwidth))
        { s with pkwords := word words, pkcap := word (64 * words / s.pwidth) }

end Sys2Proof.Machine
end

