-- ==== Sys2Proof/Machine/RankOps.lean ====
section
/-! DEFINITION. The structure of the rank vector (43_rank_select.md R200 to R207): geometry, the summary invariant
INV, the rank and select formulas. Positions here are positions of the vector. -/

namespace Sys2Proof.Machine

/-- `n`, the size of the vector (R200). -/
def State.vsize (s : State) : Nat := s.rvsize.toNat

/-- `b0 = 64 * RVBASE` (R200). -/
def State.vbegin (s : State) : Nat := 64 * s.rvbase.toNat

/-- `vbit(i) = bit(b0 + i)` (10_state.md R30, R200). -/
def State.vbit (s : State) (i : Nat) : Bool := bitAt s.mem (s.vbegin + i)

/-- The number of 1-bits at the positions `[a, b)` of the vector. -/
def State.vones (s : State) (a b : Nat) : Nat := ones s.mem (s.vbegin + a) (s.vbegin + b)

/-- `stored(m)`: middle-block `m` is not the final one of its top-block (R201; 90_conflicts.md C4). -/
def isStored (b : Build) (m : Nat) : Bool := m % b.perTop != b.perTop - 1

/-- `midaddr(m) = m - (m div R)` (10_state.md R28, R201). -/
def midaddr (b : Build) (m : Nat) : Nat := m - m / b.perTop

/-- The entry of `MID` of a stored middle-block. -/
def State.midOf (s : State) (m : Nat) : Nat := (s.mid.read (midaddr s.build m)).toNat

/-- The entry of `TOP` of a top-block. -/
def State.topOf (s : State) (t : Nat) : Nat := (s.top.read t).toNat

/-- `NT(n)`, the top-blocks in use (R201). -/
def State.topsInUse (s : State) : Nat := ceilDiv s.vsize s.build.bt

/-- `NM(n)`, the middle-blocks in use (R201). -/
def State.midsInUse (s : State) : Nat := ceilDiv s.vsize s.build.bm

/-- The part of INV about `TOP[t]` (R204). -/
def State.topHolds (s : State) (t : Nat) : Bool :=
  s.topOf t == s.vones 0 (min ((t + 1) * s.build.bt) s.vsize)

/-- The part of INV about the entry of middle-block `m` (R204). -/
def State.midHolds (s : State) (m : Nat) : Bool :=
  !isStored s.build m ||
    s.midOf m == s.vones (m / s.build.perTop * s.build.bt) (min ((m + 1) * s.build.bm) s.vsize)

/-- INV, the summary invariant (43_rank_select.md R204). -/
def State.summariesHold (s : State) : Bool :=
  (List.range s.topsInUse).all s.topHolds && (List.range s.midsInUse).all s.midHolds

/-- The first `n` positions of the vector lie in `M` and their summary entries exist: so whenever the registers are as
10_state.md R30 says. A rank-vector command that would reach further stops the model (log entry 9). -/
def State.reaches (s : State) (n : Nat) : Bool := s.vbegin + n ≤ s.bits && n ≤ s.build.rvmax

/-- `rank1f(p)` (R205). -/
def State.rank1f (s : State) (p : Nat) : Nat :=
  let t := p / s.build.bt
  let m := p / s.build.bm
  (if t > 0 then s.topOf (t - 1) else 0) +
    (if m % s.build.perTop ≠ 0 then s.midOf (m - 1) else 0) +
    ones s.mem (s.vbegin + m * s.build.bm) (s.vbegin + p + 1)

/-- `numOnes` (R206). -/
def State.numOnes (s : State) : Nat :=
  if s.vsize = 0 then 0 else s.topOf ((s.vsize - 1) / s.build.bt)

/-- `numZeros = n - numOnes` (R206). -/
def State.numZeros (s : State) : Nat := s.vsize - s.numOnes

/-- The number of bits of value `x` in the vector, by its summaries (R206). -/
def State.population (s : State) (x : Bool) : Nat := if x then s.numOnes else s.numZeros

/-- `CT(t)`, the cumulative count of x-bits by top-block (R207). -/
def State.cumTop (s : State) (x : Bool) (t : Nat) : Nat :=
  if x then s.topOf t else (t + 1) * s.build.bt - s.topOf t

/-- `CM(j, m0)`, the cumulative count of x-bits by middle-block inside its top-block (R207). -/
def State.cumMid (s : State) (x : Bool) (m0 j : Nat) : Nat :=
  if x then s.midOf j else (j - m0 + 1) * s.build.bm - s.midOf j

/-- `rvsel(k, x)` (R207). -/
def State.rvsel (s : State) (k : Nat) (x : Bool) : Option Nat :=
  match leastFrom (fun t => decide (s.cumTop x t ≥ k)) 0 s.topsInUse with
  | none => none
  | some t =>
    let k1 := k - (if t > 0 then s.cumTop x (t - 1) else 0)
    let m0 := t * s.build.perTop
    match leastFrom (fun j => !isStored s.build j || decide (s.cumMid x m0 j ≥ k1)) m0 s.build.perTop with
    | none => none
    | some j =>
      let k2 := k1 - (if j > m0 then s.cumMid x m0 (j - 1) else 0)
      (kth s.mem s.bits (s.vbegin + j * s.build.bm) k2 x).map (· - s.vbegin)

/-- The largest position `≤ v` of the vector whose bit is `x` (R216, R218). -/
def State.rvPredecessor (s : State) (x : Bool) (v : Nat) : Option Nat :=
  greatestFrom (fun q => s.vbit q == x) 0 (v + 1)

/-- The smallest position `≥ v` and below the size whose bit is `x` (R217, R219). -/
def State.rvSuccessor (s : State) (x : Bool) (v : Nat) : Option Nat :=
  leastFrom (fun q => s.vbit q == x) v (s.vsize - v)

/-- How many x-bits lie at or below `v`, from the summaries: `rank1f(v)`, or `v + 1 - rank1f(v)` (R216, R218). -/
def State.rankOf (s : State) (x : Bool) (v : Nat) : Nat := if x then s.rank1f v else v + 1 - s.rank1f v

/-- The source's way to a predecessor, "which a model may ignore" (R216, R218): scan the word holding `v`, at and
below it, and the word below, if there is one; on a miss a rank, then a select. -/
def State.predecessorByRank (s : State) (x : Bool) (v : Nat) : Option Nat :=
  let lo := 64 * (v / 64 - 1)
  match greatestFrom (fun q => s.vbit q == x) lo (v + 1 - lo) with
  | some q => some q
  | none => if s.rankOf x v = 0 then none else s.rvsel (s.rankOf x v) x

/-- The source's way to a successor (R217, R219): scan the word holding `v`, at and above it, and the word above,
below the size only; on a miss a rank, then a select. -/
def State.successorByRank (s : State) (x : Bool) (v : Nat) : Option Nat :=
  match leastFrom (fun q => s.vbit q == x) v (min (64 * (v / 64 + 2)) s.vsize - v) with
  | some q => some q
  | none => if s.rankOf x v = s.population x then none else s.rvsel (s.rankOf x v + 1) x

end Sys2Proof.Machine
end

