-- ==== Sys2Proof/Machine/RankVector.lean ====
section
/-! DEFINITION. The rank-vector commands (43_rank_select.md R210 to R225). While the summary invariant INV does not
hold, the results of R212 to R219, R222, R223 and the entries written by R211 and R221 are unspecified (R204): free
values of Config, indexed by `tick` (log entry 5). -/

namespace Sys2Proof.Machine

/-- A query whose result rests on the summaries: `r` while INV holds, a free value otherwise (R204, R320). -/
def summaryQuery (r : Word) (s : State) : Reply :=
  if !s.reaches s.vsize then .stop .rankVectorOutsideMemory
  else if s.summariesHold then .done r s
  else .done (Config.freeResult s.tick) s

/-- A query of a position below the size: INDEX otherwise (60_exceptions.md R281; 92_eei_decisions.md D23). -/
def positionQuery (p : Nat) (r : Word) (s : State) : Reply :=
  if p ≥ s.vsize then .raise .index else summaryQuery r s

/-- The rule of `RV.SEL1` and `RV.SEL0` (R214, R215). Rank 0 faults whatever the summaries hold; while INV does not
hold, so does the comparison with a population read from `TOP`: whether another rank faults is free, as the result is
(R204; 93_implementation_defined.md S2). -/
def rvSelectRule (x : Bool) (k : Nat) (s : State) : Reply :=
  if k = 0 then .raise .rank
  else if !s.reaches s.vsize then .stop .rankVectorOutsideMemory
  else if s.summariesHold then
    if k > s.population x then .raise .rank
    else
      match s.rvsel k x with
      | some q => .done (word q) s
      | none => .stop .selectFoundNothing
  else if Config.freeRankFault s.tick then .raise .rank
  else .done (Config.freeResult s.tick) s

/-- `RV.INIT base, cap` (R210). -/
def execRvInit (base cap : Word) (s : State) : Host.Outcome State Fault Refusal :=
  runCommand 0x30#8 base s <|
    let capr := 64 * ceilDiv cap.toNat 64
    if capr > s.build.rvmax then .raise .capacity
    else if !s.holdsWords base.toNat (capr / 64) then .raise .bounds
    else .done (word capr) { s with rvbase := base, rvcap := word capr, rvsize := 0#64 }

/-- The entries `RV.APPEND` leaves in `TOP` (R211): (i) at the start of a top-block the running count is copied, 0 for
the first; then `b` is added. -/
def appendTop (s : State) (b : Nat) : Memory 64 :=
  let p := s.vsize
  let t := p / s.build.bt
  let opened := if p % s.build.bt = 0 then s.top.write t (if t > 0 then s.top.read (t - 1) else 0#64) else s.top
  opened.write t (word ((opened.read t).toNat + b))

/-- The entries `RV.APPEND` leaves in `MID` (R211): (ii) at the start of a stored middle-block the count before it in
its top-block, 0 for the first; then `b` is added; the final middle-block has no entry. -/
def appendMid (s : State) (b : Nat) : Memory 16 :=
  let p := s.vsize
  let m := p / s.build.bm
  let a := midaddr s.build m
  if isStored s.build m then
    let opened :=
      if p % s.build.bm = 0 then
        s.mid.write a (if p % s.build.bt = 0 then 0#16 else s.mid.read (midaddr s.build (m - 1)))
      else s.mid
    opened.write a (BitVec.ofNat 16 ((opened.read a).toNat + b))
  else s.mid

/-- The summaries after `RV.APPEND` while INV does not hold: the same entries written, with free values (R204). -/
def freeSummaries (s : State) (p : Nat) : State :=
  let m := p / s.build.bm
  { s with
    top := s.top.write (p / s.build.bt) (Config.freeTop s.tick)
    mid := if isStored s.build m then s.mid.write (midaddr s.build m) (Config.freeMid s.tick) else s.mid }

/-- `RV.APPEND b` (R211). -/
def execRvAppend (bit : Word) (s : State) : Host.Outcome State Fault Refusal :=
  runCommand 0x31#8 bit s <|
    if s.rvsize.toNat ≥ s.rvcap.toNat then .raise .capacity
    else if bit.toNat > 1 then .raise .value
    else if !s.reaches (s.vsize + 1) then .stop .rankVectorOutsideMemory
    else
      let summed :=
        if s.summariesHold then { s with top := appendTop s bit.toNat, mid := appendMid s bit.toNat }
        else freeSummaries s s.vsize
      .done s.rvsize
        { summed with
          mem := bitWrite s.mem (s.vbegin + s.vsize) 1 bit
          rvsize := word (s.vsize + 1) }

/-- `RV.RANK1 p` (R212). -/
def execRvRank1 (p : Word) (s : State) : Host.Outcome State Fault Refusal :=
  runCommand 0x32#8 p s (positionQuery p.toNat (word (s.rank1f p.toNat)) s)

/-- `RV.RANK0 p` (R213). -/
def execRvRank0 (p : Word) (s : State) : Host.Outcome State Fault Refusal :=
  runCommand 0x33#8 p s (positionQuery p.toNat (word (p.toNat + 1 - s.rank1f p.toNat)) s)

/-- `RV.SEL1 k` (R214). -/
def execRvSel1 (k : Word) (s : State) : Host.Outcome State Fault Refusal :=
  runCommand 0x34#8 k s (rvSelectRule true k.toNat s)

/-- `RV.SEL0 k` (R215). -/
def execRvSel0 (k : Word) (s : State) : Host.Outcome State Fault Refusal :=
  runCommand 0x35#8 k s (rvSelectRule false k.toNat s)

/-- `RV.PRED1 v` (R216). -/
def execRvPred1 (v : Word) (s : State) : Host.Outcome State Fault Refusal :=
  runCommand 0x36#8 v s (positionQuery v.toNat (positionOrNotFound (s.rvPredecessor true v.toNat)) s)

/-- `RV.SUCC1 v` (R217). -/
def execRvSucc1 (v : Word) (s : State) : Host.Outcome State Fault Refusal :=
  runCommand 0x37#8 v s (positionQuery v.toNat (positionOrNotFound (s.rvSuccessor true v.toNat)) s)

/-- `RV.PRED0 v` (R218). -/
def execRvPred0 (v : Word) (s : State) : Host.Outcome State Fault Refusal :=
  runCommand 0x38#8 v s (positionQuery v.toNat (positionOrNotFound (s.rvPredecessor false v.toNat)) s)

/-- `RV.SUCC0 v` (R219). -/
def execRvSucc0 (v : Word) (s : State) : Host.Outcome State Fault Refusal :=
  runCommand 0x39#8 v s (positionQuery v.toNat (positionOrNotFound (s.rvSuccessor false v.toNat)) s)

/-- The summaries after `RV.SHORTEN` to a size whose last position is `q`, while INV holds (R221): "evaluated before
any write". -/
def shortenSummaries (s : State) (q : Nat) : State :=
  let t := q / s.build.bt
  let m := q / s.build.bm
  let r := s.rank1f q
  { s with
    top := s.top.write t (word r)
    mid :=
      if isStored s.build m then
        s.mid.write (midaddr s.build m) (BitVec.ofNat 16 (r - (if t > 0 then s.topOf (t - 1) else 0)))
      else s.mid }

/-- `RV.SHORTEN n2` (R221). -/
def execRvShorten (n : Word) (s : State) : Host.Outcome State Fault Refusal :=
  runCommand 0x3A#8 n s <|
    if n.toNat > s.vsize then .raise .index
    else if n.toNat = 0 then .done n { s with rvsize := n }
    else if !s.reaches s.vsize then .stop .rankVectorOutsideMemory
    else
      let summed := if s.summariesHold then shortenSummaries s (n.toNat - 1) else freeSummaries s (n.toNat - 1)
      .done n { summed with rvsize := n }

/-- `RV.NONES` (R222). -/
def execRvNones (a : Word) (s : State) : Host.Outcome State Fault Refusal :=
  runCommand 0x3B#8 a s (summaryQuery (word s.numOnes) s)

/-- `RV.NZEROS` (R223). -/
def execRvNzeros (a : Word) (s : State) : Host.Outcome State Fault Refusal :=
  runCommand 0x3C#8 a s (summaryQuery (word s.numZeros) s)

/-- `RV.CAP c` (R224). -/
def execRvCap (cap : Word) (s : State) : Host.Outcome State Fault Refusal :=
  runCommand 0x3D#8 cap s <|
    let nc := 64 * ceilDiv (max s.vsize cap.toNat) 64
    if nc > s.build.rvmax then .raise .capacity
    else if !s.holdsWords s.rvbase.toNat (nc / 64) then .raise .bounds
    else .done (word nc) { s with rvcap := word nc }

/-- `RV.REBASE base` (R225). -/
def execRvRebase (base : Word) (s : State) : Host.Outcome State Fault Refusal :=
  runCommand 0x3E#8 base s <|
    if !s.holdsWords base.toNat (s.rvcap.toNat / 64) then .raise .bounds
    else .done 0#64 { s with rvbase := base }

/-- `RV.BIT p` (R220): it does not use the summaries. -/
def execRvBit (p : Word) (s : State) : Host.Outcome State Fault Refusal :=
  runCommand 0x3F#8 p s <|
    if p.toNat ≥ s.vsize then .raise .index
    else if !s.reaches s.vsize then .stop .rankVectorOutsideMemory
    else .done (word (s.vbit p.toNat).toNat) s

end Sys2Proof.Machine
end

