-- ==== Sys2Proof/Machine/System.lean ====
section
/-! DEFINITION. The system command `CSRR` (44_system.md R240). It is the only one (R241). -/

namespace Sys2Proof.Machine

/-- `CSRR num` (44_system.md R240): "the one command that executes while the engine is locked", when `num` names a
register (60_exceptions.md R286); otherwise CSRNUM, or LOCKED from a locked engine. -/
def execCsrr (num : Word) (s : State) : Host.Outcome State Fault Refusal :=
  match csrOf num.toNat with
  | some r => .next (s.respond statusOk (s.csr r))
  | none => runCommand 0x01#8 num s (.raise .csrnum)

end Sys2Proof.Machine
end

