-- ==== Sys2Proof/Machine/WordPrimitives.lean ====
section
/-! DEFINITION. The word primitives POPC, BSIZE, CLZ, CTZ (40_word_primitives.md R130 to R133): "pure functions of
operand A", no memory, no register, no fault of their own. -/

namespace Sys2Proof.Machine

/-- `POPC x` (40_word_primitives.md R130). -/
def execPopc (x : Word) (s : State) : Host.Outcome State Fault Refusal :=
  runCommand 0x10#8 x s (.done (word (popcount x)) s)

/-- `BSIZE v` (R131). -/
def execBsize (v : Word) (s : State) : Host.Outcome State Fault Refusal :=
  runCommand 0x11#8 v s (.done (word (bitSize v)) s)

/-- `CLZ x` (R132). -/
def execClz (x : Word) (s : State) : Host.Outcome State Fault Refusal :=
  runCommand 0x12#8 x s (.done (word (leadingZeros x)) s)

/-- `CTZ x` (R133). -/
def execCtz (x : Word) (s : State) : Host.Outcome State Fault Refusal :=
  runCommand 0x13#8 x s (.done (word (trailingZeros x)) s)

end Sys2Proof.Machine
end

