-- ==== Sys2Proof/Machine/Dispatch.lean ====
section
/-! DEFINITION. One arm per command: its meaning. -/

namespace Sys2Proof.Machine

def exec (i : Instr) (s : State) : Host.Outcome State Fault Refusal :=
  match i with
  | .csrr num _ _ => Sys2Proof.Machine.execCsrr num s
  | .popc x _ _ => Sys2Proof.Machine.execPopc x s
  | .bsize v _ _ => Sys2Proof.Machine.execBsize v s
  | .clz x _ _ => Sys2Proof.Machine.execClz x s
  | .ctz x _ _ => Sys2Proof.Machine.execCtz x s
  | .rdbits p w _ => Sys2Proof.Machine.execRdbits p w s
  | .wrbits p w val => Sys2Proof.Machine.execWrbits p w val s
  | .cnt1 base last _ => Sys2Proof.Machine.execCnt1 base last s
  | .sel1 base rank _ => Sys2Proof.Machine.execSel1 base rank s
  | .sel0 base rank _ => Sys2Proof.Machine.execSel0 base rank s
  | .pred1 p maxWords _ => Sys2Proof.Machine.execPred1 p maxWords s
  | .succ1 p maxWords _ => Sys2Proof.Machine.execSucc1 p maxWords s
  | .pred0 p maxWords _ => Sys2Proof.Machine.execPred0 p maxWords s
  | .succ0 p maxWords _ => Sys2Proof.Machine.execSucc0 p maxWords s
  | .movbits src dst len => Sys2Proof.Machine.execMovbits src dst len s
  | .cpybits src dst len => Sys2Proof.Machine.execCpybits src dst len s
  | .rvInit base cap _ => Sys2Proof.Machine.execRvInit base cap s
  | .rvAppend bit _ _ => Sys2Proof.Machine.execRvAppend bit s
  | .rvRank1 p _ _ => Sys2Proof.Machine.execRvRank1 p s
  | .rvRank0 p _ _ => Sys2Proof.Machine.execRvRank0 p s
  | .rvSel1 k _ _ => Sys2Proof.Machine.execRvSel1 k s
  | .rvSel0 k _ _ => Sys2Proof.Machine.execRvSel0 k s
  | .rvPred1 v _ _ => Sys2Proof.Machine.execRvPred1 v s
  | .rvSucc1 v _ _ => Sys2Proof.Machine.execRvSucc1 v s
  | .rvPred0 v _ _ => Sys2Proof.Machine.execRvPred0 v s
  | .rvSucc0 v _ _ => Sys2Proof.Machine.execRvSucc0 v s
  | .rvShorten n _ _ => Sys2Proof.Machine.execRvShorten n s
  | .rvNones a _ _ => Sys2Proof.Machine.execRvNones a s
  | .rvNzeros a _ _ => Sys2Proof.Machine.execRvNzeros a s
  | .rvCap cap _ _ => Sys2Proof.Machine.execRvCap cap s
  | .rvRebase base _ _ => Sys2Proof.Machine.execRvRebase base s
  | .rvBit p _ _ => Sys2Proof.Machine.execRvBit p s
  | .pkCfg base w cap => Sys2Proof.Machine.execPkCfg base w cap s
  | .pkRd idx _ _ => Sys2Proof.Machine.execPkRd idx s
  | .pkWr idx val _ => Sys2Proof.Machine.execPkWr idx val s
  | .pkAppend val _ _ => Sys2Proof.Machine.execPkAppend val s
  | .pkResize n _ _ => Sys2Proof.Machine.execPkResize n s
  | .pkClear a _ _ => Sys2Proof.Machine.execPkClear a s
  | .pkConvert w _ _ => Sys2Proof.Machine.execPkConvert w s
  | .pkSeek idx _ _ => Sys2Proof.Machine.execPkSeek idx s
  | .pkAdv d _ _ => Sys2Proof.Machine.execPkAdv d s
  | .pkItrd a _ _ => Sys2Proof.Machine.execPkItrd a s
  | .pkItwr val _ _ => Sys2Proof.Machine.execPkItwr val s
  | .pkRebase base _ _ => Sys2Proof.Machine.execPkRebase base s
  | .pkCap cap _ _ => Sys2Proof.Machine.execPkCap cap s

end Sys2Proof.Machine
end

