-- ==== Sys2Proof/Machine/Step.lean ====
section
/-! DEFINITION. One step: the engine takes the next host input and answers it (00_scope.md R11, R12). -/

namespace Sys2Proof.Machine

/-- The answer to a request packet that is no command: LOCKED from a locked engine (60_exceptions.md R286), otherwise
the fault ILLEGAL, its command word in FCW and its bits 95:32 in FINFO (R282). -/
def illegalPacket (p : BitVec 224) (s : State) : Host.Outcome State Fault Refusal :=
  if s.faulted then .next (s.respond statusLocked 0#64)
  else .next (s.takeFault .illegal (commandWord p) (fieldA p))

/-- The answer to a request packet. -/
def answerRequest (p : BitVec 224) (s : State) : Host.Outcome State Fault Refusal :=
  match decode p with
  | .command i => exec i s
  | .illegal _ => illegalPacket p s

/-- One step. With nothing at the port "the engine holds its state and does nothing" (60_exceptions.md R289). -/
def step (s : State) : Host.Outcome State Fault Refusal :=
  match s.port with
  | [] => .next s
  | .request p :: rest => answerRequest p { s with port := rest, tick := s.tick + 1 }
  | .reset mem top mid :: rest => .next (State.takeReset { s with port := rest } mem top mid)

/-- `s` with the packet whose low `nbits` bits are those of `w`, and whose other bits are zero, as the next host input
(log entry 3). -/
def State.withFetchWord (s : State) (nbits w : Nat) : State :=
  { s with port := .request (BitVec.ofNat 224 (w % 2 ^ nbits)) :: s.port }

end Sys2Proof.Machine
end

