-- ==== Sys2Proof/Machine/Assembler.lean ====
section
/-! DEFINITION. The assembler (30_encoding.md R108, R109): operand expressions, ignored operands, pseudo-instructions,
`.rept`, and the reading of a program text. No rule of the engine uses it. What R108 leaves open of the text is in log
entry 12. -/

namespace Sys2Proof.Machine

/-! ### Operands -/

/-- An operand expression (R108): a literal, a register name, `-n`, or `+ - * /` of two of them. -/
inductive AsmExpr where
  | lit (n : Nat)
  | register (r : Csr)
  | neg (e : AsmExpr)
  | add (x y : AsmExpr)
  | sub (x y : AsmExpr)
  | mul (x y : AsmExpr)
  | div (x y : AsmExpr)
  deriving DecidableEq, Repr

/-- The value of an expression; a literal lies "below 2^64", `-n` stands for `2^64 - n` (R108). None for a division by
zero, and for a register name, which is no literal. The values between are integers and a quotient is rounded down:
DESIGN CHOICE (log entry 12). -/
def AsmExpr.value : AsmExpr → Option Int
  | .lit n => if n < 2 ^ 64 then some n else none
  | .register _ => none
  | .neg e => e.value.map fun v => 2 ^ 64 - v
  | .add x y => x.value.bind fun a => y.value.map fun b => a + b
  | .sub x y => x.value.bind fun a => y.value.map fun b => a - b
  | .mul x y => x.value.bind fun a => y.value.map fun b => a * b
  | .div x y => x.value.bind fun a => y.value.bind fun b => if b = 0 then none else some (a.fdiv b)

/-- An operand: "a value in [0, 2^64)", or, of `CSRR` only, a register's name for its number (R108). -/
def AsmExpr.operand (names : Bool) (e : AsmExpr) : Option Word :=
  match e with
  | .register r => if names then some (word (Csr.number r)) else none
  | _ => e.value.bind fun v => if 0 ≤ v ∧ v < 2 ^ 64 then some (word v.toNat) else none

/-! ### Commands and pseudo-instructions -/

/-- How many operands a format uses (30_encoding.md R102). -/
def Format.operands : Format → Nat
  | .f0 => 0
  | .f1 => 1
  | .f2 => 2
  | .f3 => 3

/-- A command by its mnemonic "with as many operands as the format uses, in the order A, B, C"; the ignored ones are
zero (R108). -/
def assembleCommand (mnemonic : String) (ops : List Word) : Option Instr :=
  (opcodeTable.find? fun r => r.mnemonic == mnemonic).bind fun r =>
    let i := r.make (ops.getD 0 0#64) (ops.getD 1 0#64) (ops.getD 2 0#64)
    if ops.length = Format.operands i.format then some i else none

/-- The pseudo-instructions (30_encoding.md R109). -/
inductive Pseudo where
  | ldw (a : Word)
  | stw (a v : Word)
  | rdbit (p : Word)
  | wrbit (p b : Word)
  | rvSize
  | rvCapq
  | rvFit
  | pkSize
  | pkCapq
  | pkInc
  | pkDec
  deriving DecidableEq, Repr

/-- What a pseudo-instruction with the numbers of its operands expands to (R109; log entry 12); none where the assembler's product `64*a` needs more than 64 bits. -/
def Pseudo.expand : Pseudo → Option Instr
  | .ldw a => if a.toNat < 2 ^ 58 then some (.rdbits (word (64 * a.toNat)) 64#64 0#64) else none
  | .stw a v => if a.toNat < 2 ^ 58 then some (.wrbits (word (64 * a.toNat)) 64#64 v) else none
  | .rdbit p => some (.rdbits p 1#64 0#64)
  | .wrbit p b => some (.wrbits p 1#64 b)
  | .rvSize => some (.csrr 0x11#64 0#64 0#64)
  | .rvCapq => some (.csrr 0x12#64 0#64 0#64)
  | .rvFit => some (.rvCap 0#64 0#64 0#64)
  | .pkSize => some (.csrr 0x1A#64 0#64 0#64)
  | .pkCapq => some (.csrr 0x1B#64 0#64 0#64)
  | .pkInc => some (.pkAdv 1#64 0#64 0#64)
  | .pkDec => some (.pkAdv 0xFFFFFFFFFFFFFFFF#64 0#64 0#64)

/-- The pseudo-instruction of a name with its operands (R109); none for another name or another number of operands. -/
def pseudoOf (name : String) (ops : List Word) : Option Pseudo :=
  match ops with
  | [] =>
    if name = "RV.SIZE" then some .rvSize
    else if name = "RV.CAPQ" then some .rvCapq
    else if name = "RV.FIT" then some .rvFit
    else if name = "PK.SIZE" then some .pkSize
    else if name = "PK.CAPQ" then some .pkCapq
    else if name = "PK.INC" then some .pkInc
    else if name = "PK.DEC" then some .pkDec
    else none
  | [a] => if name = "LDW" then some (.ldw a) else if name = "RDBIT" then some (.rdbit a) else none
  | [a, v] => if name = "STW" then some (.stw a v) else if name = "WRBIT" then some (.wrbit a v) else none
  | _ => none

/-- One line: a mnemonic, of a command or a pseudo-instruction, with its operand expressions (R108, R109). -/
structure AsmLine where
  mnemonic : String
  operands : List AsmExpr
  deriving DecidableEq, Repr

/-- The command of a line: a pseudo-instruction is replaced "by the command on its right" (R109). Its operands are
evaluated first and the numbers stand for `a`, `v`, `p`, `b`: `LDW 1+1` reads word 2. Whether the text or the value of
a compound operand is put for `a` in `64*a` is left open. DESIGN CHOICE (log entry 12). -/
def AsmLine.assemble (l : AsmLine) : Option Instr :=
  (l.operands.mapM (AsmExpr.operand (l.mnemonic = "CSRR"))).bind fun ops =>
    match pseudoOf l.mnemonic ops with
    | some p => p.expand
    | none => assembleCommand l.mnemonic ops

/-! ### Reading the text -/

/-- The name of each register (10_state.md R25). -/
def Csr.name : Csr → String
  | .id => "ID"
  | .nwords => "NWORDS"
  | .bt => "BT"
  | .bm => "BM"
  | .rvmax => "RVMAX"
  | .status => "STATUS"
  | .fcause => "FCAUSE"
  | .fcw => "FCW"
  | .finfo => "FINFO"
  | .rvbase => "RVBASE"
  | .rvsize => "RVSIZE"
  | .rvcap => "RVCAP"
  | .pkbase => "PKBASE"
  | .pkw => "PKW"
  | .pksize => "PKSIZE"
  | .pkcap => "PKCAP"
  | .pkwords => "PKWORDS"
  | .pkidx => "PKIDX"

/-- A part of a line: a word of letters, digits and points, or one other character that is no space. -/
inductive Token where
  | word (letters : List Char)
  | symbol (c : Char)
  deriving DecidableEq, Repr

/-- A character of a word. -/
def wordChar (c : Char) : Bool := c.isAlphanum || c == '.'

/-- A character between words. -/
def spaceChar (c : Char) : Bool := c == ' ' || c == '\t' || c == '\r'

/-- The lines of a text. -/
def textLines (line : List Char) : List Char → List (List Char)
  | [] => [line]
  | c :: cs => if c == '\n' then line :: textLines [] cs else textLines (line ++ [c]) cs

/-- The part of a line before its comment and before `-> st R`, which "states the response" (R108). -/
def codeOf : List Char → List Char
  | [] => []
  | c :: cs => if c == ';' || (c == '-' && cs.head? == some '>') then [] else c :: codeOf cs

/-- The token of the letters gathered so far, if there are any. -/
def wordToken (letters : List Char) : List Token := if letters.isEmpty then [] else [.word letters]

/-- The tokens of a line. -/
def tokens (letters : List Char) : List Char → List Token
  | [] => wordToken letters
  | c :: cs =>
    if wordChar c then tokens (letters ++ [c]) cs
    else if spaceChar c then wordToken letters ++ tokens [] cs
    else wordToken letters ++ .symbol c :: tokens [] cs

/-- The value of a digit, hexadecimal or decimal, in the given base. -/
def digitValue (base : Nat) (c : Char) : Option Nat :=
  let n := c.toNat
  let v :=
    if 48 ≤ n && n ≤ 57 then n - 48
    else if 65 ≤ n && n ≤ 70 then n - 55
    else if 97 ≤ n && n ≤ 102 then n - 87
    else base
  if v < base then some v else none

/-- The number written by digits, the most significant first, after `acc`. -/
def digitsValue (base acc : Nat) : List Char → Option Nat
  | [] => some acc
  | c :: cs => (digitValue base c).bind fun v => digitsValue base (base * acc + v) cs

/-- A literal, "decimal or `0x` hexadecimal" (R108). -/
def literalOf (letters : List Char) : Option Nat :=
  match letters with
  | [] => none
  | '0' :: 'x' :: [] => none
  | '0' :: 'x' :: cs => digitsValue 16 0 cs
  | cs => digitsValue 10 0 cs

/-- An atom of an expression: a literal or a register name. -/
def atomOf (letters : List Char) : Option AsmExpr :=
  match literalOf letters with
  | some n => some (.lit n)
  | none => (csrs.find? fun r => (Csr.name r).toList == letters).map .register

/-- The operation of a symbol: `+ -` at level 0, `* /` at level 1. -/
def operationOf (level : Nat) (c : Char) : Option (AsmExpr → AsmExpr → AsmExpr) :=
  if level = 0 && c == '+' then some .add
  else if level = 0 && c == '-' then some .sub
  else if level = 1 && c == '*' then some .mul
  else if level = 1 && c == '/' then some .div
  else none

/-- Reads an expression of a level: 0 sums, 1 products, 2 atoms, parentheses and `-n`. `left` is what already stands
on the left at this level; operations of one level associate to the left (log entry 12). The first argument bounds the
depth of the reading; four for each token are enough. -/
def readExpr : Nat → Nat → Option AsmExpr → List Token → Option (AsmExpr × List Token)
  | 0, _, _, _ => none
  | fuel + 1, 2, _, ts =>
    match ts with
    | .word letters :: rest => (atomOf letters).map fun e => (e, rest)
    | .symbol '(' :: rest =>
      match readExpr fuel 0 none rest with
      | some (e, .symbol ')' :: rest') => some (e, rest')
      | _ => none
    | .symbol '-' :: rest => (readExpr fuel 2 none rest).map fun r => (.neg r.1, r.2)
    | _ => none
  | fuel + 1, level, none, ts =>
    (readExpr fuel (level + 1) none ts).bind fun r => readExpr fuel level (some r.1) r.2
  | fuel + 1, level, some left, ts =>
    match ts with
    | .symbol c :: rest =>
      match operationOf level c with
      | some f => (readExpr fuel (level + 1) none rest).bind fun r => readExpr fuel level (some (f left r.1)) r.2
      | none => some (left, ts)
    | _ => some (left, ts)

/-- Reads operands separated by commas to the end of the line. -/
def readOperands : Nat → List Token → Option (List AsmExpr)
  | 0, _ => none
  | fuel + 1, ts =>
    match readExpr (4 * ts.length + 4) 0 none ts with
    | some (e, []) => some [e]
    | some (e, .symbol ',' :: rest) => (readOperands fuel rest).map fun es => e :: es
    | _ => none

/-- What a line of text is. -/
inductive TextLine where
  | blank
  | command (l : AsmLine)
  | rept (n : Nat)
  | endr
  deriving DecidableEq, Repr

/-- Reads a line (R108); none when it has no such form. The count of `.rept` is one literal, of any size, and no
expression: R108 gives it no form. DESIGN CHOICE (log entry 12). -/
def readLine (line : List Char) : Option TextLine :=
  match tokens [] (codeOf line) with
  | [] => some .blank
  | .word name :: rest =>
    if name = ".endr".toList then (if rest.isEmpty then some .endr else none)
    else if name = ".rept".toList then
      match rest with
      | [.word n] => (literalOf n).map .rept
      | _ => none
    else if rest.isEmpty then some (.command ⟨String.ofList name, []⟩)
    else (readOperands (rest.length + 1) rest).map fun es => .command ⟨String.ofList name, es⟩
  | .symbol _ :: _ => none

/-- The commands of lines already read, in order; `.rept n` "repeats the lines between them n times" (R108). `pending`
holds the repeats that are not closed yet, innermost first: how often, and the lines before them. -/
def expandLines (done : List AsmLine) (pending : List (Nat × List AsmLine)) : List TextLine → Option (List AsmLine)
  | [] => if pending.isEmpty then some done else none
  | .blank :: ls => expandLines done pending ls
  | .command l :: ls => expandLines (done ++ [l]) pending ls
  | .rept n :: ls => expandLines [] ((n, done) :: pending) ls
  | .endr :: ls =>
    match pending with
    | [] => none
    | (n, before) :: outer => expandLines (before ++ (List.replicate n done).flatten) outer ls

/-- The commands of a program text (R108, R109); none when a line does not assemble. -/
def assembleText (text : String) : Option (List Instr) :=
  ((textLines [] text.toList).mapM readLine).bind fun ls =>
    (expandLines [] [] ls).bind fun cs => cs.mapM AsmLine.assemble

/-- The request packets of a program text (R108). -/
def assemblePackets (text : String) : Option (List (BitVec 224)) := (assembleText text).map fun is => is.map encode

end Sys2Proof.Machine
end

