-- ==== Sys2Proof/Safety.lean ====
section
/-! DEFINITION. The terms claims use: the invariants the spec gives of every state after reset and after every command
(10_state.md R26, R30, R31), the canonical form of the memories, and what a safe run is. -/

namespace Sys2Proof.Machine

/-- Every listed address lies below `n`. -/
def Memory.inside {w : Nat} (n : Nat) (m : Memory w) : Bool := m.all fun c => decide (c.1 < n)

/-- What holds of RVBASE, RVSIZE and RVCAP "after reset and after every command" (10_state.md R30). -/
def State.rankVectorOk (s : State) : Bool :=
  s.rvsize.toNat ≤ s.rvcap.toNat && s.rvcap.toNat % 64 == 0 && s.rvcap.toNat ≤ s.build.rvmax &&
    s.rvbase.toNat + s.rvcap.toNat / 64 ≤ s.build.nwords

/-- What holds of PKBASE, PKW, PKSIZE, PKCAP and PKWORDS "after reset and after every command" (10_state.md R31). -/
def State.packedVectorOk (s : State) : Bool :=
  (1 ≤ s.pkw.toNat && s.pkw.toNat ≤ 64) && s.pksize.toNat ≤ s.pkcap.toNat &&
    s.pkcap.toNat == 64 * s.pkwords.toNat / s.pkw.toNat &&
    s.pkbase.toNat + s.pkwords.toNat ≤ s.build.nwords

/-- The fault record: written by the first fault with a code 0x01 to 0x09, and 0 before it (10_state.md R26;
60_exceptions.md R285). -/
def State.recordOk (s : State) : Bool :=
  if s.faulted then 1 ≤ s.fcause.toNat && s.fcause.toNat ≤ 9
  else s.fcause == 0#8 && s.fcw == 0#32 && s.finfo == 0#64

/-- The invariant of the machine: a legal build, the three memories in canonical form and inside their sizes, the two
contexts and the fault record as the spec says. -/
structure State.Inv (s : State) : Prop where
  legal : s.build.legal = true
  memForm : Memory.wf s.mem
  memInside : Memory.inside s.build.nwords s.mem = true
  topForm : Memory.wf s.top
  topInside : Memory.inside s.build.ntop s.top = true
  midForm : Memory.wf s.mid
  midInside : Memory.inside s.build.nmid s.mid = true
  rankVector : s.rankVectorOk = true
  packedVector : s.packedVectorOk = true
  record : s.recordOk = true

/-- A state in which every command has its effect: the invariant holds and no fault has been taken. -/
structure State.Ready (s : State) : Prop where
  inv : s.Inv
  unlocked : s.faulted = false

/-- A safe run: `k` steps that neither stop nor lock the engine. -/
def SafeRun (s : State) (k : Nat) : Prop := ∃ t, Host.Core.run Sys2Proof.core k s = .next t ∧ t.faulted = false

/-! ### The vocabulary of the statements -/

/-- How many positions `q` with `a ≤ q < b` the function accepts. -/
def tally (f : Nat → Bool) (a b : Nat) : Nat := ((Finset.Ico a b).filter fun q => f q = true).card

/-- The command completes: status OK, result `r`, and the state is `t` with that response sent. -/
def Answers (i : Instr) (s : State) (r : Word) (t : State) : Prop := exec i s = .next (t.respond statusOk r)

/-- The command raises `Fault(c)`: fault entry from the state as it was, with the command word and operand A of its
packet (60_exceptions.md R284, R285). -/
def Faults (i : Instr) (s : State) (c : FaultCode) : Prop :=
  exec i s = .next (s.takeFault c (commandWord (encode i)) i.operandA)

/-- `m'` is `m` with the field `[p, p+w)` holding `v`, every bit outside it kept, in canonical form. -/
def FieldStored (m m' : Memory 64) (p w : Nat) (v : Word) : Prop :=
  Memory.wf m' ∧ ∀ q, bitAt m' q = if p ≤ q ∧ q < p + w then v.getLsbD (q - p) else bitAt m q

end Sys2Proof.Machine
end

