-- ==== Sys2Proof/Certificates/Slice0/Obligations.lean ====
section
/-! DEFINITION. The statements for the provers, from the numbered rules of spec/. -/

namespace Sys2Proof.Machine

/-! ### Terms of the statements -/

/-- The register table of 10_state.md R25: each number with the value `CSRR` reads. -/
def registerTable (s : State) : List (Word × Word) :=
  [ (0x00#64, 0x0000000042524501#64), (0x01#64, BitVec.ofNat 64 s.build.nwords), (0x02#64, BitVec.ofNat 64 s.build.bt),
    (0x03#64, BitVec.ofNat 64 s.build.bm), (0x04#64, BitVec.ofNat 64 s.build.rvmax),
    (0x08#64, if s.faulted then 1#64 else 0#64), (0x09#64, s.fcause.setWidth 64), (0x0A#64, s.fcw.setWidth 64),
    (0x0B#64, s.finfo), (0x10#64, s.rvbase), (0x11#64, s.rvsize), (0x12#64, s.rvcap), (0x18#64, s.pkbase),
    (0x19#64, s.pkw.setWidth 64), (0x1A#64, s.pksize), (0x1B#64, s.pkcap), (0x1C#64, s.pkwords), (0x1D#64, s.pkidx) ]

/-- The matrix of 60_exceptions.md R292: the checks of each command. -/
def faultMatrix : Instr → List FaultCode
  | .csrr _ _ _ => [.csrnum]
  | .popc _ _ _ | .bsize _ _ _ | .clz _ _ _ | .ctz _ _ _ => []
  | .rdbits _ _ _ => [.width, .bounds]
  | .wrbits _ _ _ => [.width, .bounds, .value]
  | .cnt1 _ _ _ => [.bounds]
  | .sel1 _ _ _ | .sel0 _ _ _ => [.bounds, .rank]
  | .pred1 _ _ _ | .succ1 _ _ _ | .pred0 _ _ _ | .succ0 _ _ _ => [.bounds]
  | .movbits _ _ _ => [.bounds]
  | .cpybits _ _ _ => [.bounds, .overlap]
  | .rvInit _ _ _ | .rvCap _ _ _ => [.capacity, .bounds]
  | .rvAppend _ _ _ => [.capacity, .value]
  | .rvRank1 _ _ _ | .rvRank0 _ _ _ | .rvPred1 _ _ _ | .rvSucc1 _ _ _ | .rvPred0 _ _ _ | .rvSucc0 _ _ _
  | .rvBit _ _ _ | .rvShorten _ _ _ => [.index]
  | .rvSel1 _ _ _ | .rvSel0 _ _ _ => [.rank]
  | .rvRebase _ _ _ | .pkRebase _ _ _ | .pkCap _ _ _ => [.bounds]
  | .pkCfg _ _ _ => [.width, .bounds]
  | .pkRd _ _ _ | .pkItrd _ _ _ => [.index]
  | .pkWr _ _ _ | .pkItwr _ _ _ => [.index, .value]
  | .pkAppend _ _ _ => [.capacity, .value]
  | .pkConvert _ _ _ => [.width, .capacity]
  | .rvNones _ _ _ | .rvNzeros _ _ _ | .pkResize _ _ _ | .pkClear _ _ _ | .pkSeek _ _ _ | .pkAdv _ _ _ => []

/-- The rank-vector commands, by opcode: 0x30 to 0x3F (30_encoding.md R104). -/
def isRankVector (i : Instr) : Bool := 0x30 ≤ i.opcode.toNat && i.opcode.toNat ≤ 0x3F

/-- `SEL1` for true, `SEL0` for false. -/
def selectOf (x : Bool) (base rank c : Word) : Instr := if x then .sel1 base rank c else .sel0 base rank c

/-- `PRED1` for true, `PRED0` for false. -/
def predecessorOf (x : Bool) (p n c : Word) : Instr := if x then .pred1 p n c else .pred0 p n c

/-- `SUCC1` for true, `SUCC0` for false. -/
def successorOf (x : Bool) (p n c : Word) : Instr := if x then .succ1 p n c else .succ0 p n c

/-- `RV.RANK1` for true, `RV.RANK0` for false. -/
def rvRankOf (x : Bool) (p b c : Word) : Instr := if x then .rvRank1 p b c else .rvRank0 p b c

/-- `RV.SEL1` for true, `RV.SEL0` for false. -/
def rvSelectOf (x : Bool) (k b c : Word) : Instr := if x then .rvSel1 k b c else .rvSel0 k b c

/-- `RV.PRED1` for true, `RV.PRED0` for false. -/
def rvPredecessorOf (x : Bool) (v b c : Word) : Instr := if x then .rvPred1 v b c else .rvPred0 v b c

/-- `RV.SUCC1` for true, `RV.SUCC0` for false. -/
def rvSuccessorOf (x : Bool) (v b c : Word) : Instr := if x then .rvSucc1 v b c else .rvSucc0 v b c

/-- How many positions `a ≤ q < b` of `M` hold the bit value `x`. -/
def bitTally (m : Memory 64) (x : Bool) (a b : Nat) : Nat := tally (fun q => bitAt m q == x) a b

/-- How many positions `a ≤ q < b` of the rank vector hold the bit value `x`. -/
def vectorTally (s : State) (x : Bool) (a b : Nat) : Nat := tally (fun q => s.vbit q == x) a b

/-- A left-to-right bit copy inside one memory: ascending positions, each source bit read when its turn comes
(20_memory.md R67). -/
def moveAscending (s d : Nat) : (len : Nat) → Memory 64 → Memory 64
  | 0, m => m
  | n + 1, m =>
    let before := moveAscending s d n m
    bitWrite before (d + n) 1 (if bitAt before (s + n) then 1#64 else 0#64)

/-- A right-to-left bit copy inside one memory: descending positions (20_memory.md R67). -/
def moveDescending (s d : Nat) : (len : Nat) → Memory 64 → Memory 64
  | 0, m => m
  | n + 1, m => moveDescending s d n (bitWrite m (d + n) 1 (if bitAt m (s + n) then 1#64 else 0#64))

end Sys2Proof.Machine

open Sys2Proof Sys2Proof.Machine

/-! ### Encoding -/

/-- Decode and encode agree on every command with every operand, the ignored ones too (30_encoding.md R100, R104). -/
def Obligations.DecodeOfEncodeIsTheCommand : Prop := ∀ i : Instr, decode (encode i) = .command i

/-- A packet that decodes is the packet of the command it decodes to: the decoder drops no bit (R100, R104). -/
def Obligations.EncodeOfDecodeIsThePacket : Prop :=
  ∀ (p : BitVec 224) (i : Instr), decode p = .command i → encode i = p

/-- The decoder refuses exactly the packets of 30_encoding.md R105. -/
def Obligations.IllegalPacketsAreTheUnassignedOnes : Prop :=
  ∀ p : BitVec 224, (∃ why, decode p = .illegal why) ↔ (fieldRsv p ≠ 0#24 ∨ opAssigned (fieldOp p) = false)

/-- Packets written out from the layout of R100 decode to the commands they stand for (95_test_vectors.md gives the
first three). -/
def Obligations.WrittenPacketsDecode : Prop :=
  decode 0x0000000000000000000000000000000800000000_0000003C00000020#224 = .command (.rdbits 60#64 8#64 0#64) ∧
  decode 0x00000000000001400000000000000040000000000000000000000029#224 = .command (.movbits 0#64 64#64 320#64) ∧
  decode 0x00000000000000000000000000000001000000000000008200000025#224 = .command (.pred1 130#64 1#64 0#64) ∧
  decode 0x0000000000000000000000000000000000000000_0000001100000001#224 = .command (.csrr 0x11#64 0#64 0#64) ∧
  decode 0x0000000000000000000000000000000000000000_000000F000000010#224 = .command (.popc 0xF0#64 0#64 0#64) ∧
  decode 0x0000000000000000000000000000000000000000_0000000100000031#224 = .command (.rvAppend 1#64 0#64 0#64) ∧
  decode 0x000000000000000A0000000000000007000000000000000200000040#224 = .command (.pkCfg 2#64 7#64 10#64)

/-! ### Steps -/

/-- A step runs the decoded command: exec on the state with the packet taken from the port and the request counted. -/
def Obligations.StepRunsTheDecodedCommand : Prop :=
  ∀ (s : State) (p : BitVec 224) (rest : List HostInput) (i : Instr),
    s.port = .request p :: rest → decode p = .command i →
      step s = exec i { s with port := rest, tick := s.tick + 1 }

/-- ILLEGAL: the fault record holds the packet's bits 31:0 and 95:32 (60_exceptions.md R282). -/
def Obligations.IllegalPacketTakesTheFault : Prop :=
  ∀ (s : State) (p : BitVec 224) (rest : List HostInput),
    s.port = .request p :: rest → s.faulted = false → Packet.wellFormed p = false →
      step s = .next
        { s with
          port := rest, tick := s.tick + 1, faulted := true, fcause := 0x01#8, fcw := p.extractLsb' 0 32
          finfo := p.extractLsb' 32 64, responses := s.responses ++ [⟨0x01#8, 0#64⟩] }

/-- Between packets the engine holds its state (60_exceptions.md R289). The port as a list of host inputs is the
model's (log entry 3). -/
def Obligations.IdleEngineHoldsItsState : Prop := ∀ s : State, s.port = [] → step s = .next s

/-- Reset gives every register its reset value, from any state, a locked one too, and the summary invariant holds after
it (70_reset_and_hazards.md R310, 10_state.md R40, 43_rank_select.md R204); the build stays. That a reset empties the
list of responses is the model's choice (log entry 4), and so is the form of the reset input (log entries 2, 3). -/
def Obligations.ResetInputGivesTheResetValues : Prop :=
  ∀ (s : State) (m tp : List (Nat × BitVec 64)) (d : List (Nat × BitVec 16)) (rest : List HostInput),
    s.port = .reset m tp d :: rest →
      ∃ t, step s = .next t ∧ t.summariesHold = true ∧
        t = { s with
              mem := t.mem, top := t.top, mid := t.mid
              faulted := false, fcause := 0#8, fcw := 0#32, finfo := 0#64
              rvbase := 0#64, rvsize := 0#64, rvcap := 0#64
              pkbase := 0#64, pkw := 1#7, pksize := 0#64, pkcap := 0#64, pkwords := 0#64, pkidx := 0#64
              port := rest, responses := [] }

/-- After reset every register holds its reset value and the memories hold anything: for any contents whatever there is
a reset input after which the three memories read so, and the registers have their reset values (10_state.md R40). That
the reset input carries the contents (log entry 2), that the port is a list (log entry 3) and that a reset empties the
list of responses (log entry 4) are the model's choices. -/
def Obligations.MemoriesAfterResetAreArbitrary : Prop :=
  ∀ (s : State) (rest : List HostInput) (f g : Nat → Word) (h : Nat → BitVec 16),
    ∃ m tp d t, step { s with port := .reset m tp d :: rest } = .next t ∧
      (∀ a, a < s.build.nwords → t.mem.read a = f a) ∧ (∀ a, a < s.build.ntop → t.top.read a = g a) ∧
      (∀ a, a < s.build.nmid → t.mid.read a = h a) ∧
      t = { s with
            mem := t.mem, top := t.top, mid := t.mid
            faulted := false, fcause := 0#8, fcw := 0#32, finfo := 0#64
            rvbase := 0#64, rvsize := 0#64, rvcap := 0#64
            pkbase := 0#64, pkw := 1#7, pksize := 0#64, pkcap := 0#64, pkwords := 0#64, pkidx := 0#64
            port := rest, responses := [] }

/-- `State.reset` meets the invariant. Its build and its empty memories are the model's choice (log entries 1, 2). -/
def Obligations.ResetStateMeetsTheInvariant : Prop := State.reset.Inv

/-- Every step keeps the invariant: legal build, canonical memories inside their sizes, the two contexts as 10_state.md
R30 and R31 say, the fault record as R26 says. -/
def Obligations.StepKeepsTheInvariant : Prop := ∀ s t : State, s.Inv → step s = .next t → t.Inv

/-- From a state that meets the invariant every step answers a next state: no command reaches outside the address
spaces (20_memory.md R62), and every request is answered. -/
def Obligations.InvariantStatesNeverStop : Prop := ∀ s : State, s.Inv → ∃ t, step s = .next t

/-- The parameters are constants of the build: no step changes them (10_state.md R25, 00_scope.md section 4). -/
def Obligations.StepNeverChangesTheBuild : Prop := ∀ s t : State, step s = .next t → t.build = s.build

/-- The locked engine (60_exceptions.md R286): a `CSRR` of a register's number is answered with its value, every other
packet with LOCKED, and no state changes. -/
def Obligations.LockedEngineOnlyReadsRegisters : Prop :=
  ∀ (s : State) (p : BitVec 224) (rest : List HostInput),
    s.faulted = true → s.port = .request p :: rest →
      (∀ e ∈ registerTable s, commandWord p = 0x00000001#32 → fieldA p = e.1 →
        step s = .next { s with
          port := rest, tick := s.tick + 1, responses := s.responses ++ [⟨0x00#8, e.2⟩] }) ∧
      ((commandWord p ≠ 0x00000001#32 ∨ ∀ e ∈ registerTable s, fieldA p ≠ e.1) →
        step s = .next { s with
          port := rest, tick := s.tick + 1, responses := s.responses ++ [⟨0x0A#8, 0#64⟩] })

/-- Only reset leaves the locked state, and until then the fault record stays (60_exceptions.md R287; 10_state.md
R26). -/
def Obligations.OnlyResetUnlocks : Prop :=
  ∀ s t : State, s.faulted = true → step s = .next t →
    (∀ m tp d rest, s.port ≠ .reset m tp d :: rest) →
      t.faulted = true ∧ t.fcause = s.fcause ∧ t.fcw = s.fcw ∧ t.finfo = s.finfo

/-- A command either faults, and then nothing but the record and the response differs from the state before it, or
completes with status OK, and then the record is untouched and one response was sent (60_exceptions.md R280, R284,
R285). -/
def Obligations.CommandsCompleteOrFaultPrecisely : Prop :=
  ∀ (i : Instr) (s t : State), s.faulted = false → exec i s = .next t →
    (∃ c : FaultCode, c ≠ .illegal ∧
      t = { s with
            faulted := true, fcause := c.number, fcw := commandWord (encode i), finfo := fieldA (encode i)
            responses := s.responses ++ [⟨c.number, 0#64⟩] }) ∨
    (∃ r : Word, t.responses = s.responses ++ [⟨0x00#8, r⟩] ∧ t.faulted = false ∧ t.fcause = s.fcause ∧
      t.fcw = s.fcw ∧ t.finfo = s.finfo ∧ t.port = s.port ∧ t.tick = s.tick)

/-- Which command can raise what: the matrix of 60_exceptions.md R292. -/
def Obligations.CommandsRaiseOnlyTheirFaults : Prop :=
  ∀ (i : Instr) (s : State) (c : FaultCode), s.faulted = false → Faults i s c → c ∈ faultMatrix i

/-- Every request packet is answered by exactly one response, whose result is 0 when its status is not OK
(30_encoding.md R101). -/
def Obligations.EveryRequestGetsOneResponse : Prop :=
  ∀ (s t : State) (p : BitVec 224) (rest : List HostInput),
    s.port = .request p :: rest → step s = .next t →
      t.port = rest ∧ ∃ r : Response, t.responses = s.responses ++ [r] ∧ (r.st ≠ 0x00#8 → r.result = 0#64)

/-- The bit-region, packed-integer, word and system commands write neither `TOP`, `MID` nor the rank vector's registers
(70_reset_and_hazards.md R320; 10_state.md R27, R28). -/
def Obligations.OtherCommandsLeaveTheSummaries : Prop :=
  ∀ (i : Instr) (s t : State), isRankVector i = false → exec i s = .next t →
    t.top = s.top ∧ t.mid = s.mid ∧ t.rvbase = s.rvbase ∧ t.rvsize = s.rvsize ∧ t.rvcap = s.rvcap

/-! ### CSRR -/

/-- `CSRR` of a number of the register table answers the register's value and changes nothing, locked or not; of any
other number it raises CSRNUM, and answers LOCKED from a locked engine (44_system.md R240). -/
def Obligations.CsrrReadsTheRegisterTable : Prop :=
  ∀ (s : State) (num b c : Word),
    (∀ e ∈ registerTable s, e.1 = num → Answers (.csrr num b c) s e.2 s) ∧
    ((∀ e ∈ registerTable s, e.1 ≠ num) →
      (s.faulted = false → Faults (.csrr num b c) s .csrnum) ∧
      (s.faulted = true → exec (.csrr num b c) s = .next (s.respond 0x0A#8 0#64)))

/-! ### Word primitives -/

/-- `POPC` answers the number of 1-bits (40_word_primitives.md R130). -/
def Obligations.PopcCountsTheOneBits : Prop :=
  ∀ (s : State) (x b c : Word), s.faulted = false →
    Answers (.popc x b c) s (BitVec.ofNat 64 ((Finset.univ.filter fun j : Fin 64 => x.getLsbD j = true).card)) s

/-- `BSIZE` answers the smallest `w ≥ 1` with `v < 2^w` (40_word_primitives.md R131). -/
def Obligations.BsizeIsTheLeastWidth : Prop :=
  ∀ (s : State) (v b c : Word), s.faulted = false →
    ∃ w : Nat, Answers (.bsize v b c) s (BitVec.ofNat 64 w) s ∧ 1 ≤ w ∧ w ≤ 64 ∧ v.toNat < 2 ^ w ∧
      ∀ w' : Nat, 1 ≤ w' → v.toNat < 2 ^ w' → w ≤ w'

/-- `CLZ` answers how many consecutive 0-bits stand from bit 63 down; 64 for 0, and 64 less `BSIZE` for any other word
(40_word_primitives.md R132). -/
def Obligations.ClzCountsZerosFromTheTop : Prop :=
  ∀ (s : State) (x b c : Word), s.faulted = false →
    ∃ n : Nat, Answers (.clz x b c) s (BitVec.ofNat 64 n) s ∧ n ≤ 64 ∧
      (∀ j : Nat, 64 - n ≤ j → x.getLsbD j = false) ∧ (n < 64 → x.getLsbD (63 - n) = true) ∧
      (x ≠ 0#64 → Answers (.bsize x b c) s (BitVec.ofNat 64 (64 - n)) s)

/-- `CTZ` answers how many consecutive 0-bits stand from bit 0 up; 64 for 0, and the first position of `sel1w` for any
other word (40_word_primitives.md R133). -/
def Obligations.CtzCountsZerosFromTheBottom : Prop :=
  ∀ (s : State) (x b c : Word), s.faulted = false →
    ∃ n : Nat, Answers (.ctz x b c) s (BitVec.ofNat 64 n) s ∧ n ≤ 64 ∧
      (∀ j : Nat, j < n → x.getLsbD j = false) ∧ (n < 64 → x.getLsbD n = true) ∧
      (x ≠ 0#64 → sel1w x 1 = some n)

/-- The byte walk of the word-level selects finds the k-th 1-bit, and the k-th 0-bit (40_word_primitives.md R136). -/
def Obligations.ByteWalkFindsTheKthBit : Prop :=
  ∀ (x : Word) (k : Nat), 1 ≤ k →
    (k ≤ tally x.getLsbD 0 64 →
      ∃ q, q < 64 ∧ sel1w x k = some q ∧ x.getLsbD q = true ∧ tally x.getLsbD 0 (q + 1) = k) ∧
    (k ≤ 64 - tally x.getLsbD 0 64 →
      ∃ q, q < 64 ∧ sel0w x k = some q ∧ x.getLsbD q = false ∧ tally (fun j => !x.getLsbD j) 0 (q + 1) = k)

/-! ### Bit regions -/

/-- `RDBITS` answers bits `[p, p+w)`, zero-extended; WIDTH, then BOUNDS (41_bit_region.md R141). -/
def Obligations.RdbitsReturnsTheField : Prop :=
  ∀ (s : State) (p w c : Word), s.faulted = false →
    (64 < w.toNat → Faults (.rdbits p w c) s .width) ∧
    (w.toNat ≤ 64 → 64 * s.build.nwords < p.toNat + w.toNat → Faults (.rdbits p w c) s .bounds) ∧
    (w.toNat ≤ 64 → p.toNat + w.toNat ≤ 64 * s.build.nwords →
      ∃ r : Word, Answers (.rdbits p w c) s r s ∧
        ∀ j, r.getLsbD j = (decide (j < w.toNat) && bitAt s.mem (p.toNat + j)))

/-- `WRBITS` stores `val` in bits `[p, p+w)` and keeps every other bit and register; WIDTH, BOUNDS, VALUE
(41_bit_region.md R142). -/
def Obligations.WrbitsStoresExactlyTheField : Prop :=
  ∀ (s : State) (p w val : Word), Memory.wf s.mem → s.faulted = false →
    (64 < w.toNat → Faults (.wrbits p w val) s .width) ∧
    (w.toNat ≤ 64 → 64 * s.build.nwords < p.toNat + w.toNat → Faults (.wrbits p w val) s .bounds) ∧
    (w.toNat ≤ 64 → p.toNat + w.toNat ≤ 64 * s.build.nwords → 2 ^ w.toNat ≤ val.toNat →
      Faults (.wrbits p w val) s .value) ∧
    (w.toNat ≤ 64 → p.toNat + w.toNat ≤ 64 * s.build.nwords → val.toNat < 2 ^ w.toNat →
      ∃ m, Answers (.wrbits p w val) s 0#64 { s with mem := m } ∧ FieldStored s.mem m p.toNat w.toNat val)

/-- After `WRBITS p, w, val`, `RDBITS p, w` returns val (41_bit_region.md R142, 20_memory.md R65). -/
def Obligations.RdbitsAfterWrbitsReturnsTheValue : Prop :=
  ∀ (s t : State) (p w val c r : Word), Memory.wf s.mem → s.faulted = false →
    Answers (.wrbits p w val) s r t → Answers (.rdbits p w c) t val t

/-- `CNT1` answers the number of 1-bits of `[64*base, last]`; BOUNDS (41_bit_region.md R143). -/
def Obligations.CntCountsTheRegion : Prop :=
  ∀ (s : State) (base last c : Word), s.faulted = false →
    (s.build.nwords ≤ base.toNat ∨ 64 * s.build.nwords ≤ last.toNat ∨ last.toNat < 64 * base.toNat →
      Faults (.cnt1 base last c) s .bounds) ∧
    (base.toNat < s.build.nwords → last.toNat < 64 * s.build.nwords → 64 * base.toNat ≤ last.toNat →
      Answers (.cnt1 base last c) s (BitVec.ofNat 64 (bitTally s.mem true (64 * base.toNat) (last.toNat + 1))) s)

/-- `SEL1` and `SEL0` answer the position of the rank-th bit from word `base` on; BOUNDS, then RANK
(41_bit_region.md R144, R145). -/
def Obligations.SelectFindsTheKthBit : Prop :=
  ∀ (x : Bool) (s : State) (base rank c : Word), s.faulted = false →
    (s.build.nwords ≤ base.toNat → Faults (selectOf x base rank c) s .bounds) ∧
    (base.toNat < s.build.nwords →
      rank.toNat = 0 ∨ bitTally s.mem x (64 * base.toNat) (64 * s.build.nwords) < rank.toNat →
        Faults (selectOf x base rank c) s .rank) ∧
    (base.toNat < s.build.nwords → 1 ≤ rank.toNat →
      rank.toNat ≤ bitTally s.mem x (64 * base.toNat) (64 * s.build.nwords) →
        ∃ q, 64 * base.toNat ≤ q ∧ q < 64 * s.build.nwords ∧ bitAt s.mem q = x ∧
          bitTally s.mem x (64 * base.toNat) (q + 1) = rank.toNat ∧
          Answers (selectOf x base rank c) s (BitVec.ofNat 64 q) s)

/-- What `SEL1 base, k` answers is the position of a 1-bit, and `CNT1` from word `base` up to it counts `k`
(41_bit_region.md R152). -/
def Obligations.SelectedPositionsCountTheirRank : Prop :=
  ∀ (s : State) (base k c q : Word), s.faulted = false → s.build.nwords < 2 ^ 58 →
    Answers (.sel1 base k c) s q s →
      Answers (.rdbits q 1#64 c) s 1#64 s ∧ Answers (.cnt1 base q c) s k s

/-- `PRED1` and `PRED0` answer the nearest such bit at or below `p` in the window of `max_words` words, else NOTFOUND;
BOUNDS depends on the operands only (41_bit_region.md R146, R148). -/
def Obligations.PredecessorFindsTheNearestBit : Prop :=
  ∀ (x : Bool) (s : State) (p n c : Word), s.faulted = false →
    (64 * s.build.nwords ≤ p.toNat ∨ p.toNat / 64 + 1 < n.toNat → Faults (predecessorOf x p n c) s .bounds) ∧
    (p.toNat < 64 * s.build.nwords → n.toNat ≤ p.toNat / 64 + 1 →
      (∃ q, 64 * (p.toNat / 64 + 1 - n.toNat) ≤ q ∧ q ≤ p.toNat ∧ bitAt s.mem q = x ∧
        (∀ r, q < r → r ≤ p.toNat → bitAt s.mem r ≠ x) ∧
        Answers (predecessorOf x p n c) s (BitVec.ofNat 64 q) s) ∨
      ((∀ q, 64 * (p.toNat / 64 + 1 - n.toNat) ≤ q → q ≤ p.toNat → bitAt s.mem q ≠ x) ∧
        Answers (predecessorOf x p n c) s 0xFFFFFFFFFFFFFFFF#64 s))

/-- `SUCC1` and `SUCC0` answer the nearest such bit at or above `p` in the window of `max_words` words, else NOTFOUND;
BOUNDS depends on the operands only (41_bit_region.md R147, R149). -/
def Obligations.SuccessorFindsTheNearestBit : Prop :=
  ∀ (x : Bool) (s : State) (p n c : Word), s.faulted = false →
    (64 * s.build.nwords ≤ p.toNat ∨ s.build.nwords < p.toNat / 64 + n.toNat →
      Faults (successorOf x p n c) s .bounds) ∧
    (p.toNat < 64 * s.build.nwords → p.toNat / 64 + n.toNat ≤ s.build.nwords →
      (∃ q, p.toNat ≤ q ∧ q < 64 * (p.toNat / 64 + n.toNat) ∧ bitAt s.mem q = x ∧
        (∀ r, p.toNat ≤ r → r < q → bitAt s.mem r ≠ x) ∧
        Answers (successorOf x p n c) s (BitVec.ofNat 64 q) s) ∨
      ((∀ q, p.toNat ≤ q → q < 64 * (p.toNat / 64 + n.toNat) → bitAt s.mem q ≠ x) ∧
        Answers (successorOf x p n c) s 0xFFFFFFFFFFFFFFFF#64 s))

/-- `MOVBITS`: afterwards the destination holds what the source held before, every other bit is kept; BOUNDS
(41_bit_region.md R150, 20_memory.md R67). -/
def Obligations.MovbitsMovesTheRegion : Prop :=
  ∀ (s : State) (src dst len : Word), Memory.wf s.mem → s.faulted = false →
    (64 * s.build.nwords < src.toNat + len.toNat ∨ 64 * s.build.nwords < dst.toNat + len.toNat →
      Faults (.movbits src dst len) s .bounds) ∧
    (src.toNat + len.toNat ≤ 64 * s.build.nwords → dst.toNat + len.toNat ≤ 64 * s.build.nwords →
      ∃ m, Answers (.movbits src dst len) s 0#64 { s with mem := m } ∧ Memory.wf m ∧
        ∀ q, bitAt m q =
          if dst.toNat ≤ q ∧ q < dst.toNat + len.toNat then bitAt s.mem (src.toNat + (q - dst.toNat))
          else bitAt s.mem q)

/-- `CPYBITS` faults with OVERLAP on a forward overlap and has the result of `MOVBITS` otherwise; BOUNDS first
(41_bit_region.md R151). -/
def Obligations.CpybitsCopiesUnlessTheRegionsOverlapForward : Prop :=
  ∀ (s : State) (src dst len : Word), Memory.wf s.mem → s.faulted = false →
    (64 * s.build.nwords < src.toNat + len.toNat ∨ 64 * s.build.nwords < dst.toNat + len.toNat →
      Faults (.cpybits src dst len) s .bounds) ∧
    (src.toNat + len.toNat ≤ 64 * s.build.nwords → dst.toNat + len.toNat ≤ 64 * s.build.nwords →
      (0 < len.toNat → src.toNat < dst.toNat → dst.toNat < src.toNat + len.toNat →
        Faults (.cpybits src dst len) s .overlap) ∧
      (len.toNat = 0 ∨ dst.toNat ≤ src.toNat ∨ src.toNat + len.toNat ≤ dst.toNat →
        ∃ m, Answers (.cpybits src dst len) s 0#64 { s with mem := m } ∧
          Answers (.movbits src dst len) s 0#64 { s with mem := m } ∧ Memory.wf m ∧
          ∀ q, bitAt m q =
            if dst.toNat ≤ q ∧ q < dst.toNat + len.toNat then bitAt s.mem (src.toNat + (q - dst.toNat))
            else bitAt s.mem q))

/-- The source's way to move: left-to-right when `dst ≤ src`, else right-to-left, inside one memory; both give what
`MoveBits` promises (20_memory.md R67). -/
def Obligations.DirectedMovesEqualTheMove : Prop :=
  ∀ (m : Memory 64) (s d len : Nat), Memory.wf m →
    (d ≤ s → moveAscending s d len m = moveBits m s d len) ∧
    (s ≤ d → moveDescending s d len m = moveBits m s d len)

/-! ### The rank vector -/

/-- `RV.INIT` places an empty vector and the summary invariant holds; CAPACITY, then BOUNDS (43_rank_select.md
R210). -/
def Obligations.RvInitPlacesAnEmptyVector : Prop :=
  ∀ (s : State) (base cap c : Word), s.faulted = false → ∀ capr : Nat, capr = 64 * ((cap.toNat + 63) / 64) →
    (s.build.rvmax < capr → Faults (.rvInit base cap c) s .capacity) ∧
    (capr ≤ s.build.rvmax → s.build.nwords < base.toNat + capr / 64 → Faults (.rvInit base cap c) s .bounds) ∧
    (capr ≤ s.build.rvmax → base.toNat + capr / 64 ≤ s.build.nwords →
      ∃ t, Answers (.rvInit base cap c) s (BitVec.ofNat 64 capr) t ∧ t.summariesHold = true ∧
        t = { s with rvbase := base, rvcap := BitVec.ofNat 64 capr, rvsize := 0#64 })

/-- `RV.APPEND` writes the new bit, the two entries of its blocks and RVSIZE and nothing else, answers the position,
and, while the summary invariant holds, gives the two entries the values of the rule and keeps the invariant; CAPACITY,
then VALUE (43_rank_select.md R211; what it writes while the invariant is broken is free, R204, log entry 5). -/
def Obligations.RvAppendAppendsTheBit : Prop :=
  ∀ (s : State) (bit b c : Word), s.Ready →
    (s.rvcap.toNat ≤ s.rvsize.toNat → Faults (.rvAppend bit b c) s .capacity) ∧
    (s.rvsize.toNat < s.rvcap.toNat → 1 < bit.toNat → Faults (.rvAppend bit b c) s .value) ∧
    (s.rvsize.toNat < s.rvcap.toNat → bit.toNat ≤ 1 →
      ∃ t, Answers (.rvAppend bit b c) s s.rvsize t ∧
        t = { s with mem := t.mem, top := t.top, mid := t.mid, rvsize := s.rvsize + 1#64 } ∧
        FieldStored s.mem t.mem (64 * s.rvbase.toNat + s.rvsize.toNat) 1 bit ∧
        (∀ a, a ≠ s.rvsize.toNat / s.build.bt → t.top.read a = s.top.read a) ∧
        (∀ a, (isStored s.build (s.rvsize.toNat / s.build.bm) = true →
            a ≠ midaddr s.build (s.rvsize.toNat / s.build.bm)) → t.mid.read a = s.mid.read a) ∧
        (s.summariesHold = true →
          t.summariesHold = true ∧
          t.top.read (s.rvsize.toNat / s.build.bt) =
            (if s.rvsize.toNat % s.build.bt ≠ 0 then s.top.read (s.rvsize.toNat / s.build.bt)
             else if s.rvsize.toNat = 0 then 0#64 else s.top.read (s.rvsize.toNat / s.build.bt - 1)) + bit ∧
          (isStored s.build (s.rvsize.toNat / s.build.bm) = true →
            t.mid.read (midaddr s.build (s.rvsize.toNat / s.build.bm)) =
              (if s.rvsize.toNat % s.build.bm ≠ 0 then s.mid.read (midaddr s.build (s.rvsize.toNat / s.build.bm))
               else if s.rvsize.toNat % s.build.bt = 0 then 0#16
               else s.mid.read (midaddr s.build (s.rvsize.toNat / s.build.bm - 1))) + bit.setWidth 16)))

/-- While the summary invariant holds, `RV.RANK1` and `RV.RANK0` answer the number of such bits at positions 0..p;
INDEX (43_rank_select.md R212, R213). That INDEX stays exact while the invariant does not hold is the model's (log
entry 8). -/
def Obligations.RvRankCountsTheBits : Prop :=
  ∀ (x : Bool) (s : State) (p b c : Word), s.Ready →
    (s.rvsize.toNat ≤ p.toNat → Faults (rvRankOf x p b c) s .index) ∧
    (p.toNat < s.rvsize.toNat → s.summariesHold = true →
      Answers (rvRankOf x p b c) s (BitVec.ofNat 64 (vectorTally s x 0 (p.toNat + 1))) s)

/-- While the summary invariant holds, `RV.SEL1` and `RV.SEL0` answer the position of the k-th such bit of the vector;
RANK for 0 and above the population (43_rank_select.md R207, R214, R215). -/
def Obligations.RvSelectFindsTheKthBit : Prop :=
  ∀ (x : Bool) (s : State) (k b c : Word), s.Ready → s.summariesHold = true →
    (k.toNat = 0 ∨ vectorTally s x 0 s.rvsize.toNat < k.toNat → Faults (rvSelectOf x k b c) s .rank) ∧
    (1 ≤ k.toNat → k.toNat ≤ vectorTally s x 0 s.rvsize.toNat →
      ∃ q, q < s.rvsize.toNat ∧ s.vbit q = x ∧ vectorTally s x 0 (q + 1) = k.toNat ∧
        Answers (rvSelectOf x k b c) s (BitVec.ofNat 64 q) s)

/-- Rank and select are dual while the summary invariant holds (43_rank_select.md R226). -/
def Obligations.RankAndSelectAreDual : Prop :=
  ∀ (x : Bool) (s : State) (b c : Word), s.Ready → s.summariesHold = true →
    (∀ p : Word, p.toNat < s.rvsize.toNat → s.vbit p.toNat = x →
      ∃ k, Answers (rvRankOf x p b c) s k s ∧ Answers (rvSelectOf x k b c) s p s) ∧
    (∀ k q : Word, Answers (rvSelectOf x k b c) s q s →
      q.toNat < s.rvsize.toNat ∧ s.vbit q.toNat = x ∧ Answers (rvRankOf x q b c) s k s)

/-- While the summary invariant holds, `RV.PRED1` and `RV.PRED0` answer the nearest such position at or below `v`, else
NOTFOUND; INDEX (43_rank_select.md R216, R218). That INDEX stays exact while the invariant does not hold is the model's
(log entry 8). -/
def Obligations.RvPredecessorFindsTheNearestBit : Prop :=
  ∀ (x : Bool) (s : State) (v b c : Word), s.Ready →
    (s.rvsize.toNat ≤ v.toNat → Faults (rvPredecessorOf x v b c) s .index) ∧
    (v.toNat < s.rvsize.toNat → s.summariesHold = true →
      (∃ q, q ≤ v.toNat ∧ s.vbit q = x ∧ (∀ r, q < r → r ≤ v.toNat → s.vbit r ≠ x) ∧
        Answers (rvPredecessorOf x v b c) s (BitVec.ofNat 64 q) s) ∨
      ((∀ q, q ≤ v.toNat → s.vbit q ≠ x) ∧ Answers (rvPredecessorOf x v b c) s 0xFFFFFFFFFFFFFFFF#64 s))

/-- While the summary invariant holds, `RV.SUCC1` and `RV.SUCC0` answer the nearest such position at or above `v` and
below the size, else NOTFOUND; INDEX (43_rank_select.md R217, R219). That INDEX stays exact while the invariant does not
hold is the model's (log entry 8). -/
def Obligations.RvSuccessorFindsTheNearestBit : Prop :=
  ∀ (x : Bool) (s : State) (v b c : Word), s.Ready →
    (s.rvsize.toNat ≤ v.toNat → Faults (rvSuccessorOf x v b c) s .index) ∧
    (v.toNat < s.rvsize.toNat → s.summariesHold = true →
      (∃ q, v.toNat ≤ q ∧ q < s.rvsize.toNat ∧ s.vbit q = x ∧ (∀ r, v.toNat ≤ r → r < q → s.vbit r ≠ x) ∧
        Answers (rvSuccessorOf x v b c) s (BitVec.ofNat 64 q) s) ∨
      ((∀ q, v.toNat ≤ q → q < s.rvsize.toNat → s.vbit q ≠ x) ∧
        Answers (rvSuccessorOf x v b c) s 0xFFFFFFFFFFFFFFFF#64 s))

/-- The source's way, a scan of two words and then a rank and a select, gives the predecessor and the successor
(43_rank_select.md R216 to R219). -/
def Obligations.NeighboursByRankAreTheNeighbours : Prop :=
  ∀ (x : Bool) (s : State) (v : Nat), s.Inv → s.summariesHold = true → v < s.rvsize.toNat →
    s.predecessorByRank x v = s.rvPredecessor x v ∧ s.successorByRank x v = s.rvSuccessor x v

/-- `RV.BIT` answers the bit, whether or not the summary invariant holds; INDEX (43_rank_select.md R220). -/
def Obligations.RvBitReadsTheBit : Prop :=
  ∀ (s : State) (p b c : Word), s.Ready →
    (s.rvsize.toNat ≤ p.toNat → Faults (.rvBit p b c) s .index) ∧
    (p.toNat < s.rvsize.toNat →
      Answers (.rvBit p b c) s (if bitAt s.mem (64 * s.rvbase.toNat + p.toNat) then 1#64 else 0#64) s)

/-- While the summary invariant holds, `RV.NONES` and `RV.NZEROS` answer the numbers of 1-bits and 0-bits
(43_rank_select.md R222, R223). -/
def Obligations.RvCountsTheOnesAndTheZeros : Prop :=
  ∀ (s : State) (a b c : Word), s.Ready → s.summariesHold = true →
    Answers (.rvNones a b c) s (BitVec.ofNat 64 (vectorTally s true 0 s.rvsize.toNat)) s ∧
    Answers (.rvNzeros a b c) s (BitVec.ofNat 64 (vectorTally s false 0 s.rvsize.toNat)) s

/-- `RV.SHORTEN` sets the size, writes at most the two entries of the new last blocks and no bit of `M`, and, while the
summary invariant holds, gives them the recomputed counts and keeps the invariant; INDEX (43_rank_select.md R221; what
it writes while the invariant is broken is free, R204, log entry 5). -/
def Obligations.RvShortenTruncatesTheVector : Prop :=
  ∀ (s : State) (n b c : Word), s.Ready →
    (s.rvsize.toNat < n.toNat → Faults (.rvShorten n b c) s .index) ∧
    (n.toNat ≤ s.rvsize.toNat →
      ∃ t, Answers (.rvShorten n b c) s n t ∧ t = { s with top := t.top, mid := t.mid, rvsize := n } ∧
        (n.toNat = 0 → t.top = s.top ∧ t.mid = s.mid) ∧
        (∀ a, a ≠ (n.toNat - 1) / s.build.bt → t.top.read a = s.top.read a) ∧
        (∀ a, (isStored s.build ((n.toNat - 1) / s.build.bm) = true →
            a ≠ midaddr s.build ((n.toNat - 1) / s.build.bm)) → t.mid.read a = s.mid.read a) ∧
        (s.summariesHold = true →
          t.summariesHold = true ∧
          (1 ≤ n.toNat →
            t.top.read ((n.toNat - 1) / s.build.bt) = BitVec.ofNat 64 (vectorTally s true 0 n.toNat) ∧
            (isStored s.build ((n.toNat - 1) / s.build.bm) = true →
              t.mid.read (midaddr s.build ((n.toNat - 1) / s.build.bm)) =
                BitVec.ofNat 16
                  (vectorTally s true ((n.toNat - 1) / s.build.bt * s.build.bt) n.toNat)))))

/-- The rank of every surviving position is the same after `RV.SHORTEN` (43_rank_select.md R221, R226). -/
def Obligations.RankSurvivesShorten : Prop :=
  ∀ (s : State) (n p b c : Word), s.Ready → s.summariesHold = true → p.toNat < n.toNat → n.toNat ≤ s.rvsize.toNat →
    ∃ t r, exec (.rvShorten n b c) s = .next t ∧ Answers (.rvRank1 p b c) s r s ∧ Answers (.rvRank1 p b c) t r t

/-- `RV.CAP` sets the capacity to the least multiple of 64 that holds max(size, c) bits; CAPACITY, then BOUNDS
(43_rank_select.md R224). -/
def Obligations.RvCapSetsTheCapacity : Prop :=
  ∀ (s : State) (cap b c : Word), s.faulted = false →
    ∀ nc : Nat, nc = 64 * ((max s.rvsize.toNat cap.toNat + 63) / 64) →
      (s.build.rvmax < nc → Faults (.rvCap cap b c) s .capacity) ∧
      (nc ≤ s.build.rvmax → s.build.nwords < s.rvbase.toNat + nc / 64 → Faults (.rvCap cap b c) s .bounds) ∧
      (nc ≤ s.build.rvmax → s.rvbase.toNat + nc / 64 ≤ s.build.nwords →
        Answers (.rvCap cap b c) s (BitVec.ofNat 64 nc) { s with rvcap := BitVec.ofNat 64 nc })

/-- `RV.REBASE` sets RVBASE and moves no data; the summary invariant holds after it when the host copied the bits
first; BOUNDS (43_rank_select.md R225). -/
def Obligations.RvRebaseMovesTheBaseOnly : Prop :=
  ∀ (s : State) (base b c : Word), s.faulted = false →
    (s.build.nwords < base.toNat + s.rvcap.toNat / 64 → Faults (.rvRebase base b c) s .bounds) ∧
    (base.toNat + s.rvcap.toNat / 64 ≤ s.build.nwords →
      ∃ t, Answers (.rvRebase base b c) s 0#64 t ∧ t = { s with rvbase := base } ∧
        (s.summariesHold = true →
          (∀ i, i < s.rvsize.toNat → bitAt s.mem (64 * base.toNat + i) = bitAt s.mem (64 * s.rvbase.toNat + i)) →
            t.summariesHold = true))

/-- Every rank-vector command but `RV.REBASE` keeps the summary invariant (43_rank_select.md R204). -/
def Obligations.RankVectorCommandsKeepTheSummaries : Prop :=
  ∀ (i : Instr) (s t : State), isRankVector i = true → (∀ base b c, i ≠ .rvRebase base b c) → s.Inv →
    s.summariesHold = true → exec i s = .next t → t.summariesHold = true

/-- While the summary invariant does not hold, rank, predecessor and successor of a position below the size and the two
counts complete with some result, a select of a rank above 0 completes or raises RANK, and none writes anything
(43_rank_select.md R204). The results are free values (log entry 5). That only the selects may fault, and that whether
they do is free, is the model's (log entry 8). -/
def Obligations.QueriesWithoutSummariesStillAnswer : Prop :=
  ∀ (x : Bool) (s : State) (b c : Word), s.Ready → s.summariesHold = false →
    (∀ p : Word, p.toNat < s.rvsize.toNat →
      (∃ r, Answers (rvRankOf x p b c) s r s) ∧ (∃ r, Answers (rvPredecessorOf x p b c) s r s) ∧
      (∃ r, Answers (rvSuccessorOf x p b c) s r s)) ∧
    (∀ a : Word, (∃ r, Answers (.rvNones a b c) s r s) ∧ (∃ r, Answers (.rvNzeros a b c) s r s)) ∧
    (∀ k : Word, 1 ≤ k.toNat → (∃ r, Answers (rvSelectOf x k b c) s r s) ∨ Faults (rvSelectOf x k b c) s .rank)

/-! ### The packed vector -/

/-- `PK.CFG` makes the packed vector an empty vector of width `w` at word `base`; WIDTH, then BOUNDS
(42_packed_int.md R171). -/
def Obligations.PkCfgPlacesAnEmptyVector : Prop :=
  ∀ (s : State) (base w cap : Word), s.faulted = false →
    ∀ words : Nat, words = (cap.toNat * w.toNat + 63) / 64 →
      (w.toNat < 1 ∨ 64 < w.toNat → Faults (.pkCfg base w cap) s .width) ∧
      (1 ≤ w.toNat → w.toNat ≤ 64 → s.build.nwords < base.toNat + words → Faults (.pkCfg base w cap) s .bounds) ∧
      (1 ≤ w.toNat → w.toNat ≤ 64 → base.toNat + words ≤ s.build.nwords →
        Answers (.pkCfg base w cap) s (BitVec.ofNat 64 (64 * words / w.toNat))
          { s with
            pkbase := base, pkw := BitVec.ofNat 7 w.toNat, pkwords := BitVec.ofNat 64 words
            pkcap := BitVec.ofNat 64 (64 * words / w.toNat), pksize := 0#64, pkidx := 0#64 })

/-- `PK.RD i` answers the PKW bits of element `i`, zero-extended, and `PK.ITRD` those of the element under the
iterator; INDEX (42_packed_int.md R172, R181). -/
def Obligations.PkReadsReturnTheElement : Prop :=
  ∀ (s : State) (i b c : Word), s.Ready →
    (s.pksize.toNat ≤ i.toNat → Faults (.pkRd i b c) s .index) ∧
    (i.toNat < s.pksize.toNat →
      ∃ r : Word, Answers (.pkRd i b c) s r s ∧
        ∀ j, r.getLsbD j = (decide (j < s.pkw.toNat) && bitAt s.mem (s.epos i.toNat + j))) ∧
    (s.pksize.toNat ≤ s.pkidx.toNat → Faults (.pkItrd i b c) s .index) ∧
    (s.pkidx.toNat < s.pksize.toNat →
      ∃ r : Word, Answers (.pkItrd i b c) s r s ∧
        ∀ j, r.getLsbD j = (decide (j < s.pkw.toNat) && bitAt s.mem (s.epos s.pkidx.toNat + j)))

/-- `PK.WR i, val` stores exactly element `i`, and `PK.ITWR val` the element under the iterator, which does not move;
INDEX, then VALUE (42_packed_int.md R173, R182). -/
def Obligations.PkWritesStoreExactlyTheElement : Prop :=
  ∀ (s : State) (i val b c : Word), s.Ready →
    (s.pksize.toNat ≤ i.toNat → Faults (.pkWr i val c) s .index) ∧
    (i.toNat < s.pksize.toNat → 2 ^ s.pkw.toNat ≤ val.toNat → Faults (.pkWr i val c) s .value) ∧
    (i.toNat < s.pksize.toNat → val.toNat < 2 ^ s.pkw.toNat →
      ∃ m, Answers (.pkWr i val c) s 0#64 { s with mem := m } ∧
        FieldStored s.mem m (s.epos i.toNat) s.pkw.toNat val) ∧
    (s.pksize.toNat ≤ s.pkidx.toNat → Faults (.pkItwr val b c) s .index) ∧
    (s.pkidx.toNat < s.pksize.toNat → 2 ^ s.pkw.toNat ≤ val.toNat → Faults (.pkItwr val b c) s .value) ∧
    (s.pkidx.toNat < s.pksize.toNat → val.toNat < 2 ^ s.pkw.toNat →
      ∃ m, Answers (.pkItwr val b c) s 0#64 { s with mem := m } ∧
        FieldStored s.mem m (s.epos s.pkidx.toNat) s.pkw.toNat val)

/-- `PK.APPEND` stores the next element and answers its index; CAPACITY, then VALUE (42_packed_int.md R174). -/
def Obligations.PkAppendStoresTheNextElement : Prop :=
  ∀ (s : State) (val b c : Word), s.Ready →
    (s.pkcap.toNat ≤ s.pksize.toNat → Faults (.pkAppend val b c) s .capacity) ∧
    (s.pksize.toNat < s.pkcap.toNat → 2 ^ s.pkw.toNat ≤ val.toNat → Faults (.pkAppend val b c) s .value) ∧
    (s.pksize.toNat < s.pkcap.toNat → val.toNat < 2 ^ s.pkw.toNat →
      ∃ m, Answers (.pkAppend val b c) s s.pksize { s with mem := m, pksize := s.pksize + 1#64 } ∧
        FieldStored s.mem m (s.epos s.pksize.toNat) s.pkw.toNat val)

/-- After writing `val` at index `i`, `PK.RD i` answers `val` and every other element reads as before
(42_packed_int.md R184). -/
def Obligations.PackedElementsAreIndependent : Prop :=
  ∀ (s : State) (i val b c : Word), s.Ready → i.toNat < s.pksize.toNat → val.toNat < 2 ^ s.pkw.toNat →
    ∃ t, exec (.pkWr i val c) s = .next t ∧ Answers (.pkRd i b c) t val t ∧
      ∀ j r : Word, j ≠ i → Answers (.pkRd j b c) s r s → Answers (.pkRd j b c) t r t

/-- `PK.RESIZE` sets the size when it fits and is refused without a fault otherwise, `PK.CLEAR` empties the vector,
`PK.SEEK` and `PK.ADV` move the iterator, the latter modulo 2^64; none touches anything else (42_packed_int.md R175,
R176, R179, R180). -/
def Obligations.PkSizeAndIteratorCommands : Prop :=
  ∀ (s : State) (x b c : Word), s.faulted = false →
    (x.toNat ≤ s.pkcap.toNat → Answers (.pkResize x b c) s 1#64 { s with pksize := x }) ∧
    (s.pkcap.toNat < x.toNat → Answers (.pkResize x b c) s 0#64 s) ∧
    Answers (.pkClear x b c) s 0#64 { s with pksize := 0#64 } ∧
    Answers (.pkSeek x b c) s 0#64 { s with pkidx := x } ∧
    Answers (.pkAdv x b c) s (BitVec.ofNat 64 ((s.pkidx.toNat + x.toNat) % 2 ^ 64))
      { s with pkidx := BitVec.ofNat 64 ((s.pkidx.toNat + x.toNat) % 2 ^ 64) }

/-- `PK.CAP` sets PKWORDS and PKCAP for max(size, c) elements, `PK.REBASE` sets PKBASE; both move no data; BOUNDS
(42_packed_int.md R177, R183). -/
def Obligations.PkCapAndRebaseSetTheRegisters : Prop :=
  ∀ (s : State) (x b c : Word), s.Ready →
    ∀ words : Nat, words = (max s.pksize.toNat x.toNat * s.pkw.toNat + 63) / 64 →
      (s.build.nwords < s.pkbase.toNat + words → Faults (.pkCap x b c) s .bounds) ∧
      (s.pkbase.toNat + words ≤ s.build.nwords →
        Answers (.pkCap x b c) s (BitVec.ofNat 64 (64 * words / s.pkw.toNat))
          { s with pkwords := BitVec.ofNat 64 words, pkcap := BitVec.ofNat 64 (64 * words / s.pkw.toNat) }) ∧
      (s.build.nwords < x.toNat + s.pkwords.toNat → Faults (.pkRebase x b c) s .bounds) ∧
      (x.toNat + s.pkwords.toNat ≤ s.build.nwords → Answers (.pkRebase x b c) s 0#64 { s with pkbase := x })

/-- `PK.CONVERT` keeps every element modulo `2^w2`, in the new layout, and every bit outside the new layout; WIDTH,
then CAPACITY (42_packed_int.md R178). -/
def Obligations.PkConvertKeepsTheElements : Prop :=
  ∀ (s : State) (w b c : Word), s.Ready →
    (w.toNat < 1 ∨ 64 < w.toNat → Faults (.pkConvert w b c) s .width) ∧
    (1 ≤ w.toNat → w.toNat ≤ 64 → s.pkwords.toNat < (s.pksize.toNat * w.toNat + 63) / 64 →
      Faults (.pkConvert w b c) s .capacity) ∧
    (1 ≤ w.toNat → w.toNat ≤ 64 → (s.pksize.toNat * w.toNat + 63) / 64 ≤ s.pkwords.toNat →
      ∃ m, Answers (.pkConvert w b c) s (BitVec.ofNat 64 (64 * s.pkwords.toNat / w.toNat))
          { s with
            mem := m, pkw := BitVec.ofNat 7 w.toNat
            pkcap := BitVec.ofNat 64 (64 * s.pkwords.toNat / w.toNat) } ∧
        Memory.wf m ∧
        (∀ i j, i < s.pksize.toNat → j < w.toNat →
          bitAt m (64 * s.pkbase.toNat + i * w.toNat + j) =
            (decide (j < s.pkw.toNat) && bitAt s.mem (64 * s.pkbase.toNat + i * s.pkw.toNat + j))) ∧
        (∀ q, q < 64 * s.pkbase.toNat ∨ 64 * s.pkbase.toNat + s.pksize.toNat * w.toNat ≤ q →
          bitAt m q = bitAt s.mem q))
end

