-- ==== Sys2Proof/Laws/Memory.lean ====
section
/-! SUPPORT. The laws of memory cells: a read after a write, the canonical form, the extent. -/

namespace Sys2Proof.Machine

/-- A read after a write gives the value written, and every other cell as before. -/
theorem Memory.read_write {w : Nat} (m : Memory w) (a b : Nat) (v : BitVec w) (h : Memory.wf m) :
    Memory.read (Memory.write m a v) b = if b = a then v else Memory.read m b := by
  obtain ⟨hs, -⟩ := h
  have below : ∀ (m : Memory w) (b : Nat), (∀ c ∈ m, b < c.1) → Memory.read m b = unlisted w := by
    intro m b hb
    induction m with
    | nil => rfl
    | cons c m ih =>
      have h1 := hb c (by simp)
      simp only [Memory.read]
      rw [if_neg (by omega)]
      exact ih fun c hc => hb c (by simp [hc])
  induction m with
  | nil =>
    simp only [Memory.write]
    split <;> simp_all [Memory.read]
  | cons c m ih =>
    obtain ⟨x, y⟩ := c
    simp only [List.pairwise_cons] at hs
    have tail := below m
    simp only [Memory.write]
    split
    · next hlt =>
      have hrest : ∀ c ∈ m, a < c.1 := fun c hc => by have := hs.1 c hc; omega
      split
      · next hv =>
        simp only [Memory.read]
        by_cases hb : b = a
        · subst hb; simp [hv, tail b hrest]; intro h; omega
        · simp [hb]
      · simp only [Memory.read]
    · split
      · next hge heq =>
        subst heq
        split
        · next hv =>
          by_cases hb : b = a
          · subst hb; simp [hv]; exact tail b fun c hc => by have := hs.1 c hc; simpa using this
          · simp [hb, Memory.read]
        · by_cases hb : b = a <;> simp [hb, Memory.read]
      · next hge hne =>
        simp only [Memory.read]
        by_cases hb : b = x
        · subst hb; simp; intro h; omega
        · simp [hb, ih hs.2]

/-- Where a cell of a written memory comes from. -/
theorem Memory.mem_write {w : Nat} (m : Memory w) (a : Nat) (v : BitVec w) (c : Nat × BitVec w)
    (h : c ∈ Memory.write m a v) : c ∈ m ∨ (c = (a, v) ∧ v ≠ unlisted w) := by
  induction m with
  | nil => simp only [Memory.write] at h; split at h <;> simp_all
  | cons d m ih =>
    obtain ⟨x, y⟩ := d
    simp only [Memory.write] at h
    split at h
    · split at h <;> (simp_all; try tauto)
    · split at h
      · split at h <;> (simp_all; try tauto)
      · simp only [List.mem_cons] at h ⊢
        rcases h with h | h
        · exact .inl (.inl h)
        · rcases ih h with h | h
          · exact .inl (.inr h)
          · exact .inr h

/-- A write keeps the canonical form. -/
theorem Memory.wf_write {w : Nat} (m : Memory w) (a : Nat) (v : BitVec w) (h : Memory.wf m) :
    Memory.wf (Memory.write m a v) := by
  refine ⟨?_, fun c hc => ?_⟩
  · obtain ⟨hs, -⟩ := h
    induction m with
    | nil => simp only [Memory.write]; split <;> simp
    | cons d m ih =>
      obtain ⟨x, y⟩ := d
      have hs' := hs
      simp only [List.pairwise_cons] at hs
      simp only [Memory.write]
      split
      · next hlt =>
        split
        · exact hs'
        · refine List.pairwise_cons.2 ⟨fun c hc => ?_, hs'⟩
          rcases List.mem_cons.1 hc with rfl | hc
          · simpa using hlt
          · have := hs.1 c hc; simp only at *; omega
      · split
        · next heq =>
          subst heq
          split
          · exact hs.2
          · exact List.pairwise_cons.2 ⟨hs.1, hs.2⟩
        · next hge hne =>
          refine List.pairwise_cons.2 ⟨fun c hc => ?_, ih hs.2⟩
          rcases Memory.mem_write m a v c hc with hc | ⟨rfl, -⟩
          · exact hs.1 c hc
          · simp; omega
  · rcases Memory.mem_write m a v c hc with hc | ⟨rfl, hv⟩
    · exact h.2 c hc
    · exact hv

/-- A write below the end stays inside. -/
theorem Memory.inside_write {w : Nat} (n : Nat) (m : Memory w) (a : Nat) (v : BitVec w) (ha : a < n)
    (h : Memory.inside n m = true) : Memory.inside n (Memory.write m a v) = true := by
  simp only [Memory.inside, List.all_eq_true, decide_eq_true_eq] at h ⊢
  intro c hc
  rcases Memory.mem_write m a v c hc with hc | ⟨rfl, -⟩
  · exact h c hc
  · exact ha

/-- A memory made of a list of contents is canonical and inside its size. -/
theorem Memory.ofList_wf {w : Nat} (n : Nat) (cells : List (Nat × BitVec w)) :
    Memory.wf (Memory.ofList n cells) ∧ Memory.inside n (Memory.ofList n cells) = true := by
  have step : ∀ (cells : List (Nat × BitVec w)) (m : Memory w), Memory.wf m ∧ Memory.inside n m = true →
      Memory.wf (cells.foldl (fun m c => if c.1 < n then Memory.write m c.1 c.2 else m) m) ∧
      Memory.inside n (cells.foldl (fun m c => if c.1 < n then Memory.write m c.1 c.2 else m) m) = true := by
    intro cells
    induction cells with
    | nil => exact fun m h => h
    | cons c cells ih =>
      intro m h
      simp only [List.foldl_cons]
      apply ih
      split
      · next hc => exact ⟨Memory.wf_write m _ _ h.1, Memory.inside_write n m _ _ hc h.2⟩
      · exact h
  exact step cells [] ⟨⟨List.Pairwise.nil, by simp⟩, rfl⟩

/-- Two canonical memories with the same reads are the same data. -/
theorem Memory.ext_of_read {w : Nat} (m₁ m₂ : Memory w) (h₁ : Memory.wf m₁) (h₂ : Memory.wf m₂)
    (h : ∀ a, Memory.read m₁ a = Memory.read m₂ a) : m₁ = m₂ := by
  have below : ∀ (m : Memory w) (b : Nat), (∀ c ∈ m, b < c.1) → Memory.read m b = unlisted w := by
    intro m b hb
    induction m with
    | nil => rfl
    | cons c m ih =>
      have h1 := hb c (by simp)
      simp only [Memory.read]
      rw [if_neg (by omega)]
      exact ih fun c hc => hb c (by simp [hc])
  induction m₁ generalizing m₂ with
  | nil =>
    cases m₂ with
    | nil => rfl
    | cons c m =>
      exact absurd (by simpa [Memory.read] using (h c.1).symm) (h₂.2 c (by simp))
  | cons c m ih =>
    obtain ⟨a, x⟩ := c
    have hs := List.pairwise_cons.1 h₁.1
    cases m₂ with
    | nil => exact absurd (by simpa [Memory.read] using h a) (h₁.2 (a, x) (by simp))
    | cons d n =>
      obtain ⟨b, y⟩ := d
      have ht := List.pairwise_cons.1 h₂.1
      have hab : a = b := by
        rcases Nat.lt_trichotomy a b with hlt | heq | hgt
        · have hr := h a
          rw [below ((b, y) :: n) a (by
            intro c hc
            rcases List.mem_cons.1 hc with rfl | hc
            · exact hlt
            · have := ht.1 c hc; omega)] at hr
          exact absurd (by simpa [Memory.read] using hr) (h₁.2 (a, x) (by simp))
        · exact heq
        · have hr := h b
          rw [below ((a, x) :: m) b (by
            intro c hc
            rcases List.mem_cons.1 hc with rfl | hc
            · exact hgt
            · have := hs.1 c hc; omega)] at hr
          exact absurd (by simpa [Memory.read] using hr.symm) (h₂.2 (b, y) (by simp))
      subst hab
      have hxy : x = y := by simpa [Memory.read] using h a
      subst hxy
      congr 1
      apply ih n ⟨hs.2, fun c hc => h₁.2 c (by simp [hc])⟩ ⟨ht.2, fun c hc => h₂.2 c (by simp [hc])⟩
      intro b
      by_cases hb : b = a
      · subst hb
        rw [below m b (fun c hc => by simpa using hs.1 c hc), below n b (fun c hc => by simpa using ht.1 c hc)]
      · simpa [Memory.read, hb] using h b

end Sys2Proof.Machine
end

