-- ==== Sys2Proof/Laws/Bits.lean ====
section
/-! SUPPORT. The laws of the bit-field primitives (20_memory.md R64 to R67) and of the searches: what each gives, said
once. -/

namespace Sys2Proof.Machine

@[simp] theorem mask_getLsbD (w i : Nat) : (mask w).getLsbD i = (decide (i < 64) && decide (i < w)) := by
  simp [mask, BitVec.getLsbD_ofNat, Nat.testBit_two_pow_sub_one]

@[simp] theorem mask_getElem (w i : Nat) (h : i < 64) : (mask w)[i] = decide (i < w) := by
  rw [← BitVec.getLsbD_eq_getElem, mask_getLsbD]; simp [h]

/-- A value below `2^w` has no bit at or above `w`. -/
theorem getLsbD_of_fits (v : Word) (w i : Nat) (h : v.toNat < 2 ^ w) (hi : w ≤ i) : v.getLsbD i = false := by
  rw [BitVec.getLsbD, Nat.testBit_lt_two_pow (Nat.lt_of_lt_of_le h (Nat.pow_le_pow_right (by omega) hi))]

/-- The bits of a field read (R64): the field's own bits, zero above it. -/
theorem bitRead_getLsbD (m : Memory 64) (p w j : Nat) (hw : w ≤ 64) :
    (bitRead m p w).getLsbD j = (decide (j < w) && bitAt m (p + j)) := by
  unfold bitRead bitAt
  by_cases hj : j < w
  · have hj64 : j < 64 := by omega
    rw [if_neg (by omega)]
    split
    · next h =>
      have e1 : (p + j) / 64 = p / 64 := by omega
      have e2 : (p + j) % 64 = p % 64 + j := by omega
      simp [hj, hj64, e1, e2]
    · next h =>
      by_cases hs : p % 64 + j < 64
      · have e1 : (p + j) / 64 = p / 64 := by omega
        have e2 : (p + j) % 64 = p % 64 + j := by omega
        have e3 : j < 64 - p % 64 := by omega
        simp [hj, hj64, e1, e2, e3]
      · have e1 : (p + j) / 64 = p / 64 + 1 := by omega
        have e2 : (p + j) % 64 = j - (64 - p % 64) := by omega
        have e3 : ¬ j < 64 - p % 64 := by omega
        have e4 : 64 ≤ p % 64 + j := by omega
        have e5 : j - (64 - p % 64) < 64 := by omega
        simp [hj, hj64, e1, e2, e3, e5, BitVec.getLsbD_of_ge _ _ e4]
  · have : ∀ x : Word, (x &&& mask w).getLsbD j = false := by intro x; simp [hj]
    split
    · simp [hj]
    · split <;> simp [hj]

/-- The bits of `M` after a field write (R65): the field's bits are those of the value, every other bit is kept. -/
theorem bitAt_bitWrite (m : Memory 64) (p w q : Nat) (v : Word) (hm : Memory.wf m) (hw : w ≤ 64)
    (hv : v.toNat < 2 ^ w) :
    bitAt (bitWrite m p w v) q = if p ≤ q ∧ q < p + w then v.getLsbD (q - p) else bitAt m q := by
  have hq : q % 64 < 64 := Nat.mod_lt _ (by omega)
  unfold bitWrite
  split
  · next h => rw [if_neg (by omega)]
  · next hw0 =>
    split
    · next h =>
      unfold bitAt
      rw [Memory.read_write _ _ _ _ hm]
      by_cases hword : q / 64 = p / 64
      · rw [if_pos hword, hword]
        by_cases hin : p ≤ q ∧ q < p + w
        · rw [if_pos hin]
          have e1 : ¬ q % 64 < p % 64 := by omega
          have e2 : q % 64 - p % 64 < w := by omega
          have e3 : q % 64 - p % 64 = q - p := by omega
          have e4 : q - p < 64 := by omega
          have e5 : q - p < w := by omega
          simp [hq, e1, e3, e4, e5]
        · rw [if_neg hin]
          by_cases hlow : q % 64 < p % 64
          · simp [hq, hlow]
          · have e1 : ¬ q % 64 - p % 64 < w := by omega
            have e2 := getLsbD_of_fits v w (q % 64 - p % 64) hv (Nat.not_lt.1 e1)
            have e3 : q % 64 - p % 64 < 64 := by omega
            rw [BitVec.getLsbD_eq_getElem e3] at e2
            simp [hq, hlow, e1, e2]
      · rw [if_neg hword, if_neg (by omega)]
    · next h =>
      unfold bitAt
      rw [Memory.read_write _ _ _ _ (Memory.wf_write _ _ _ hm), Memory.read_write _ _ _ _ hm]
      by_cases h2 : q / 64 = p / 64 + 1
      · rw [if_pos h2, h2]
        by_cases hin : p ≤ q ∧ q < p + w
        · rw [if_pos hin]
          have e1 : q % 64 < w - (64 - p % 64) := by omega
          have e2 : 64 - p % 64 + q % 64 = q - p := by omega
          simp [hq, e1, e2]
        · rw [if_neg hin]
          have e1 : ¬ q % 64 < w - (64 - p % 64) := by omega
          have e2 : w ≤ 64 - p % 64 + q % 64 := by omega
          simp [hq, e1, getLsbD_of_fits v w _ hv e2]
      · rw [if_neg h2]
        by_cases h1 : q / 64 = p / 64
        · rw [if_pos h1, h1]
          by_cases hlow : q % 64 < p % 64
          · rw [if_neg (by omega)]
            simp [hq, hlow]
          · rw [if_pos (by omega)]
            have e1 : q % 64 - p % 64 < 64 - p % 64 := by omega
            have e3 : q % 64 - p % 64 = q - p := by omega
            have e4 : q - p < 64 := by omega
            have e5 : q - p < 64 - p % 64 := by omega
            simp [hq, hlow, e3, e4, e5]
        · rw [if_neg h1, if_neg (by omega)]

/-- A field write keeps the canonical form. -/
theorem bitWrite_wf (m : Memory 64) (p w : Nat) (v : Word) (h : Memory.wf m) : Memory.wf (bitWrite m p w v) := by
  unfold bitWrite
  split
  · exact h
  · split
    · exact Memory.wf_write _ _ _ h
    · exact Memory.wf_write _ _ _ (Memory.wf_write _ _ _ h)

/-- A field write inside the memory stays inside. -/
theorem bitWrite_inside (n : Nat) (m : Memory 64) (p w : Nat) (v : Word) (hp : p + w ≤ 64 * n)
    (h : Memory.inside n m = true) : Memory.inside n (bitWrite m p w v) = true := by
  unfold bitWrite
  split
  · exact h
  · split
    · exact Memory.inside_write _ _ _ _ (by omega) h
    · exact Memory.inside_write _ _ _ _ (by omega) (Memory.inside_write _ _ _ _ (by omega) h)

/-- The one-bit value a move writes. -/
theorem moveBit_fits (b : Bool) : (BitVec.ofNat 64 b.toNat).toNat < 2 ^ 1 := by cases b <;> decide

/-- `MoveBits` keeps the canonical form. -/
theorem moveFrom_wf (old m : Memory 64) (s d n : Nat) (h : Memory.wf m) : Memory.wf (moveFrom old m s d n) := by
  induction n with
  | zero => exact h
  | succ n ih => exact bitWrite_wf _ _ _ _ ih

/-- `MoveBits` inside the memory stays inside. -/
theorem moveFrom_inside (k : Nat) (old m : Memory 64) (s d n : Nat) (hd : d + n ≤ 64 * k)
    (h : Memory.inside k m = true) : Memory.inside k (moveFrom old m s d n) = true := by
  induction n with
  | zero => exact h
  | succ n ih => exact bitWrite_inside _ _ _ _ _ (by omega) (ih (by omega))

/-- The bits after a move (R67): in the destination what the old memory held in the source, elsewhere kept. -/
theorem bitAt_moveFrom (old m : Memory 64) (s d n q : Nat) (h : Memory.wf m) :
    bitAt (moveFrom old m s d n) q = if d ≤ q ∧ q < d + n then bitAt old (s + (q - d)) else bitAt m q := by
  induction n with
  | zero => rw [if_neg (by omega)]; rfl
  | succ n ih =>
    rw [moveFrom, bitAt_bitWrite _ _ _ _ _ (moveFrom_wf _ _ _ _ _ h) (by omega) (moveBit_fits _), ih]
    by_cases hq : q = d + n
    · subst hq
      rw [if_pos (by omega), if_pos (by omega), Nat.sub_self, Nat.add_sub_cancel_left]
      cases bitAt old (s + n) <;> rfl
    · rw [if_neg (by omega)]
      by_cases hin : d ≤ q ∧ q < d + n
      · rw [if_pos hin, if_pos (by omega)]
      · rw [if_neg hin, if_neg (by omega)]

/-! ### Searches -/

/-- What `leastFrom` finds. -/
theorem leastFrom_eq_some (f : Nat → Bool) (a n q : Nat) :
    leastFrom f a n = some q ↔ a ≤ q ∧ q < a + n ∧ f q = true ∧ ∀ r, a ≤ r → r < q → f r = false := by
  induction n generalizing a with
  | zero => simp [leastFrom]; omega
  | succ n ih =>
    simp only [leastFrom]
    split
    · next h =>
      constructor
      · intro e
        cases e
        exact ⟨by omega, by omega, h, fun r h1 h2 => by omega⟩
      · rintro ⟨h1, h2, h3, h4⟩
        rcases Nat.lt_or_eq_of_le h1 with hlt | rfl
        · exact absurd (h4 a (by omega) hlt) (by simp [h])
        · rfl
    · next h =>
      rw [ih]
      constructor
      · rintro ⟨h1, h2, h3, h4⟩
        refine ⟨by omega, by omega, h3, fun r hr1 hr2 => ?_⟩
        rcases Nat.lt_or_eq_of_le hr1 with hlt | rfl
        · exact h4 r hlt hr2
        · simpa using h
      · rintro ⟨h1, h2, h3, h4⟩
        rcases Nat.lt_or_eq_of_le h1 with hlt | rfl
        · exact ⟨hlt, by omega, h3, fun r hr1 hr2 => h4 r (by omega) hr2⟩
        · exact absurd h3 h

/-- When `leastFrom` finds nothing. -/
theorem leastFrom_eq_none (f : Nat → Bool) (a n : Nat) :
    leastFrom f a n = none ↔ ∀ r, a ≤ r → r < a + n → f r = false := by
  induction n generalizing a with
  | zero => simp [leastFrom]; omega
  | succ n ih =>
    simp only [leastFrom]
    split
    · next h => simp only [reduceCtorEq, false_iff]; exact fun hr => by simp [hr a (by omega) (by omega)] at h
    · next h =>
      rw [ih]
      constructor
      · intro hr r h1 h2
        rcases Nat.lt_or_eq_of_le h1 with hlt | rfl
        · exact hr r hlt (by omega)
        · simpa using h
      · exact fun hr r h1 h2 => hr r (by omega) (by omega)

/-- What `greatestFrom` finds. -/
theorem greatestFrom_eq_some (f : Nat → Bool) (a n q : Nat) :
    greatestFrom f a n = some q ↔ a ≤ q ∧ q < a + n ∧ f q = true ∧ ∀ r, q < r → r < a + n → f r = false := by
  induction n with
  | zero => simp [greatestFrom]; omega
  | succ n ih =>
    simp only [greatestFrom]
    split
    · next h =>
      constructor
      · intro e
        cases e
        exact ⟨by omega, by omega, h, fun r h1 h2 => by omega⟩
      · rintro ⟨h1, h2, h3, h4⟩
        rcases Nat.lt_or_eq_of_le (Nat.lt_succ_iff.1 (show q < (a + n) + 1 by omega)) with hlt | rfl
        · exact absurd (h4 (a + n) hlt (by omega)) (by simp [h])
        · rfl
    · next h =>
      rw [ih]
      constructor
      · rintro ⟨h1, h2, h3, h4⟩
        refine ⟨h1, by omega, h3, fun r hr1 hr2 => ?_⟩
        rcases Nat.lt_or_eq_of_le (Nat.lt_succ_iff.1 (show r < (a + n) + 1 by omega)) with hlt | rfl
        · exact h4 r hr1 hlt
        · simpa using h
      · rintro ⟨h1, h2, h3, h4⟩
        rcases Nat.lt_or_eq_of_le (Nat.lt_succ_iff.1 (show q < (a + n) + 1 by omega)) with hlt | rfl
        · exact ⟨h1, hlt, h3, fun r hr1 hr2 => h4 r hr1 (by omega)⟩
        · exact absurd h3 h

/-- When `greatestFrom` finds nothing. -/
theorem greatestFrom_eq_none (f : Nat → Bool) (a n : Nat) :
    greatestFrom f a n = none ↔ ∀ r, a ≤ r → r < a + n → f r = false := by
  induction n with
  | zero => simp [greatestFrom]; omega
  | succ n ih =>
    simp only [greatestFrom]
    split
    · next h => simp only [reduceCtorEq, false_iff]; exact fun hr => by simp [hr (a + n) (by omega) (by omega)] at h
    · next h =>
      rw [ih]
      constructor
      · intro hr r h1 h2
        rcases Nat.lt_or_eq_of_le (Nat.lt_succ_iff.1 (show r < (a + n) + 1 by omega)) with hlt | rfl
        · exact hr r h1 hlt
        · simpa using h
      · exact fun hr r h1 h2 => hr r h1 (by omega)

/-- A count over adjacent stretches is the sum of the counts. -/
theorem countFrom_add (f : Nat → Bool) (a n k : Nat) :
    countFrom f a (n + k) = countFrom f a n + countFrom f (a + n) k := by
  induction k with
  | zero => rfl
  | succ k ih => rw [← Nat.add_assoc, countFrom, ih, countFrom, Nat.add_assoc, Nat.add_assoc]

/-- A count from its first position on. -/
theorem countFrom_succ_left (f : Nat → Bool) (a n : Nat) :
    countFrom f a (n + 1) = (f a).toNat + countFrom f (a + 1) n := by
  rw [Nat.add_comm n 1, countFrom_add]; simp [countFrom]

/-- A count is at most the number of positions. -/
theorem countFrom_le (f : Nat → Bool) (a n : Nat) : countFrom f a n ≤ n := by
  induction n with
  | zero => simp [countFrom]
  | succ n ih => rw [countFrom]; cases f (a + n) <;> simp <;> omega

/-- A count of positions where two functions agree. -/
theorem countFrom_congr (f g : Nat → Bool) (a b n : Nat) (h : ∀ j, j < n → f (a + j) = g (b + j)) :
    countFrom f a n = countFrom g b n := by
  induction n with
  | zero => rfl
  | succ n ih => rw [countFrom, countFrom, ih fun j hj => h j (by omega), h n (by omega)]

/-- A count is the number of positions in the range. -/
theorem countFrom_eq_tally (f : Nat → Bool) (a n : Nat) : countFrom f a n = tally f a (a + n) := by
  induction n with
  | zero => simp [countFrom, tally]
  | succ n ih =>
    rw [countFrom, ih, tally, tally, ← Nat.add_assoc, ← Finset.insert_Ico_right_eq_Ico_add_one (Nat.le_add_right a n),
      Finset.filter_insert]
    cases h : f (a + n)
    · simp
    · simp

/-- `ones(a, b)` is the number of 1-bits of the region (R66). -/
theorem ones_eq_tally (m : Memory 64) (a b : Nat) : ones m a b = tally (bitAt m) a b := by
  rw [ones, countFrom_eq_tally]
  rcases Nat.le_total a b with h | h
  · rw [Nat.add_sub_cancel' h]
  · rw [Nat.sub_eq_zero_of_le h, Nat.add_zero, tally, tally, Finset.Ico_self, Finset.Ico_eq_empty (by omega)]

/-- What `kthFrom` finds: the position that makes the count `k`. -/
theorem kthFrom_eq_some (f : Nat → Bool) (k a n q : Nat) (hk : 1 ≤ k) :
    kthFrom f k a n = some q ↔ a ≤ q ∧ q < a + n ∧ f q = true ∧ countFrom f a (q + 1 - a) = k := by
  induction n generalizing a k with
  | zero => simp [kthFrom]; omega
  | succ n ih =>
    have more : ∀ q, a + 1 ≤ q → countFrom f a (q + 1 - a) = (f a).toNat + countFrom f (a + 1) (q - a) :=
      fun q hq => by rw [← countFrom_succ_left]; congr 1; omega
    have last : ∀ q, a + 1 ≤ q → f q = true → 1 ≤ countFrom f (a + 1) (q - a) := fun q hq h => by
      rw [show q - a = (q - a - 1) + 1 by omega, countFrom, show a + 1 + (q - a - 1) = q by omega, h]; simp
    have first : countFrom f a (a + 1 - a) = (f a).toNat := by
      rw [show a + 1 - a = 0 + 1 by omega]; simp [countFrom]
    have shift : ∀ q, q + 1 - (a + 1) = q - a := fun q => by omega
    simp only [kthFrom]
    split
    · next h =>
      rw [h] at more first
      split
      · next h1 =>
        subst h1
        constructor
        · intro e
          cases e
          exact ⟨by omega, by omega, h, first⟩
        · rintro ⟨h1, h2, h3, h4⟩
          rcases Nat.lt_or_eq_of_le h1 with hlt | rfl
          · have := last q hlt h3
            rw [more q hlt] at h4
            simp at h4; omega
          · rfl
      · next h1 =>
        rw [ih (k - 1) (a + 1) (by omega), shift]
        constructor
        · rintro ⟨g1, g2, g3, g4⟩
          refine ⟨by omega, by omega, g3, ?_⟩
          rw [more q g1, g4]; simp; omega
        · rintro ⟨g1, g2, g3, g4⟩
          rcases Nat.lt_or_eq_of_le g1 with hlt | rfl
          · rw [more q hlt] at g4
            exact ⟨hlt, by omega, g3, by simp at g4; omega⟩
          · rw [first] at g4
            simp at g4; omega
    · next h =>
      rw [ih k (a + 1) hk, shift]
      have hf : f a = false := by simpa using h
      rw [hf] at more
      constructor
      · rintro ⟨g1, g2, g3, g4⟩
        refine ⟨by omega, by omega, g3, ?_⟩
        rw [more q g1, g4]; simp
      · rintro ⟨g1, g2, g3, g4⟩
        rcases Nat.lt_or_eq_of_le g1 with hlt | rfl
        · rw [more q hlt] at g4
          exact ⟨hlt, by omega, g3, by simpa using g4⟩
        · exact absurd g3 h

/-- When `kthFrom` finds nothing: there are fewer than `k`. -/
theorem kthFrom_eq_none (f : Nat → Bool) (k a n : Nat) (hk : 1 ≤ k) :
    kthFrom f k a n = none ↔ countFrom f a n < k := by
  induction n generalizing a k with
  | zero => simp [kthFrom, countFrom]; omega
  | succ n ih =>
    rw [countFrom_succ_left]
    simp only [kthFrom]
    split
    · next h =>
      split
      · next h1 => simp [h]; omega
      · next h1 => rw [ih (k - 1) (a + 1) (by omega), h]; simp; omega
    · next h => rw [ih k (a + 1) hk, Bool.not_eq_true _ |>.mp h]; simp

end Sys2Proof.Machine
end

