-- ==== Sys2Proof/Laws/Invariant.lean ====
section
/-! SUPPORT. The invariant of the machine as one conjunction, which a single decision checks on a concrete state. -/

namespace Sys2Proof.Machine

/-- The parts of the invariant, memory by memory, then the registers. -/
theorem inv_iff {s : State} :
    s.Inv ↔
      s.build.legal = true ∧
      (Memory.wf s.mem ∧ Memory.inside s.build.nwords s.mem = true) ∧
      (Memory.wf s.top ∧ Memory.inside s.build.ntop s.top = true) ∧
      (Memory.wf s.mid ∧ Memory.inside s.build.nmid s.mid = true) ∧
      s.rankVectorOk = true ∧ s.packedVectorOk = true ∧ s.recordOk = true where
  mp h := ⟨h.legal, ⟨h.memForm, h.memInside⟩, ⟨h.topForm, h.topInside⟩, ⟨h.midForm, h.midInside⟩, h.rankVector,
    h.packedVector, h.record⟩
  mpr h :=
    let ⟨legal, mem, top, mid, rankVector, packedVector, record⟩ := h
    ⟨legal, mem.1, mem.2, top.1, top.2, mid.1, mid.2, rankVector, packedVector, record⟩

end Sys2Proof.Machine
end

