-- ==== Sys2Proof/Laws/Packet.lean ====
section
/-! SUPPORT. The fields of an encoded packet (30_encoding.md R100). -/

namespace Sys2Proof

/-- A packet read as a number: each field at its place. -/
theorem packet_toNat (op : BitVec 8) (a b c : Word) :
    (packet op a b c).toNat = op.toNat + 2 ^ 32 * a.toNat + 2 ^ 96 * b.toNat + 2 ^ 160 * c.toNat := by
  have h1 := op.isLt; have h2 := a.isLt; have h3 := b.isLt
  have e1 : a.toNat <<< 32 ||| op.toNat = a.toNat <<< 32 + op.toNat :=
    (Nat.shiftLeft_add_eq_or_of_lt (by omega) _).symm
  have e2 : b.toNat <<< 96 ||| (a.toNat <<< 32 + op.toNat) = b.toNat <<< 96 + (a.toNat <<< 32 + op.toNat) :=
    (Nat.shiftLeft_add_eq_or_of_lt (by simp only [Nat.shiftLeft_eq]; omega) _).symm
  have e3 : c.toNat <<< 160 ||| (b.toNat <<< 96 + (a.toNat <<< 32 + op.toNat)) =
      c.toNat <<< 160 + (b.toNat <<< 96 + (a.toNat <<< 32 + op.toNat)) :=
    (Nat.shiftLeft_add_eq_or_of_lt (by simp only [Nat.shiftLeft_eq]; omega) _).symm
  have h0 : (packet op a b c).toNat = c.toNat <<< 160 ||| (b.toNat <<< 96 ||| (a.toNat <<< 32 ||| op.toNat)) := by
    have e0 : (0#24 ++ op).toNat = op.toNat := by rw [BitVec.toNat_append]; simp
    rw [← e0]
    exact (BitVec.toNat_append ..).trans (congrArg _ ((BitVec.toNat_append ..).trans (congrArg _ (BitVec.toNat_append ..))))
  rw [h0, e1, e2, e3]
  simp only [Nat.shiftLeft_eq]
  omega

theorem fieldOp_packet (op : BitVec 8) (a b c : Word) : fieldOp (packet op a b c) = op := by
  have := op.isLt
  apply BitVec.eq_of_toNat_eq
  rw [fieldOp, BitVec.extractLsb'_toNat, packet_toNat, Nat.shiftRight_eq_div_pow]
  omega

theorem fieldRsv_packet (op : BitVec 8) (a b c : Word) : fieldRsv (packet op a b c) = 0#24 := by
  have := op.isLt
  apply BitVec.eq_of_toNat_eq
  rw [fieldRsv, BitVec.extractLsb'_toNat, packet_toNat, Nat.shiftRight_eq_div_pow]
  simp; omega

theorem fieldA_packet (op : BitVec 8) (a b c : Word) : fieldA (packet op a b c) = a := by
  have := op.isLt; have := a.isLt
  apply BitVec.eq_of_toNat_eq
  rw [fieldA, BitVec.extractLsb'_toNat, packet_toNat, Nat.shiftRight_eq_div_pow]
  omega

theorem fieldB_packet (op : BitVec 8) (a b c : Word) : fieldB (packet op a b c) = b := by
  have := op.isLt; have := a.isLt; have := b.isLt
  apply BitVec.eq_of_toNat_eq
  rw [fieldB, BitVec.extractLsb'_toNat, packet_toNat, Nat.shiftRight_eq_div_pow]
  omega

theorem fieldC_packet (op : BitVec 8) (a b c : Word) : fieldC (packet op a b c) = c := by
  have := op.isLt; have := a.isLt; have := b.isLt; have := c.isLt
  apply BitVec.eq_of_toNat_eq
  rw [fieldC, BitVec.extractLsb'_toNat, packet_toNat, Nat.shiftRight_eq_div_pow]
  omega

theorem commandWord_packet (op : BitVec 8) (a b c : Word) : commandWord (packet op a b c) = op.setWidth 32 := by
  have := op.isLt
  apply BitVec.eq_of_toNat_eq
  rw [commandWord, BitVec.extractLsb'_toNat, packet_toNat, Nat.shiftRight_eq_div_pow, BitVec.toNat_setWidth]
  omega

end Sys2Proof
end

