-- ==== Sys2Proof/Laws/PerInstr.lean ====
section
/-! SUPPORT. The family TableRow: every command's opcode names one row of the opcode map, and that
row makes the command back from its operands. -/

namespace Sys2Proof.Laws

/-- The row of the opcode map that stands for a command. -/
def TableRow.Statement (i : Instr) : Prop :=
  ∃ r, rowOf i.opcode = some r ∧ r.make i.operandA i.operandB i.operandC = i

theorem TableRow.csrr (x y z : Word) : TableRow.Statement (.csrr x y z) := ⟨_, rfl, rfl⟩
theorem TableRow.popc (x y z : Word) : TableRow.Statement (.popc x y z) := ⟨_, rfl, rfl⟩
theorem TableRow.bsize (x y z : Word) : TableRow.Statement (.bsize x y z) := ⟨_, rfl, rfl⟩
theorem TableRow.clz (x y z : Word) : TableRow.Statement (.clz x y z) := ⟨_, rfl, rfl⟩
theorem TableRow.ctz (x y z : Word) : TableRow.Statement (.ctz x y z) := ⟨_, rfl, rfl⟩
theorem TableRow.rdbits (x y z : Word) : TableRow.Statement (.rdbits x y z) := ⟨_, rfl, rfl⟩
theorem TableRow.wrbits (x y z : Word) : TableRow.Statement (.wrbits x y z) := ⟨_, rfl, rfl⟩
theorem TableRow.cnt1 (x y z : Word) : TableRow.Statement (.cnt1 x y z) := ⟨_, rfl, rfl⟩
theorem TableRow.sel1 (x y z : Word) : TableRow.Statement (.sel1 x y z) := ⟨_, rfl, rfl⟩
theorem TableRow.sel0 (x y z : Word) : TableRow.Statement (.sel0 x y z) := ⟨_, rfl, rfl⟩
theorem TableRow.pred1 (x y z : Word) : TableRow.Statement (.pred1 x y z) := ⟨_, rfl, rfl⟩
theorem TableRow.succ1 (x y z : Word) : TableRow.Statement (.succ1 x y z) := ⟨_, rfl, rfl⟩
theorem TableRow.pred0 (x y z : Word) : TableRow.Statement (.pred0 x y z) := ⟨_, rfl, rfl⟩
theorem TableRow.succ0 (x y z : Word) : TableRow.Statement (.succ0 x y z) := ⟨_, rfl, rfl⟩
theorem TableRow.movbits (x y z : Word) : TableRow.Statement (.movbits x y z) := ⟨_, rfl, rfl⟩
theorem TableRow.cpybits (x y z : Word) : TableRow.Statement (.cpybits x y z) := ⟨_, rfl, rfl⟩
theorem TableRow.rvInit (x y z : Word) : TableRow.Statement (.rvInit x y z) := ⟨_, rfl, rfl⟩
theorem TableRow.rvAppend (x y z : Word) : TableRow.Statement (.rvAppend x y z) := ⟨_, rfl, rfl⟩
theorem TableRow.rvRank1 (x y z : Word) : TableRow.Statement (.rvRank1 x y z) := ⟨_, rfl, rfl⟩
theorem TableRow.rvRank0 (x y z : Word) : TableRow.Statement (.rvRank0 x y z) := ⟨_, rfl, rfl⟩
theorem TableRow.rvSel1 (x y z : Word) : TableRow.Statement (.rvSel1 x y z) := ⟨_, rfl, rfl⟩
theorem TableRow.rvSel0 (x y z : Word) : TableRow.Statement (.rvSel0 x y z) := ⟨_, rfl, rfl⟩
theorem TableRow.rvPred1 (x y z : Word) : TableRow.Statement (.rvPred1 x y z) := ⟨_, rfl, rfl⟩
theorem TableRow.rvSucc1 (x y z : Word) : TableRow.Statement (.rvSucc1 x y z) := ⟨_, rfl, rfl⟩
theorem TableRow.rvPred0 (x y z : Word) : TableRow.Statement (.rvPred0 x y z) := ⟨_, rfl, rfl⟩
theorem TableRow.rvSucc0 (x y z : Word) : TableRow.Statement (.rvSucc0 x y z) := ⟨_, rfl, rfl⟩
theorem TableRow.rvShorten (x y z : Word) : TableRow.Statement (.rvShorten x y z) := ⟨_, rfl, rfl⟩
theorem TableRow.rvNones (x y z : Word) : TableRow.Statement (.rvNones x y z) := ⟨_, rfl, rfl⟩
theorem TableRow.rvNzeros (x y z : Word) : TableRow.Statement (.rvNzeros x y z) := ⟨_, rfl, rfl⟩
theorem TableRow.rvCap (x y z : Word) : TableRow.Statement (.rvCap x y z) := ⟨_, rfl, rfl⟩
theorem TableRow.rvRebase (x y z : Word) : TableRow.Statement (.rvRebase x y z) := ⟨_, rfl, rfl⟩
theorem TableRow.rvBit (x y z : Word) : TableRow.Statement (.rvBit x y z) := ⟨_, rfl, rfl⟩
theorem TableRow.pkCfg (x y z : Word) : TableRow.Statement (.pkCfg x y z) := ⟨_, rfl, rfl⟩
theorem TableRow.pkRd (x y z : Word) : TableRow.Statement (.pkRd x y z) := ⟨_, rfl, rfl⟩
theorem TableRow.pkWr (x y z : Word) : TableRow.Statement (.pkWr x y z) := ⟨_, rfl, rfl⟩
theorem TableRow.pkAppend (x y z : Word) : TableRow.Statement (.pkAppend x y z) := ⟨_, rfl, rfl⟩
theorem TableRow.pkResize (x y z : Word) : TableRow.Statement (.pkResize x y z) := ⟨_, rfl, rfl⟩
theorem TableRow.pkClear (x y z : Word) : TableRow.Statement (.pkClear x y z) := ⟨_, rfl, rfl⟩
theorem TableRow.pkConvert (x y z : Word) : TableRow.Statement (.pkConvert x y z) := ⟨_, rfl, rfl⟩
theorem TableRow.pkSeek (x y z : Word) : TableRow.Statement (.pkSeek x y z) := ⟨_, rfl, rfl⟩
theorem TableRow.pkAdv (x y z : Word) : TableRow.Statement (.pkAdv x y z) := ⟨_, rfl, rfl⟩
theorem TableRow.pkItrd (x y z : Word) : TableRow.Statement (.pkItrd x y z) := ⟨_, rfl, rfl⟩
theorem TableRow.pkItwr (x y z : Word) : TableRow.Statement (.pkItwr x y z) := ⟨_, rfl, rfl⟩
theorem TableRow.pkRebase (x y z : Word) : TableRow.Statement (.pkRebase x y z) := ⟨_, rfl, rfl⟩
theorem TableRow.pkCap (x y z : Word) : TableRow.Statement (.pkCap x y z) := ⟨_, rfl, rfl⟩

end Sys2Proof.Laws
end

