-- ==== Sys2Proof/Laws/State.lean ====
section
/-! SUPPORT. The small lemmas of the state's updates: one per field per update, true by rfl. -/

namespace Sys2Proof.Machine

/-! ### Responding -/

@[simp] theorem State.respond_build (s : State) (st : BitVec 8) (r : Word) : (s.respond st r).build = s.build := rfl
@[simp] theorem State.respond_mem (s : State) (st : BitVec 8) (r : Word) : (s.respond st r).mem = s.mem := rfl
@[simp] theorem State.respond_top (s : State) (st : BitVec 8) (r : Word) : (s.respond st r).top = s.top := rfl
@[simp] theorem State.respond_mid (s : State) (st : BitVec 8) (r : Word) : (s.respond st r).mid = s.mid := rfl
@[simp] theorem State.respond_faulted (s : State) (st : BitVec 8) (r : Word) : (s.respond st r).faulted = s.faulted := rfl
@[simp] theorem State.respond_fcause (s : State) (st : BitVec 8) (r : Word) : (s.respond st r).fcause = s.fcause := rfl
@[simp] theorem State.respond_fcw (s : State) (st : BitVec 8) (r : Word) : (s.respond st r).fcw = s.fcw := rfl
@[simp] theorem State.respond_finfo (s : State) (st : BitVec 8) (r : Word) : (s.respond st r).finfo = s.finfo := rfl
@[simp] theorem State.respond_rvbase (s : State) (st : BitVec 8) (r : Word) : (s.respond st r).rvbase = s.rvbase := rfl
@[simp] theorem State.respond_rvsize (s : State) (st : BitVec 8) (r : Word) : (s.respond st r).rvsize = s.rvsize := rfl
@[simp] theorem State.respond_rvcap (s : State) (st : BitVec 8) (r : Word) : (s.respond st r).rvcap = s.rvcap := rfl
@[simp] theorem State.respond_pkbase (s : State) (st : BitVec 8) (r : Word) : (s.respond st r).pkbase = s.pkbase := rfl
@[simp] theorem State.respond_pkw (s : State) (st : BitVec 8) (r : Word) : (s.respond st r).pkw = s.pkw := rfl
@[simp] theorem State.respond_pksize (s : State) (st : BitVec 8) (r : Word) : (s.respond st r).pksize = s.pksize := rfl
@[simp] theorem State.respond_pkcap (s : State) (st : BitVec 8) (r : Word) : (s.respond st r).pkcap = s.pkcap := rfl
@[simp] theorem State.respond_pkwords (s : State) (st : BitVec 8) (r : Word) : (s.respond st r).pkwords = s.pkwords := rfl
@[simp] theorem State.respond_pkidx (s : State) (st : BitVec 8) (r : Word) : (s.respond st r).pkidx = s.pkidx := rfl
@[simp] theorem State.respond_port (s : State) (st : BitVec 8) (r : Word) : (s.respond st r).port = s.port := rfl
@[simp] theorem State.respond_responses (s : State) (st : BitVec 8) (r : Word) : (s.respond st r).responses = s.responses ++ [⟨st, r⟩] := rfl
@[simp] theorem State.respond_tick (s : State) (st : BitVec 8) (r : Word) : (s.respond st r).tick = s.tick := rfl

/-! ### Taking a fault -/

@[simp] theorem State.takeFault_build (s : State) (c : FaultCode) (cw : BitVec 32) (a : Word) : (s.takeFault c cw a).build = s.build := rfl
@[simp] theorem State.takeFault_mem (s : State) (c : FaultCode) (cw : BitVec 32) (a : Word) : (s.takeFault c cw a).mem = s.mem := rfl
@[simp] theorem State.takeFault_top (s : State) (c : FaultCode) (cw : BitVec 32) (a : Word) : (s.takeFault c cw a).top = s.top := rfl
@[simp] theorem State.takeFault_mid (s : State) (c : FaultCode) (cw : BitVec 32) (a : Word) : (s.takeFault c cw a).mid = s.mid := rfl
@[simp] theorem State.takeFault_faulted (s : State) (c : FaultCode) (cw : BitVec 32) (a : Word) : (s.takeFault c cw a).faulted = true := rfl
@[simp] theorem State.takeFault_fcause (s : State) (c : FaultCode) (cw : BitVec 32) (a : Word) : (s.takeFault c cw a).fcause = c.number := rfl
@[simp] theorem State.takeFault_fcw (s : State) (c : FaultCode) (cw : BitVec 32) (a : Word) : (s.takeFault c cw a).fcw = cw := rfl
@[simp] theorem State.takeFault_finfo (s : State) (c : FaultCode) (cw : BitVec 32) (a : Word) : (s.takeFault c cw a).finfo = a := rfl
@[simp] theorem State.takeFault_rvbase (s : State) (c : FaultCode) (cw : BitVec 32) (a : Word) : (s.takeFault c cw a).rvbase = s.rvbase := rfl
@[simp] theorem State.takeFault_rvsize (s : State) (c : FaultCode) (cw : BitVec 32) (a : Word) : (s.takeFault c cw a).rvsize = s.rvsize := rfl
@[simp] theorem State.takeFault_rvcap (s : State) (c : FaultCode) (cw : BitVec 32) (a : Word) : (s.takeFault c cw a).rvcap = s.rvcap := rfl
@[simp] theorem State.takeFault_pkbase (s : State) (c : FaultCode) (cw : BitVec 32) (a : Word) : (s.takeFault c cw a).pkbase = s.pkbase := rfl
@[simp] theorem State.takeFault_pkw (s : State) (c : FaultCode) (cw : BitVec 32) (a : Word) : (s.takeFault c cw a).pkw = s.pkw := rfl
@[simp] theorem State.takeFault_pksize (s : State) (c : FaultCode) (cw : BitVec 32) (a : Word) : (s.takeFault c cw a).pksize = s.pksize := rfl
@[simp] theorem State.takeFault_pkcap (s : State) (c : FaultCode) (cw : BitVec 32) (a : Word) : (s.takeFault c cw a).pkcap = s.pkcap := rfl
@[simp] theorem State.takeFault_pkwords (s : State) (c : FaultCode) (cw : BitVec 32) (a : Word) : (s.takeFault c cw a).pkwords = s.pkwords := rfl
@[simp] theorem State.takeFault_pkidx (s : State) (c : FaultCode) (cw : BitVec 32) (a : Word) : (s.takeFault c cw a).pkidx = s.pkidx := rfl
@[simp] theorem State.takeFault_port (s : State) (c : FaultCode) (cw : BitVec 32) (a : Word) : (s.takeFault c cw a).port = s.port := rfl
@[simp] theorem State.takeFault_responses (s : State) (c : FaultCode) (cw : BitVec 32) (a : Word) : (s.takeFault c cw a).responses = s.responses ++ [⟨c.number, 0#64⟩] := rfl
@[simp] theorem State.takeFault_tick (s : State) (c : FaultCode) (cw : BitVec 32) (a : Word) : (s.takeFault c cw a).tick = s.tick := rfl

/-! ### Reset -/

@[simp] theorem State.takeReset_build (s : State) (m t : List (Nat × BitVec 64)) (d : List (Nat × BitVec 16)) : (s.takeReset m t d).build = s.build := rfl
@[simp] theorem State.takeReset_mem (s : State) (m t : List (Nat × BitVec 64)) (d : List (Nat × BitVec 16)) : (s.takeReset m t d).mem = Memory.ofList s.build.nwords m := rfl
@[simp] theorem State.takeReset_top (s : State) (m t : List (Nat × BitVec 64)) (d : List (Nat × BitVec 16)) : (s.takeReset m t d).top = Memory.ofList s.build.ntop t := rfl
@[simp] theorem State.takeReset_mid (s : State) (m t : List (Nat × BitVec 64)) (d : List (Nat × BitVec 16)) : (s.takeReset m t d).mid = Memory.ofList s.build.nmid d := rfl
@[simp] theorem State.takeReset_faulted (s : State) (m t : List (Nat × BitVec 64)) (d : List (Nat × BitVec 16)) : (s.takeReset m t d).faulted = false := rfl
@[simp] theorem State.takeReset_fcause (s : State) (m t : List (Nat × BitVec 64)) (d : List (Nat × BitVec 16)) : (s.takeReset m t d).fcause = 0#8 := rfl
@[simp] theorem State.takeReset_fcw (s : State) (m t : List (Nat × BitVec 64)) (d : List (Nat × BitVec 16)) : (s.takeReset m t d).fcw = 0#32 := rfl
@[simp] theorem State.takeReset_finfo (s : State) (m t : List (Nat × BitVec 64)) (d : List (Nat × BitVec 16)) : (s.takeReset m t d).finfo = 0#64 := rfl
@[simp] theorem State.takeReset_rvbase (s : State) (m t : List (Nat × BitVec 64)) (d : List (Nat × BitVec 16)) : (s.takeReset m t d).rvbase = 0#64 := rfl
@[simp] theorem State.takeReset_rvsize (s : State) (m t : List (Nat × BitVec 64)) (d : List (Nat × BitVec 16)) : (s.takeReset m t d).rvsize = 0#64 := rfl
@[simp] theorem State.takeReset_rvcap (s : State) (m t : List (Nat × BitVec 64)) (d : List (Nat × BitVec 16)) : (s.takeReset m t d).rvcap = 0#64 := rfl
@[simp] theorem State.takeReset_pkbase (s : State) (m t : List (Nat × BitVec 64)) (d : List (Nat × BitVec 16)) : (s.takeReset m t d).pkbase = 0#64 := rfl
@[simp] theorem State.takeReset_pkw (s : State) (m t : List (Nat × BitVec 64)) (d : List (Nat × BitVec 16)) : (s.takeReset m t d).pkw = 1#7 := rfl
@[simp] theorem State.takeReset_pksize (s : State) (m t : List (Nat × BitVec 64)) (d : List (Nat × BitVec 16)) : (s.takeReset m t d).pksize = 0#64 := rfl
@[simp] theorem State.takeReset_pkcap (s : State) (m t : List (Nat × BitVec 64)) (d : List (Nat × BitVec 16)) : (s.takeReset m t d).pkcap = 0#64 := rfl
@[simp] theorem State.takeReset_pkwords (s : State) (m t : List (Nat × BitVec 64)) (d : List (Nat × BitVec 16)) : (s.takeReset m t d).pkwords = 0#64 := rfl
@[simp] theorem State.takeReset_pkidx (s : State) (m t : List (Nat × BitVec 64)) (d : List (Nat × BitVec 16)) : (s.takeReset m t d).pkidx = 0#64 := rfl
@[simp] theorem State.takeReset_port (s : State) (m t : List (Nat × BitVec 64)) (d : List (Nat × BitVec 16)) : (s.takeReset m t d).port = s.port := rfl
@[simp] theorem State.takeReset_responses (s : State) (m t : List (Nat × BitVec 64)) (d : List (Nat × BitVec 16)) : (s.takeReset m t d).responses = [] := rfl
@[simp] theorem State.takeReset_tick (s : State) (m t : List (Nat × BitVec 64)) (d : List (Nat × BitVec 16)) : (s.takeReset m t d).tick = s.tick := rfl

/-! ### Placing a packet at the port -/

@[simp] theorem State.withFetchWord_build (s : State) (n w : Nat) : (s.withFetchWord n w).build = s.build := rfl
@[simp] theorem State.withFetchWord_mem (s : State) (n w : Nat) : (s.withFetchWord n w).mem = s.mem := rfl
@[simp] theorem State.withFetchWord_top (s : State) (n w : Nat) : (s.withFetchWord n w).top = s.top := rfl
@[simp] theorem State.withFetchWord_mid (s : State) (n w : Nat) : (s.withFetchWord n w).mid = s.mid := rfl
@[simp] theorem State.withFetchWord_faulted (s : State) (n w : Nat) : (s.withFetchWord n w).faulted = s.faulted := rfl
@[simp] theorem State.withFetchWord_fcause (s : State) (n w : Nat) : (s.withFetchWord n w).fcause = s.fcause := rfl
@[simp] theorem State.withFetchWord_fcw (s : State) (n w : Nat) : (s.withFetchWord n w).fcw = s.fcw := rfl
@[simp] theorem State.withFetchWord_finfo (s : State) (n w : Nat) : (s.withFetchWord n w).finfo = s.finfo := rfl
@[simp] theorem State.withFetchWord_rvbase (s : State) (n w : Nat) : (s.withFetchWord n w).rvbase = s.rvbase := rfl
@[simp] theorem State.withFetchWord_rvsize (s : State) (n w : Nat) : (s.withFetchWord n w).rvsize = s.rvsize := rfl
@[simp] theorem State.withFetchWord_rvcap (s : State) (n w : Nat) : (s.withFetchWord n w).rvcap = s.rvcap := rfl
@[simp] theorem State.withFetchWord_pkbase (s : State) (n w : Nat) : (s.withFetchWord n w).pkbase = s.pkbase := rfl
@[simp] theorem State.withFetchWord_pkw (s : State) (n w : Nat) : (s.withFetchWord n w).pkw = s.pkw := rfl
@[simp] theorem State.withFetchWord_pksize (s : State) (n w : Nat) : (s.withFetchWord n w).pksize = s.pksize := rfl
@[simp] theorem State.withFetchWord_pkcap (s : State) (n w : Nat) : (s.withFetchWord n w).pkcap = s.pkcap := rfl
@[simp] theorem State.withFetchWord_pkwords (s : State) (n w : Nat) : (s.withFetchWord n w).pkwords = s.pkwords := rfl
@[simp] theorem State.withFetchWord_pkidx (s : State) (n w : Nat) : (s.withFetchWord n w).pkidx = s.pkidx := rfl
@[simp] theorem State.withFetchWord_port (s : State) (n w : Nat) : (s.withFetchWord n w).port = .request (BitVec.ofNat 224 (w % 2 ^ n)) :: s.port := rfl
@[simp] theorem State.withFetchWord_responses (s : State) (n w : Nat) : (s.withFetchWord n w).responses = s.responses := rfl
@[simp] theorem State.withFetchWord_tick (s : State) (n w : Nat) : (s.withFetchWord n w).tick = s.tick := rfl

/-! ### Measures that only depend on some fields -/

@[simp] theorem State.respond_bits (s : State) (st : BitVec 8) (r : Word) : (s.respond st r).bits = s.bits := rfl

@[simp] theorem State.respond_vsize (s : State) (st : BitVec 8) (r : Word) : (s.respond st r).vsize = s.vsize := rfl

@[simp] theorem State.respond_vbit (s : State) (st : BitVec 8) (r : Word) (i : Nat) :
    (s.respond st r).vbit i = s.vbit i := rfl

@[simp] theorem State.respond_vones (s : State) (st : BitVec 8) (r : Word) (a b : Nat) :
    (s.respond st r).vones a b = s.vones a b := rfl

@[simp] theorem State.respond_epos (s : State) (st : BitVec 8) (r : Word) (i : Nat) :
    (s.respond st r).epos i = s.epos i := rfl

@[simp] theorem State.respond_summariesHold (s : State) (st : BitVec 8) (r : Word) :
    (s.respond st r).summariesHold = s.summariesHold := rfl

end Sys2Proof.Machine
end

