-- ==== Sys2Proof/Laws/Run.lean ====
section
/-! SUPPORT. What a command and a step can do, said once. -/

namespace Sys2Proof.Machine

/-- A command of an unlocked engine that completes. -/
theorem runCommand_done {op : BitVec 8} {a : Word} {s t : State} {r : Word} (h : s.faulted = false) :
    runCommand op a s (.done r t) = .next (t.respond statusOk r) := by simp [runCommand, h]

/-- A command of an unlocked engine that faults. -/
theorem runCommand_raise {op : BitVec 8} {a : Word} {s : State} {c : FaultCode} (h : s.faulted = false) :
    runCommand op a s (.raise c) = .next (s.takeFault c (op.setWidth 32) a) := by simp [runCommand, h]

/-- A command of an unlocked engine that would leave the address spaces. -/
theorem runCommand_stop {op : BitVec 8} {a : Word} {s : State} {f : Fault} (h : s.faulted = false) :
    runCommand op a s (.stop f) = .fault f := by simp [runCommand, h]

/-- A command of a locked engine (60_exceptions.md R286). -/
theorem runCommand_locked {op : BitVec 8} {a : Word} {s : State} {reply : Reply} (h : s.faulted = true) :
    runCommand op a s reply = .next (s.respond statusLocked 0#64) := by simp [runCommand, h]

/-- Everything a command can do when it answers a next state. -/
theorem runCommand_cases {op : BitVec 8} {a : Word} {s t : State} {reply : Reply}
    (h : runCommand op a s reply = .next t) :
    (s.faulted = true ∧ t = s.respond statusLocked 0#64) ∨
    (s.faulted = false ∧ ∃ r u, reply = .done r u ∧ t = u.respond statusOk r) ∨
    (s.faulted = false ∧ ∃ c, reply = .raise c ∧ t = s.takeFault c (op.setWidth 32) a) := by
  unfold runCommand at h
  split at h
  · next hf => exact .inl ⟨hf, by cases h; rfl⟩
  · next hf =>
    have hf : s.faulted = false := by simpa using hf
    split at h
    · cases h; exact .inr (.inl ⟨hf, _, _, rfl, rfl⟩)
    · cases h; exact .inr (.inr ⟨hf, _, rfl, rfl⟩)
    · cases h

/-- `CSRR` of a register's number, locked or not (44_system.md R240). -/
theorem execCsrr_register {num : Word} {s : State} {r : Csr} (h : csrOf num.toNat = some r) :
    execCsrr num s = .next (s.respond statusOk (s.csr r)) := by simp [execCsrr, h]

/-- `CSRR` of another number. -/
theorem execCsrr_other {num : Word} {s : State} (h : csrOf num.toNat = none) :
    execCsrr num s = runCommand 0x01#8 num s (.raise .csrnum) := by simp [execCsrr, h]

/-- A step with nothing at the port. -/
theorem step_idle {s : State} (h : s.port = []) : step s = .next s := by simp [step, h]

/-- A step that takes a reset. -/
theorem step_reset {s : State} {m t : List (Nat × BitVec 64)} {d : List (Nat × BitVec 16)} {rest : List HostInput}
    (h : s.port = .reset m t d :: rest) : step s = .next (State.takeReset { s with port := rest } m t d) := by
  simp [step, h]

/-- Everything a step can do when it answers a next state. -/
theorem step_cases {s t : State} (h : step s = .next t) :
    (s.port = [] ∧ t = s) ∨
    (∃ m tp d rest, s.port = .reset m tp d :: rest ∧ t = State.takeReset { s with port := rest } m tp d) ∨
    (∃ p rest i, s.port = .request p :: rest ∧ decode p = .command i ∧
      exec i { s with port := rest, tick := s.tick + 1 } = .next t) ∨
    (∃ p rest why, s.port = .request p :: rest ∧ decode p = .illegal why ∧
      illegalPacket p { s with port := rest, tick := s.tick + 1 } = .next t) := by
  unfold step at h
  split at h
  · next hp => cases h; exact .inl ⟨hp, rfl⟩
  · next p rest hp =>
    unfold answerRequest at h
    split at h
    · next i hd => exact .inr (.inr (.inl ⟨p, rest, i, hp, hd, h⟩))
    · next why hd => exact .inr (.inr (.inr ⟨p, rest, why, hp, hd, h⟩))
  · next m tp d rest hp => cases h; exact .inr (.inl ⟨m, tp, d, rest, hp, rfl⟩)

/-- Everything the answer to a packet that is no command can be: it is always a next state. -/
theorem illegalPacket_cases (p : BitVec 224) (s : State) :
    (s.faulted = true ∧ illegalPacket p s = .next (s.respond statusLocked 0#64)) ∨
    (s.faulted = false ∧ illegalPacket p s = .next (s.takeFault .illegal (commandWord p) (fieldA p))) := by
  unfold illegalPacket
  cases s.faulted <;> simp

end Sys2Proof.Machine
end

