-- ==== Sys2Proof/Tests/Slice0.lean ====
section
/-! SUPPORT. Tests: what is ill formed is refused, packets written out from the layout of 30_encoding.md R100 decode,
one step on the examples of the spec, and a witness for the hypotheses of every statement. Expected values are those
of the "Example" lines and of 95_test_vectors.md, or computed by hand from the rule a comment names. -/

namespace Sys2Proof.Tests

-- One theorem after the other: a thread for each would need more memory than the check allows.
set_option Elab.async false

open Sys2Proof Sys2Proof.Machine

/-! ### Helpers -/

/-- The build of the examples of 43_rank_select.md. -/
def testBuild : Build := { nwords := 32, bt := 256, bm := 64, rvmax := 1024 }

/-- The memory of 95_test_vectors.md section 2.2: four words. -/
def fourWords : State :=
  State.afterReset { testBuild with nwords := 4 }
    [(0, 0xF00000000000000F#64), (1, 0xA5#64), (3, 0x8000000000000000#64)] [] [] [] 0

/-- A state of the test build with the given words. -/
def withWords (m : Memory 64) : State := State.afterReset testBuild m [] [] [] 0

/-- The example vector of 43_rank_select.md at words 4 to 8, and the packed vector of 42_packed_int.md R172 at word
2. -/
def vectors : State :=
  { State.afterReset testBuild
      [(2, 0x2A8007FD5#64), (4, 0x9249249249249249#64), (5, 0x4924924924924924#64), (6, 0x2492492492492492#64),
       (7, 0x9249249249249249#64), (8, 0x0000024924924924#64)]
      [(0, 86#64), (1, 100#64)] [(0, 22#16), (1, 43#16), (2, 64#16), (3, 14#16)] [] 0 with
    rvbase := 4#64, rvsize := 300#64, rvcap := 640#64
    pkbase := 2#64, pkw := 7#7, pksize := 5#64, pkcap := 18#64, pkwords := 2#64, pkidx := 3#64 }

/-- `vectors` with one wrong entry of `TOP`. -/
def broken : State := { vectors with top := [(0, 85#64), (1, 100#64)] }

/-- `vectors` after the fault of `CSRR 0x05` (44_system.md R240). -/
def locked : State := { vectors with faulted := true, fcause := 9#8, fcw := 1#32, finfo := 5#64 }

/-- The next state, if there is one. -/
def after (o : Host.Outcome State Fault Refusal) : Option State :=
  match o with
  | .next t => some t
  | _ => none

/-- Status and result of the answer to a command. -/
def answer (i : Instr) (s : State) : Option (BitVec 8 × Word) :=
  (after (exec i s)).bind fun t => t.responses.getLast?.map fun r => (r.st, r.result)

/-- The words `0..n-1` of `M` after a command, with its status. -/
def wordsAfter (i : Instr) (s : State) (n : Nat) : Option (BitVec 8 × List Word) :=
  (after (exec i s)).bind fun t =>
    t.responses.getLast?.map fun r => (r.st, (List.range n).map fun a => t.mem.read a)

theorem next_of_after {o : Host.Outcome State Fault Refusal} {t : State} (h : after o = some t) : o = .next t := by
  cases o <;> simp_all [after]

/-! ### What is ill formed -/

theorem test_legal_builds : testBuild.legal = true ∧ Config.defaultBuild.legal = true := by decide +kernel

theorem test_no_words_is_illegal : Build.legal ⟨0, 256, 64, 1024⟩ = false := by decide +kernel

theorem test_too_many_words_are_illegal :
    Build.legal ⟨(2 ^ 52), 256, 64, 1024⟩ = false ∧ Build.legal ⟨(2 ^ 52 - 1), 256, 64, 1024⟩ = true :=
  by decide +kernel

theorem test_top_block_not_a_power_is_illegal : Build.legal ⟨32, 384, 64, 768⟩ = false := by decide +kernel

theorem test_middle_block_not_a_power_is_illegal : Build.legal ⟨32, 256, 96, 1024⟩ = false := by decide +kernel

theorem test_small_middle_block_is_illegal : Build.legal ⟨32, 256, 32, 1024⟩ = false := by decide +kernel

theorem test_equal_blocks_are_illegal : Build.legal ⟨32, 256, 256, 1024⟩ = false := by decide +kernel

theorem test_large_top_block_is_illegal :
    Build.legal ⟨32, 65536, 64, 65536⟩ = false ∧ Build.legal ⟨32, 32768, 64, 32768⟩ = true := by decide +kernel

theorem test_rvmax_zero_is_illegal : Build.legal ⟨32, 256, 64, 0⟩ = false := by decide +kernel

theorem test_rvmax_no_multiple_is_illegal : Build.legal ⟨32, 256, 64, 1000⟩ = false := by decide +kernel

theorem test_rvmax_above_its_register_is_illegal : Build.legal ⟨32, 256, 64, (2 ^ 64)⟩ = false := by decide +kernel

theorem test_reserved_bits_are_refused :
    decode 0x0000010000000000100#224 = .illegal .reservedBits ∧
    Packet.wellFormed 0x80000010#224 = false ∧ decode 0x80000010#224 = .illegal .reservedBits :=
  by decide +kernel

/-- The ends of every range of unassigned opcodes (30_encoding.md R105). -/
theorem test_unassigned_opcodes_are_refused :
    (∀ op ∈ [0x00, 0x02, 0x0F, 0x14, 0x1F, 0x2B, 0x2F, 0x4D, 0xFF],
      decode (BitVec.ofNat 224 op) = .illegal .unassignedOpcode ∧ Packet.wellFormed (BitVec.ofNat 224 op) = false) := by
  decide +kernel

theorem test_zero_packet_is_refused : decode 0#224 = .illegal .unassignedOpcode := by decide +kernel

theorem test_f0_ignores_all :
    Instr.assembled (.rvNones 1#64 0#64 0#64) = false ∧
    Instr.assembled (.rvNones 0#64 1#64 0#64) = false ∧ Instr.assembled (.rvNones 0#64 0#64 1#64) = false :=
  by decide +kernel

theorem test_f1_ignores_b_and_c :
    Instr.assembled (.popc 1#64 1#64 0#64) = false ∧
    Instr.assembled (.popc 1#64 0#64 1#64) = false ∧ Instr.assembled (.popc 1#64 0#64 0#64) = true :=
  by decide +kernel

theorem test_f2_ignores_c :
    Instr.assembled (.rdbits 1#64 1#64 1#64) = false ∧ Instr.assembled (.rdbits 1#64 1#64 0#64) = true :=
  by decide +kernel

theorem test_f3_ignores_nothing : Instr.assembled (.wrbits 1#64 1#64 1#64) = true := by decide +kernel

/-! ### Packets written out: C, B, A, the reserved bits and the opcode of 30_encoding.md R104 -/

theorem decode_csrr :
    decode 0x0123456789ABCDEFFEDCBA9876543210800000000000000100000001#224 =
    .command (.csrr 0x8000000000000001#64 0xFEDCBA9876543210#64 0x0123456789ABCDEF#64) :=
  by decide +kernel

theorem decode_popc :
    decode 0x0123456789ABCDEFFEDCBA9876543210800000000000000100000010#224 =
    .command (.popc 0x8000000000000001#64 0xFEDCBA9876543210#64 0x0123456789ABCDEF#64) :=
  by decide +kernel

theorem decode_bsize :
    decode 0x0123456789ABCDEFFEDCBA9876543210800000000000000100000011#224 =
    .command (.bsize 0x8000000000000001#64 0xFEDCBA9876543210#64 0x0123456789ABCDEF#64) :=
  by decide +kernel

theorem decode_clz :
    decode 0x0123456789ABCDEFFEDCBA9876543210800000000000000100000012#224 =
    .command (.clz 0x8000000000000001#64 0xFEDCBA9876543210#64 0x0123456789ABCDEF#64) :=
  by decide +kernel

theorem decode_ctz :
    decode 0x0123456789ABCDEFFEDCBA9876543210800000000000000100000013#224 =
    .command (.ctz 0x8000000000000001#64 0xFEDCBA9876543210#64 0x0123456789ABCDEF#64) :=
  by decide +kernel

theorem decode_rdbits :
    decode 0x0123456789ABCDEFFEDCBA9876543210800000000000000100000020#224 =
    .command (.rdbits 0x8000000000000001#64 0xFEDCBA9876543210#64 0x0123456789ABCDEF#64) :=
  by decide +kernel

theorem decode_wrbits :
    decode 0x0123456789ABCDEFFEDCBA9876543210800000000000000100000021#224 =
    .command (.wrbits 0x8000000000000001#64 0xFEDCBA9876543210#64 0x0123456789ABCDEF#64) :=
  by decide +kernel

theorem decode_cnt1 :
    decode 0x0123456789ABCDEFFEDCBA9876543210800000000000000100000022#224 =
    .command (.cnt1 0x8000000000000001#64 0xFEDCBA9876543210#64 0x0123456789ABCDEF#64) :=
  by decide +kernel

theorem decode_sel1 :
    decode 0x0123456789ABCDEFFEDCBA9876543210800000000000000100000023#224 =
    .command (.sel1 0x8000000000000001#64 0xFEDCBA9876543210#64 0x0123456789ABCDEF#64) :=
  by decide +kernel

theorem decode_sel0 :
    decode 0x0123456789ABCDEFFEDCBA9876543210800000000000000100000024#224 =
    .command (.sel0 0x8000000000000001#64 0xFEDCBA9876543210#64 0x0123456789ABCDEF#64) :=
  by decide +kernel

theorem decode_pred1 :
    decode 0x0123456789ABCDEFFEDCBA9876543210800000000000000100000025#224 =
    .command (.pred1 0x8000000000000001#64 0xFEDCBA9876543210#64 0x0123456789ABCDEF#64) :=
  by decide +kernel

theorem decode_succ1 :
    decode 0x0123456789ABCDEFFEDCBA9876543210800000000000000100000026#224 =
    .command (.succ1 0x8000000000000001#64 0xFEDCBA9876543210#64 0x0123456789ABCDEF#64) :=
  by decide +kernel

theorem decode_pred0 :
    decode 0x0123456789ABCDEFFEDCBA9876543210800000000000000100000027#224 =
    .command (.pred0 0x8000000000000001#64 0xFEDCBA9876543210#64 0x0123456789ABCDEF#64) :=
  by decide +kernel

theorem decode_succ0 :
    decode 0x0123456789ABCDEFFEDCBA9876543210800000000000000100000028#224 =
    .command (.succ0 0x8000000000000001#64 0xFEDCBA9876543210#64 0x0123456789ABCDEF#64) :=
  by decide +kernel

theorem decode_movbits :
    decode 0x0123456789ABCDEFFEDCBA9876543210800000000000000100000029#224 =
    .command (.movbits 0x8000000000000001#64 0xFEDCBA9876543210#64 0x0123456789ABCDEF#64) :=
  by decide +kernel

theorem decode_cpybits :
    decode 0x0123456789ABCDEFFEDCBA987654321080000000000000010000002A#224 =
    .command (.cpybits 0x8000000000000001#64 0xFEDCBA9876543210#64 0x0123456789ABCDEF#64) :=
  by decide +kernel

theorem decode_rvInit :
    decode 0x0123456789ABCDEFFEDCBA9876543210800000000000000100000030#224 =
    .command (.rvInit 0x8000000000000001#64 0xFEDCBA9876543210#64 0x0123456789ABCDEF#64) :=
  by decide +kernel

theorem decode_rvAppend :
    decode 0x0123456789ABCDEFFEDCBA9876543210800000000000000100000031#224 =
    .command (.rvAppend 0x8000000000000001#64 0xFEDCBA9876543210#64 0x0123456789ABCDEF#64) :=
  by decide +kernel

theorem decode_rvRank1 :
    decode 0x0123456789ABCDEFFEDCBA9876543210800000000000000100000032#224 =
    .command (.rvRank1 0x8000000000000001#64 0xFEDCBA9876543210#64 0x0123456789ABCDEF#64) :=
  by decide +kernel

theorem decode_rvRank0 :
    decode 0x0123456789ABCDEFFEDCBA9876543210800000000000000100000033#224 =
    .command (.rvRank0 0x8000000000000001#64 0xFEDCBA9876543210#64 0x0123456789ABCDEF#64) :=
  by decide +kernel

theorem decode_rvSel1 :
    decode 0x0123456789ABCDEFFEDCBA9876543210800000000000000100000034#224 =
    .command (.rvSel1 0x8000000000000001#64 0xFEDCBA9876543210#64 0x0123456789ABCDEF#64) :=
  by decide +kernel

theorem decode_rvSel0 :
    decode 0x0123456789ABCDEFFEDCBA9876543210800000000000000100000035#224 =
    .command (.rvSel0 0x8000000000000001#64 0xFEDCBA9876543210#64 0x0123456789ABCDEF#64) :=
  by decide +kernel

theorem decode_rvPred1 :
    decode 0x0123456789ABCDEFFEDCBA9876543210800000000000000100000036#224 =
    .command (.rvPred1 0x8000000000000001#64 0xFEDCBA9876543210#64 0x0123456789ABCDEF#64) :=
  by decide +kernel

theorem decode_rvSucc1 :
    decode 0x0123456789ABCDEFFEDCBA9876543210800000000000000100000037#224 =
    .command (.rvSucc1 0x8000000000000001#64 0xFEDCBA9876543210#64 0x0123456789ABCDEF#64) :=
  by decide +kernel

theorem decode_rvPred0 :
    decode 0x0123456789ABCDEFFEDCBA9876543210800000000000000100000038#224 =
    .command (.rvPred0 0x8000000000000001#64 0xFEDCBA9876543210#64 0x0123456789ABCDEF#64) :=
  by decide +kernel

theorem decode_rvSucc0 :
    decode 0x0123456789ABCDEFFEDCBA9876543210800000000000000100000039#224 =
    .command (.rvSucc0 0x8000000000000001#64 0xFEDCBA9876543210#64 0x0123456789ABCDEF#64) :=
  by decide +kernel

theorem decode_rvShorten :
    decode 0x0123456789ABCDEFFEDCBA987654321080000000000000010000003A#224 =
    .command (.rvShorten 0x8000000000000001#64 0xFEDCBA9876543210#64 0x0123456789ABCDEF#64) :=
  by decide +kernel

theorem decode_rvNones :
    decode 0x0123456789ABCDEFFEDCBA987654321080000000000000010000003B#224 =
    .command (.rvNones 0x8000000000000001#64 0xFEDCBA9876543210#64 0x0123456789ABCDEF#64) :=
  by decide +kernel

theorem decode_rvNzeros :
    decode 0x0123456789ABCDEFFEDCBA987654321080000000000000010000003C#224 =
    .command (.rvNzeros 0x8000000000000001#64 0xFEDCBA9876543210#64 0x0123456789ABCDEF#64) :=
  by decide +kernel

theorem decode_rvCap :
    decode 0x0123456789ABCDEFFEDCBA987654321080000000000000010000003D#224 =
    .command (.rvCap 0x8000000000000001#64 0xFEDCBA9876543210#64 0x0123456789ABCDEF#64) :=
  by decide +kernel

theorem decode_rvRebase :
    decode 0x0123456789ABCDEFFEDCBA987654321080000000000000010000003E#224 =
    .command (.rvRebase 0x8000000000000001#64 0xFEDCBA9876543210#64 0x0123456789ABCDEF#64) :=
  by decide +kernel

theorem decode_rvBit :
    decode 0x0123456789ABCDEFFEDCBA987654321080000000000000010000003F#224 =
    .command (.rvBit 0x8000000000000001#64 0xFEDCBA9876543210#64 0x0123456789ABCDEF#64) :=
  by decide +kernel

theorem decode_pkCfg :
    decode 0x0123456789ABCDEFFEDCBA9876543210800000000000000100000040#224 =
    .command (.pkCfg 0x8000000000000001#64 0xFEDCBA9876543210#64 0x0123456789ABCDEF#64) :=
  by decide +kernel

theorem decode_pkRd :
    decode 0x0123456789ABCDEFFEDCBA9876543210800000000000000100000041#224 =
    .command (.pkRd 0x8000000000000001#64 0xFEDCBA9876543210#64 0x0123456789ABCDEF#64) :=
  by decide +kernel

theorem decode_pkWr :
    decode 0x0123456789ABCDEFFEDCBA9876543210800000000000000100000042#224 =
    .command (.pkWr 0x8000000000000001#64 0xFEDCBA9876543210#64 0x0123456789ABCDEF#64) :=
  by decide +kernel

theorem decode_pkAppend :
    decode 0x0123456789ABCDEFFEDCBA9876543210800000000000000100000043#224 =
    .command (.pkAppend 0x8000000000000001#64 0xFEDCBA9876543210#64 0x0123456789ABCDEF#64) :=
  by decide +kernel

theorem decode_pkResize :
    decode 0x0123456789ABCDEFFEDCBA9876543210800000000000000100000044#224 =
    .command (.pkResize 0x8000000000000001#64 0xFEDCBA9876543210#64 0x0123456789ABCDEF#64) :=
  by decide +kernel

theorem decode_pkClear :
    decode 0x0123456789ABCDEFFEDCBA9876543210800000000000000100000045#224 =
    .command (.pkClear 0x8000000000000001#64 0xFEDCBA9876543210#64 0x0123456789ABCDEF#64) :=
  by decide +kernel

theorem decode_pkConvert :
    decode 0x0123456789ABCDEFFEDCBA9876543210800000000000000100000046#224 =
    .command (.pkConvert 0x8000000000000001#64 0xFEDCBA9876543210#64 0x0123456789ABCDEF#64) :=
  by decide +kernel

theorem decode_pkSeek :
    decode 0x0123456789ABCDEFFEDCBA9876543210800000000000000100000047#224 =
    .command (.pkSeek 0x8000000000000001#64 0xFEDCBA9876543210#64 0x0123456789ABCDEF#64) :=
  by decide +kernel

theorem decode_pkAdv :
    decode 0x0123456789ABCDEFFEDCBA9876543210800000000000000100000048#224 =
    .command (.pkAdv 0x8000000000000001#64 0xFEDCBA9876543210#64 0x0123456789ABCDEF#64) :=
  by decide +kernel

theorem decode_pkItrd :
    decode 0x0123456789ABCDEFFEDCBA9876543210800000000000000100000049#224 =
    .command (.pkItrd 0x8000000000000001#64 0xFEDCBA9876543210#64 0x0123456789ABCDEF#64) :=
  by decide +kernel

theorem decode_pkItwr :
    decode 0x0123456789ABCDEFFEDCBA987654321080000000000000010000004A#224 =
    .command (.pkItwr 0x8000000000000001#64 0xFEDCBA9876543210#64 0x0123456789ABCDEF#64) :=
  by decide +kernel

theorem decode_pkRebase :
    decode 0x0123456789ABCDEFFEDCBA987654321080000000000000010000004B#224 =
    .command (.pkRebase 0x8000000000000001#64 0xFEDCBA9876543210#64 0x0123456789ABCDEF#64) :=
  by decide +kernel

theorem decode_pkCap :
    decode 0x0123456789ABCDEFFEDCBA987654321080000000000000010000004C#224 =
    .command (.pkCap 0x8000000000000001#64 0xFEDCBA9876543210#64 0x0123456789ABCDEF#64) :=
  by decide +kernel

theorem test_table_word :
    decodeTableWord 32 0x2A = some (.cpybits 0#64 0#64 0#64) ∧ decodeTableWord 32 0 = none := by decide +kernel

/-- 95_test_vectors.md: the response to `RDBITS 60, 8`. -/
theorem test_response_packet : Response.pack ⟨0x00#8, 0x5F#64⟩ = 0x5F00#72 := by decide +kernel

/-! ### One command each -/

theorem test_csrr : answer (.csrr 0x19#64 0x77#64 0x77#64) vectors = some (0x00#8, 7#64) := by decide +kernel

/-- 44_system.md R240: CSRNUM, and what the fault records. -/
theorem test_csrr_fault :
    after (exec (.csrr 5#64 1#64 2#64) vectors) =
    some { locked with responses := [⟨9#8, 0#64⟩] } :=
  by decide +kernel

theorem test_popc : answer (.popc 0xF0F0#64 0x77#64 0x77#64) fourWords = some (0x00#8, 8#64) := by decide +kernel

theorem test_popc_of_zero : answer (.popc 0#64 0x77#64 0x77#64) fourWords = some (0x00#8, 0#64) := by decide +kernel

theorem test_bsize : answer (.bsize 0x3E8#64 0x77#64 0x77#64) fourWords = some (0x00#8, 0xA#64) := by decide +kernel

theorem test_bsize_of_zero : answer (.bsize 0#64 0x77#64 0x77#64) fourWords = some (0x00#8, 1#64) := by decide +kernel

theorem test_clz :
    answer (.clz 0xFF000000000000#64 0x77#64 0x77#64) fourWords = some (0x00#8, 8#64) := by decide +kernel

theorem test_clz_of_zero : answer (.clz 0#64 0x77#64 0x77#64) fourWords = some (0x00#8, 0x40#64) := by decide +kernel

theorem test_ctz : answer (.ctz 0x28#64 0x77#64 0x77#64) fourWords = some (0x00#8, 3#64) := by decide +kernel

theorem test_ctz_of_zero : answer (.ctz 0#64 0x77#64 0x77#64) fourWords = some (0x00#8, 0x40#64) := by decide +kernel

/-- 95_test_vectors.md section 2.1. -/
theorem test_byte_walk :
    sel1w 0xF00000000000000F#64 5 = some 60 ∧ sel0w 0xF00000000000000F#64 1 = some 4 ∧
    sel0w 0#64 64 = some 63 ∧ sel8 0xA5#8 3 = some 5 :=
  by decide +kernel

theorem test_rdbits : answer (.rdbits 0x3C#64 8#64 0x77#64) fourWords = some (0x00#8, 0x5F#64) := by decide +kernel

theorem test_rdbits_does_not_wrap :
    answer (.rdbits 0xFFFFFFFFFFFFFFFF#64 1#64 0x77#64) fourWords = some (0x03#8, 0#64) := by decide +kernel

theorem test_wrbits :
    wordsAfter (.wrbits 0x3C#64 8#64 0x3C#64) fourWords 4 =
    some (0x00#8, [0xC00000000000000F#64, 0xA3#64, 0#64, 0x8000000000000000#64]) :=
  by decide +kernel

theorem test_wrbits_value :
    wordsAfter (.wrbits 0#64 0#64 1#64) fourWords 4 =
    some (0x04#8, [0xF00000000000000F#64, 0xA5#64, 0#64, 0x8000000000000000#64]) :=
  by decide +kernel

theorem test_cnt1 : answer (.cnt1 0#64 0x40#64 0x77#64) fourWords = some (0x00#8, 9#64) := by decide +kernel

theorem test_cnt1_before_its_base :
    answer (.cnt1 1#64 0x3F#64 0x77#64) fourWords = some (0x03#8, 0#64) := by decide +kernel

theorem test_sel1 : answer (.sel1 1#64 5#64 0x77#64) fourWords = some (0x00#8, 0xFF#64) := by decide +kernel

theorem test_sel1_beyond_the_population :
    answer (.sel1 0#64 0xE#64 0x77#64) fourWords = some (0x05#8, 0#64) := by decide +kernel

theorem test_sel0 : answer (.sel0 0#64 0x39#64 0x77#64) fourWords = some (0x00#8, 0x41#64) := by decide +kernel

theorem test_sel0_beyond_the_population :
    answer (.sel0 2#64 0x80#64 0x77#64) fourWords = some (0x05#8, 0#64) := by decide +kernel

theorem test_pred1 : answer (.pred1 0xFE#64 3#64 0x77#64) fourWords = some (0x00#8, 0x47#64) := by decide +kernel

theorem test_pred1_window : answer (.pred1 0#64 2#64 0x77#64) fourWords = some (0x03#8, 0#64) := by decide +kernel

theorem test_succ1 : answer (.succ1 0x48#64 3#64 0x77#64) fourWords = some (0x00#8, 0xFF#64) := by decide +kernel

theorem test_succ1_not_found :
    answer (.succ1 0x48#64 2#64 0x77#64) fourWords = some (0x00#8, 0xFFFFFFFFFFFFFFFF#64) := by decide +kernel

theorem test_pred0 : answer (.pred0 0x40#64 2#64 0x77#64) fourWords = some (0x00#8, 0x3B#64) := by decide +kernel

theorem test_pred0_not_found :
    answer (.pred0 3#64 1#64 0x77#64) fourWords = some (0x00#8, 0xFFFFFFFFFFFFFFFF#64) := by decide +kernel

theorem test_succ0 : answer (.succ0 0x3C#64 2#64 0x77#64) fourWords = some (0x00#8, 0x41#64) := by decide +kernel

theorem test_succ0_not_found :
    answer (.succ0 0x3C#64 1#64 0x77#64) fourWords = some (0x00#8, 0xFFFFFFFFFFFFFFFF#64) := by decide +kernel

theorem test_movbits :
    wordsAfter (.movbits 0#64 4#64 0x40#64) (withWords [(0, 0x0123456789ABCDEF#64)]) 2 =
    some (0x00#8, [0x123456789ABCDEFF#64, 0#64]) :=
  by decide +kernel

theorem test_movbits_backward :
    wordsAfter (.movbits 4#64 0#64 0x40#64) (withWords [(0, 0x0123456789ABCDEF#64), (1, 0xF#64)]) 2 =
    some (0x00#8, [0xF0123456789ABCDE#64, 0xF#64]) :=
  by decide +kernel

theorem test_cpybits :
    wordsAfter (.cpybits 0#64 0x20#64 0x20#64) (withWords [(0, 0x0123456789ABCDEF#64)]) 1 =
    some (0x00#8, [0x89ABCDEF89ABCDEF#64]) :=
  by decide +kernel

theorem test_cpybits_overlap :
    wordsAfter (.cpybits 0#64 0x1F#64 0x20#64) (withWords [(0, 0x0123456789ABCDEF#64)]) 1 =
    some (0x06#8, [0x123456789ABCDEF#64]) :=
  by decide +kernel

theorem test_rv_init :
    after (exec (.rvInit 31#64 64#64 0#64) vectors) =
    some { vectors with rvbase := 31#64, rvcap := 64#64, rvsize := 0#64, responses := [⟨0#8, 64#64⟩] } :=
  by decide +kernel

theorem test_rv_init_capacity :
    answer (.rvInit 0#64 0x401#64 0x77#64) vectors = some (0x07#8, 0#64) := by decide +kernel

/-- 70_reset_and_hazards.md R312: without `RV.INIT` the capacity is 0. -/
theorem test_rv_append_opens_a_block :
    (after (exec (.rvAppend 1#64 0#64 0#64) (withWords []))).isNone = false ∧
    answer (.rvAppend 1#64 0#64 0#64) (withWords []) = some (7#8, 0#64) :=
  by decide +kernel

/-- 43_rank_select.md R211 by hand: position 300 is in top-block 1 and middle-block 4, whose entry is `MID[3]`. -/
theorem test_rv_append :
    (after (exec (.rvAppend 1#64 0#64 0#64) vectors)).map (fun t => (t.top, t.mid.read 3, t.mem.read 8, t.rvsize)) =
      some ([(0, 86#64), (1, 101#64)], 15#16, 0x0000124924924924#64, 301#64) := by
  decide +kernel

theorem test_rv_rank1 :
    answer (.rvRank1 0x100#64 0x77#64 0x77#64) vectors = some (0x00#8, 0x56#64) := by decide +kernel

theorem test_rv_rank1_of_the_last :
    answer (.rvRank1 0x12B#64 0x77#64 0x77#64) vectors = some (0x00#8, 0x64#64) := by decide +kernel

theorem test_rv_rank0 :
    answer (.rvRank0 0x12B#64 0x77#64 0x77#64) vectors = some (0x00#8, 0xC8#64) := by decide +kernel

theorem test_rv_rank0_index :
    answer (.rvRank0 0x12C#64 0x77#64 0x77#64) vectors = some (0x08#8, 0#64) := by decide +kernel

theorem test_rv_sel1 : answer (.rvSel1 0x57#64 0x77#64 0x77#64) vectors = some (0x00#8, 0x102#64) := by decide +kernel

theorem test_rv_sel1_rank :
    answer (.rvSel1 0x65#64 0x77#64 0x77#64) vectors = some (0x05#8, 0#64) := by decide +kernel

theorem test_rv_sel0 : answer (.rvSel0 0xAA#64 0x77#64 0x77#64) vectors = some (0x00#8, 0xFE#64) := by decide +kernel

theorem test_rv_sel0_of_the_last :
    answer (.rvSel0 0xC8#64 0x77#64 0x77#64) vectors = some (0x00#8, 0x12B#64) := by decide +kernel

theorem test_rv_pred1 :
    answer (.rvPred1 0x12B#64 0x77#64 0x77#64) vectors = some (0x00#8, 0x129#64) := by decide +kernel

theorem test_rv_pred1_below :
    answer (.rvPred1 2#64 0x77#64 0x77#64) vectors = some (0x00#8, 0#64) := by decide +kernel

theorem test_rv_succ1 : answer (.rvSucc1 1#64 0x77#64 0x77#64) vectors = some (0x00#8, 3#64) := by decide +kernel

theorem test_rv_succ1_not_found :
    answer (.rvSucc1 0x12A#64 0x77#64 0x77#64) vectors = some (0x00#8, 0xFFFFFFFFFFFFFFFF#64) := by decide +kernel

theorem test_rv_pred0 :
    answer (.rvPred0 0#64 0x77#64 0x77#64) vectors = some (0x00#8, 0xFFFFFFFFFFFFFFFF#64) := by decide +kernel

theorem test_rv_pred0_index :
    answer (.rvPred0 0x12C#64 0x77#64 0x77#64) vectors = some (0x08#8, 0#64) := by decide +kernel

theorem test_rv_succ0 :
    answer (.rvSucc0 0x129#64 0x77#64 0x77#64) vectors = some (0x00#8, 0x12A#64) := by decide +kernel

theorem test_rv_succ0_of_zero :
    answer (.rvSucc0 0#64 0x77#64 0x77#64) vectors = some (0x00#8, 1#64) := by decide +kernel

theorem test_rv_bit : answer (.rvBit 3#64 0x77#64 0x77#64) vectors = some (0x00#8, 1#64) := by decide +kernel

theorem test_rv_bit_without_summaries :
    answer (.rvBit 4#64 0x77#64 0x77#64) broken = some (0x00#8, 0#64) := by decide +kernel

/-- 43_rank_select.md R221: the example `RV.SHORTEN 130`. -/
theorem test_rv_shorten :
    (after (exec (.rvShorten 130#64 0#64 0#64) vectors)).map (fun t => (t.top, t.mid, t.mem, t.rvsize)) =
      some ([(0, 44#64), (1, 100#64)], [(0, 22#16), (1, 43#16), (2, 44#16), (3, 14#16)], vectors.mem, 130#64) := by
  decide +kernel

/-- 43_rank_select.md R221: the example `RV.SHORTEN 256`, whose last middle-block has no entry. -/
theorem test_rv_shorten_to_a_block :
    (after (exec (.rvShorten 256#64 0#64 0#64) vectors)).map (fun t => (t.top, t.mid, t.rvsize)) =
      some (vectors.top, vectors.mid, 256#64) := by
  decide +kernel

theorem test_rv_nones :
    answer (.rvNones 0x77#64 0x77#64 0x77#64) vectors = some (0x00#8, 0x64#64) := by decide +kernel

theorem test_rv_nones_of_nothing :
    answer (.rvNones 0x77#64 0x77#64 0x77#64) fourWords = some (0x00#8, 0#64) := by decide +kernel

theorem test_rv_nzeros :
    answer (.rvNzeros 0x77#64 0x77#64 0x77#64) vectors = some (0x00#8, 0xC8#64) := by decide +kernel

theorem test_rv_cap : answer (.rvCap 0#64 0x77#64 0x77#64) vectors = some (0x00#8, 0x140#64) := by decide +kernel

theorem test_rv_cap_capacity :
    answer (.rvCap 0x401#64 0x77#64 0x77#64) vectors = some (0x07#8, 0#64) := by decide +kernel

theorem test_rv_rebase :
    after (exec (.rvRebase 16#64 0#64 0#64) { vectors with rvcap := 1024#64 }) =
    some { vectors with rvcap := 1024#64, rvbase := 16#64, responses := [⟨0#8, 0#64⟩] } :=
  by decide +kernel

theorem test_rv_rebase_bounds :
    answer (.rvRebase 17#64 0#64 0#64) { vectors with rvcap := 1024#64 } = some (3#8, 0#64) := by decide +kernel

theorem test_pk_cfg :
    after (exec (.pkCfg 2#64 7#64 10#64) fourWords) =
    some { fourWords with
      pkbase := 2#64, pkw := 7#7, pkcap := 18#64, pkwords := 2#64, responses := [⟨0#8, 18#64⟩] } :=
  by decide +kernel

theorem test_pk_cfg_bounds : answer (.pkCfg 3#64 0x40#64 2#64) fourWords = some (0x03#8, 0#64) := by decide +kernel

theorem test_pk_rd : answer (.pkRd 3#64 0x77#64 0x77#64) vectors = some (0x00#8, 0x40#64) := by decide +kernel

theorem test_pk_rd_index : answer (.pkRd 5#64 0x77#64 0x77#64) vectors = some (0x08#8, 0#64) := by decide +kernel

theorem test_pk_wr :
    (after (exec (.pkWr 1#64 0x11#64 0#64) vectors)).map (fun t => t.mem.read 2) = some 0x2A80048D5#64 :=
  by decide +kernel

theorem test_pk_wr_value : answer (.pkWr 1#64 0x80#64 0x77#64) vectors = some (0x04#8, 0#64) := by decide +kernel

/-- 42_packed_int.md R174 by hand: element 5 lies at bits 35 to 41 of the words. -/
theorem test_pk_append :
    (after (exec (.pkAppend 0x7F#64 0#64 0#64) vectors)).map (fun t => (t.mem.read 2, t.pksize)) =
    some (0x3FAA8007FD5#64, 6#64) :=
  by decide +kernel

theorem test_pk_append_capacity :
    answer (.pkAppend 0x80#64 0#64 0#64) { vectors with pksize := 18#64 } = some (7#8, 0#64) := by decide +kernel

theorem test_pk_resize :
    after (exec (.pkResize 18#64 0#64 0#64) vectors) =
    some { vectors with pksize := 18#64, responses := [⟨0#8, 1#64⟩] } :=
  by decide +kernel

theorem test_pk_resize_refused :
    after (exec (.pkResize 19#64 0#64 0#64) vectors) = some { vectors with responses := [⟨0#8, 0#64⟩] } :=
  by decide +kernel

theorem test_pk_clear :
    after (exec (.pkClear 0#64 0#64 0#64) vectors) =
    some { vectors with pksize := 0#64, responses := [⟨0#8, 0#64⟩] } :=
  by decide +kernel

/-- 42_packed_int.md R178: the example, elements 0x55, 0x11, 0x7E, 0x40, 0x2A. -/
theorem test_pk_convert_wider :
    (after (exec (.pkConvert 9#64 0#64 0#64) { vectors with mem := [(2, 0x2A81F88D5#64)], rvsize := 0#64 })).map
      (fun t => (t.mem, t.pkw, t.pkcap)) = some ([(2, 0x2A201F82255#64)], 9#7, 14#64) := by
  decide +kernel

/-- 42_packed_int.md R178: the example goes on, with left-over bits above the narrowed elements. -/
theorem test_pk_convert_narrower :
    (after (exec (.pkConvert 3#64 0#64 0#64)
        { vectors with mem := [(2, 0x2A201F82255#64)], rvsize := 0#64, pkw := 9#7, pkcap := 14#64 })).map
      (fun t => (t.mem, t.pkw, t.pkcap)) = some ([(2, 0x2A201F8218D#64)], 3#7, 42#64) := by
  decide +kernel

theorem test_pk_seek :
    after (exec (.pkSeek 4#64 0#64 0#64) vectors) =
    some { vectors with pkidx := 4#64, responses := [⟨0#8, 0#64⟩] } :=
  by decide +kernel

/-- 42_packed_int.md R180 by hand: 3 less 2. -/
theorem test_pk_adv :
    answer (.pkAdv 0xFFFFFFFFFFFFFFFE#64 0x77#64 0x77#64) vectors = some (0x00#8, 1#64) := by decide +kernel

theorem test_pk_itrd : answer (.pkItrd 0x77#64 0x77#64 0x77#64) vectors = some (0x00#8, 0x40#64) := by decide +kernel

theorem test_pk_itrd_index :
    answer (.pkItrd 0#64 0#64 0#64) { vectors with pkidx := 5#64 } = some (8#8, 0#64) := by decide +kernel

theorem test_pk_itwr :
    (after (exec (.pkItwr 0x7E#64 0#64 0#64)
        { vectors with mem := [(2, 0x2A80048D5#64)], pkidx := 2#64 })).map (fun t => t.mem.read 2) =
      some 0x2A81F88D5#64 :=
  by decide +kernel

theorem test_pk_itwr_value :
    answer (.pkItwr 0x80#64 0x77#64 0x77#64) vectors = some (0x04#8, 0#64) := by decide +kernel

theorem test_pk_rebase : answer (.pkRebase 0x1E#64 0x77#64 0x77#64) vectors = some (0x00#8, 0#64) := by decide +kernel

theorem test_pk_rebase_bounds :
    answer (.pkRebase 0x1F#64 0x77#64 0x77#64) vectors = some (0x03#8, 0#64) := by decide +kernel

theorem test_pk_cap :
    after (exec (.pkCap 0#64 0#64 0#64) { vectors with pkw := 3#7, pksize := 42#64, pkcap := 64#64, pkwords := 3#64 }) =
    some { vectors with pkw := 3#7, pksize := 42#64, pkcap := 42#64, pkwords := 2#64, responses := [⟨0#8, 42#64⟩] } :=
  by decide +kernel

/-- 42_packed_int.md R177 by hand: 66 words from word 2 on do not fit in 32. -/
theorem test_pk_cap_bounds :
    answer (.pkCap 0x258#64 0x77#64 0x77#64) vectors = some (0x03#8, 0#64) := by decide +kernel

/-! ### Steps -/

/-- 60_exceptions.md R282: the record of an illegal packet. -/
theorem test_illegal_packet :
    after (step (vectors.withFetchWord 224 0x55_00000102)) =
      some { vectors with
        faulted := true, fcause := 1#8, fcw := 0x102#32, finfo := 0x55#64, responses := [⟨1#8, 0#64⟩], tick := 1 } := by
  decide +kernel

/-- 60_exceptions.md R286: a locked engine answers LOCKED. -/
theorem test_locked :
    after (step (locked.withFetchWord 32 0x10)) = some { locked with responses := [⟨0x0A#8, 0#64⟩], tick := 1 } := by
  decide +kernel

/-- 60_exceptions.md R286: a locked engine reads FCAUSE. -/
theorem test_locked_csrr :
    after (step (locked.withFetchWord 96 0x900000001)) = some { locked with responses := [⟨0#8, 9#64⟩], tick := 1 } := by
  decide +kernel

/-- 70_reset_and_hazards.md R310: reset unlocks; pairs outside a memory are no part of it. -/
theorem test_reset :
    after (step { locked with port := [.reset [(3, 7#64), (32, 1#64)] [(4, 1#64)] [(0, 5#16)]] }) =
      some (State.afterReset testBuild [(3, 7#64)] [] [(0, 5#16)] [] 0) := by
  decide +kernel

/-- 30_encoding.md R108, R109: a comment, a stated response, `.rept`, an expression. The operand of `LDW` is
evaluated before the expansion (log entry 12). -/
theorem test_assemble_text :
    assembleText "MOVBITS 0, 64, 64*(6-1) -> OK 0 ; move\n.rept 2\n  RV.APPEND 1\n.endr\nLDW 1+1" =
      some [.movbits 0#64 64#64 320#64, .rvAppend 1#64 0#64 0#64, .rvAppend 1#64 0#64 0#64,
        .rdbits 128#64 64#64 0#64] := by
  decide +kernel

/-- 30_encoding.md R108: `-n` is `2^64 - n`, a register's name is for `CSRR` only, operands lie below 2^64. -/
theorem test_assemble_operands :
    assembleText "PK.ADV -2\nCSRR RVSIZE" = some [.pkAdv 0xFFFFFFFFFFFFFFFE#64 0#64 0#64, .csrr 0x11#64 0#64 0#64] ∧
      assembleText "POPC RVSIZE" = none ∧ assembleText "POPC 0x10000000000000000" = none ∧
      assembleText "POPC 1-2" = none ∧ assembleText "RDBITS 60" = none := by
  decide +kernel

/-! ### The hypotheses of every statement can be met -/

theorem vectors_inv : vectors.Inv :=
  inv_iff.mpr (by decide +kernel)

theorem broken_inv : broken.Inv :=
  inv_iff.mpr (by decide +kernel)

theorem locked_inv : locked.Inv :=
  inv_iff.mpr (by decide +kernel)

theorem vectors_ready : vectors.Ready := ⟨vectors_inv, rfl⟩

theorem broken_ready : broken.Ready := ⟨broken_inv, rfl⟩

theorem vectors_summaries : vectors.summariesHold = true := by decide +kernel

theorem broken_summaries : broken.summariesHold = false := by decide +kernel

theorem full_ready : State.Ready { vectors with rvsize := 640#64 } :=
  ⟨inv_iff.mpr (by decide +kernel), rfl⟩

theorem nearly_full_ready : State.Ready { vectors with rvsize := 639#64 } :=
  ⟨inv_iff.mpr (by decide +kernel), rfl⟩

theorem packed_full_ready : State.Ready { vectors with pksize := 18#64 } :=
  ⟨inv_iff.mpr (by decide +kernel), rfl⟩

theorem packed_nearly_full_ready : State.Ready { vectors with pksize := 17#64 } :=
  ⟨inv_iff.mpr (by decide +kernel), rfl⟩

theorem iterator_at_end_ready : State.Ready { vectors with pkidx := 5#64 } :=
  ⟨inv_iff.mpr (by decide +kernel), rfl⟩

theorem iterator_at_last_ready : State.Ready { vectors with pkidx := 4#64 } :=
  ⟨inv_iff.mpr (by decide +kernel), rfl⟩

theorem witness_EncodeOfDecodeIsThePacket :
    decode 0x00000000000000000000000000000008000000000000003C00000020#224 = .command (.rdbits 0x3C#64 8#64 0#64) :=
  by decide +kernel

theorem witness_StepRunsTheDecodedCommand :
    (vectors.withFetchWord 224 0x0000000000000008000000000000003C00000020).port =
      [.request 0x00000000000000000000000000000008000000000000003C00000020#224] ∧
    decode 0x00000000000000000000000000000008000000000000003C00000020#224 = .command (.rdbits 0x3C#64 8#64 0#64) :=
  by decide +kernel

theorem witness_IllegalPacketTakesTheFault :
    (vectors.withFetchWord 32 0x4D).port = [.request 0x4D#224] ∧ (vectors.withFetchWord 32 0x4D).faulted = false ∧
    Packet.wellFormed 0x4D#224 = false ∧ Packet.wellFormed 0x80000001#224 = false :=
  by decide +kernel

theorem witness_IdleEngineHoldsItsState : State.reset.port = [] ∧ vectors.port = [] := by decide +kernel

theorem witness_ResetInputGivesTheResetValues :
    State.port { locked with port := [.reset [(0, 1#64)] [] []] } = .reset [(0, 1#64)] [] [] :: [] ∧
    locked.faulted = true :=
  by decide +kernel

theorem witness_StepKeepsTheInvariant :
    ∃ t, State.Inv (vectors.withFetchWord 96 0x100000031) ∧ step (vectors.withFetchWord 96 0x100000031) = .next t ∧
      t.rvsize = 301#64 := by
  refine ⟨((after (step (vectors.withFetchWord 96 0x100000031))).getD vectors), ?_, ?_, by decide +kernel⟩
  · exact inv_iff.mpr (by decide +kernel)
  · exact next_of_after (by decide +kernel)

theorem witness_InvariantStatesNeverStop : State.Inv (vectors.withFetchWord 96 0x5700000034) :=
  inv_iff.mpr (by decide +kernel)

theorem witness_StepNeverChangesTheBuild : step vectors = .next vectors := rfl

theorem witness_LockedEngineOnlyReadsRegisters :
    locked.faulted = true ∧ (locked.withFetchWord 96 0x1D00000001).port = [.request 0x1D00000001#224] ∧
      (0x1D#64, locked.pkidx) ∈ registerTable locked ∧ commandWord 0x1D00000001#224 = 0x00000001#32 ∧
      fieldA 0x1D00000001#224 = 0x1D#64 ∧ commandWord 0x101#224 ≠ 0x00000001#32 ∧
      ∀ e ∈ registerTable locked, fieldA 0x1E00000001#224 ≠ e.1 := by
  have last : fieldA 0x1E00000001#224 = 0x1E#64 := by decide +kernel
  refine ⟨rfl, by decide +kernel, by simp [registerTable], by decide +kernel, by decide +kernel, by decide +kernel, ?_⟩
  rw [last]
  simp [registerTable]

theorem witness_OnlyResetUnlocks :
    locked.faulted = true ∧ step (locked.withFetchWord 32 0x3B) =
        .next { locked with responses := [⟨0x0A#8, 0#64⟩], tick := 1 } ∧
      ∀ m tp d rest, (locked.withFetchWord 32 0x3B).port ≠ .reset m tp d :: rest := by
  refine ⟨rfl, next_of_after (by decide +kernel), ?_⟩
  intro m tp d rest h
  simp [State.withFetchWord] at h

theorem witness_CommandsCompleteOrFaultPrecisely :
    vectors.faulted = false ∧ exec (.rdbits 0#64 65#64 0#64) vectors = .next (vectors.takeFault .width 0x20#32 0#64) ∧
      exec (.popc 3#64 0#64 0#64) vectors = .next (vectors.respond 0#8 2#64) :=
  ⟨rfl, next_of_after (by decide +kernel), next_of_after (by decide +kernel)⟩

theorem witness_CommandsRaiseOnlyTheirFaults :
    vectors.faulted = false ∧ Faults (.cpybits 0#64 1#64 2#64) vectors .overlap :=
  ⟨rfl, next_of_after (by decide +kernel)⟩

theorem witness_EveryRequestGetsOneResponse :
    (vectors.withFetchWord 32 0x3B).port = .request 0x3B#224 :: [] ∧
      step (vectors.withFetchWord 32 0x3B) = .next { vectors with responses := [⟨0#8, 100#64⟩], tick := 1 } :=
  ⟨by decide +kernel, next_of_after (by decide +kernel)⟩

theorem witness_OtherCommandsLeaveTheSummaries :
    isRankVector (.pkCap 0#64 0#64 0#64) = false ∧ isRankVector (.cpybits 0#64 0#64 0#64) = false ∧
      exec (.pkSeek 1#64 0#64 0#64) vectors = .next (State.respond { vectors with pkidx := 1#64 } 0#8 0#64) :=
  ⟨rfl, rfl, next_of_after (by decide +kernel)⟩

theorem witness_CsrrReadsTheRegisterTable :
    (0x00#64, 0x0000000042524501#64) ∈ registerTable vectors ∧ (0x1D#64, vectors.pkidx) ∈ registerTable vectors ∧
      (∀ e ∈ registerTable vectors, e.1 ≠ 0x1E#64) ∧ (∀ e ∈ registerTable locked, e.1 ≠ 0x05#64) ∧
      vectors.faulted = false ∧ locked.faulted = true :=
  ⟨by simp [registerTable], by simp [registerTable], by simp [registerTable], by simp [registerTable], rfl, rfl⟩

theorem witness_PopcCountsTheOneBits : vectors.faulted = false := rfl

theorem witness_BsizeIsTheLeastWidth : vectors.faulted = false := rfl

theorem witness_ClzCountsZerosFromTheTop :
    vectors.faulted = false ∧ 1#64 ≠ 0#64 ∧ 0x8000000000000000#64 ≠ 0#64 := by decide +kernel

theorem witness_CtzCountsZerosFromTheBottom :
    vectors.faulted = false ∧ 1#64 ≠ 0#64 ∧ 0x8000000000000000#64 ≠ 0#64 := by decide +kernel

/-- The first and the last position: 64 ones, and 64 zeros. -/
theorem witness_ByteWalkFindsTheKthBit :
    1 ≤ 64 ∧ 64 ≤ tally (0xFFFFFFFFFFFFFFFF#64).getLsbD 0 64 ∧ 64 ≤ 64 - tally (0#64).getLsbD 0 64 := by
  decide +kernel

/-- WIDTH from 65 on, BOUNDS from the first bit after `M` on, the last word of `M`. -/
theorem witness_RdbitsReturnsTheField :
    fourWords.faulted = false ∧
    64 < (65#64).toNat ∧
    ((1#64).toNat ≤ 64 ∧ 64 * fourWords.build.nwords < (256#64).toNat + (1#64).toNat) ∧
    ((64#64).toNat ≤ 64 ∧ (192#64).toNat + (64#64).toNat ≤ 64 * fourWords.build.nwords) :=
  by decide +kernel

theorem witness_WrbitsStoresExactlyTheField :
    fourWords.faulted = false ∧
    Memory.wf fourWords.mem ∧
    64 < (65#64).toNat ∧
    ((1#64).toNat ≤ 64 ∧ 64 * fourWords.build.nwords < (256#64).toNat + (1#64).toNat) ∧
    ((0#64).toNat ≤ 64 ∧ (256#64).toNat + (0#64).toNat ≤ 64 * fourWords.build.nwords ∧ 2 ^ (0#64).toNat ≤ (1#64).toNat) ∧
    ((63#64).toNat ≤ 64 ∧ (193#64).toNat + (63#64).toNat ≤ 64 * fourWords.build.nwords ∧
      (0x7FFFFFFFFFFFFFFF#64).toNat < 2 ^ (63#64).toNat) :=
  by decide +kernel

theorem witness_RdbitsAfterWrbitsReturnsTheValue :
    Memory.wf fourWords.mem ∧ fourWords.faulted = false ∧
      Answers (.wrbits 192#64 64#64 5#64) fourWords 0#64
        { fourWords with mem := [(0, 0xF00000000000000F#64), (1, 0xA5#64), (3, 5#64)] } :=
  ⟨by decide +kernel, rfl, next_of_after (by decide +kernel)⟩

theorem witness_CntCountsTheRegion :
    fourWords.faulted = false ∧
    (fourWords.build.nwords ≤ (4#64).toNat ∧ 64 * fourWords.build.nwords ≤ (256#64).toNat ∧ (63#64).toNat < 64 * (1#64).toNat) ∧
    ((3#64).toNat < fourWords.build.nwords ∧ (255#64).toNat < 64 * fourWords.build.nwords ∧
      64 * (3#64).toNat ≤ (192#64).toNat) :=
  by decide +kernel

theorem witness_SelectFindsTheKthBit :
    fourWords.faulted = false ∧ fourWords.build.nwords ≤ (4#64).toNat ∧ (3#64).toNat < fourWords.build.nwords ∧
      (0#64).toNat = 0 ∧ bitTally fourWords.mem true 192 256 < (2#64).toNat ∧ 1 ≤ (1#64).toNat ∧
      (1#64).toNat ≤ bitTally fourWords.mem true 192 256 ∧ (63#64).toNat ≤ bitTally fourWords.mem false 192 256 ∧
      bitTally fourWords.mem false 192 256 < (64#64).toNat := by
  decide +kernel

theorem witness_SelectedPositionsCountTheirRank :
    fourWords.faulted = false ∧ fourWords.build.nwords < 2 ^ 58 ∧
      Answers (.sel1 0#64 13#64 0#64) fourWords 255#64 fourWords :=
  ⟨rfl, by decide, next_of_after (by decide +kernel)⟩

theorem witness_PredecessorFindsTheNearestBit :
    fourWords.faulted = false ∧
    64 * fourWords.build.nwords ≤ (256#64).toNat ∧ (255#64).toNat / 64 + 1 < (5#64).toNat ∧
    (255#64).toNat < 64 * fourWords.build.nwords ∧ (4#64).toNat ≤ (255#64).toNat / 64 + 1 ∧
      (0#64).toNat ≤ (0#64).toNat / 64 + 1 :=
  by decide +kernel

theorem witness_SuccessorFindsTheNearestBit :
    fourWords.faulted = false ∧
    64 * fourWords.build.nwords ≤ (256#64).toNat ∧ fourWords.build.nwords < (255#64).toNat / 64 + (2#64).toNat ∧
    (255#64).toNat < 64 * fourWords.build.nwords ∧ (255#64).toNat / 64 + (1#64).toNat ≤ fourWords.build.nwords :=
  by decide +kernel

theorem witness_MovbitsMovesTheRegion :
    fourWords.faulted = false ∧
    Memory.wf fourWords.mem ∧
    64 * fourWords.build.nwords < (193#64).toNat + (64#64).toNat ∧
    (192#64).toNat + (64#64).toNat ≤ 64 * fourWords.build.nwords ∧
      (191#64).toNat + (64#64).toNat ≤ 64 * fourWords.build.nwords :=
  by decide +kernel

/-- Overlap by one bit; regions that touch. -/
theorem witness_CpybitsCopiesUnlessTheRegionsOverlapForward :
    fourWords.faulted = false ∧
    Memory.wf fourWords.mem ∧
    64 * fourWords.build.nwords < (193#64).toNat + (64#64).toNat ∧
    (192#64).toNat + (32#64).toNat ≤ 64 * fourWords.build.nwords ∧
      (223#64).toNat + (32#64).toNat ≤ 64 * fourWords.build.nwords ∧
    (0 < (32#64).toNat ∧ (192#64).toNat < (223#64).toNat ∧ (223#64).toNat < (192#64).toNat + (32#64).toNat) ∧
    ((192#64).toNat + (32#64).toNat ≤ (224#64).toNat ∧ (192#64).toNat ≤ (192#64).toNat ∧ (0#64).toNat = 0) :=
  by decide +kernel

theorem witness_DirectedMovesEqualTheMove : Memory.wf fourWords.mem ∧ (4 ≤ 5 ∧ 5 ≤ 5) := by decide +kernel

theorem witness_RvInitPlacesAnEmptyVector :
    fourWords.faulted = false ∧
    1088 = 64 * (((1025#64).toNat + 63) / 64) ∧ fourWords.build.rvmax < 1088 ∧
    1024 = 64 * (((1024#64).toNat + 63) / 64) ∧ 1024 ≤ fourWords.build.rvmax ∧
      fourWords.build.nwords < (0#64).toNat + 1024 / 64 ∧
    256 = 64 * (((193#64).toNat + 63) / 64) ∧ 256 ≤ fourWords.build.rvmax ∧
      (0#64).toNat + 256 / 64 ≤ fourWords.build.nwords :=
  by decide +kernel

theorem witness_RvAppendAppendsTheBit :
    State.Ready { vectors with rvsize := 640#64 } ∧ (640#64).toNat ≤ vectors.rvcap.toNat ∧
      State.Ready { vectors with rvsize := 639#64 } ∧ (639#64).toNat < vectors.rvcap.toNat ∧ 1 < (2#64).toNat ∧
      (1#64).toNat ≤ 1 ∧ vectors.Ready ∧ vectors.rvsize.toNat < vectors.rvcap.toNat ∧ vectors.summariesHold = true :=
  ⟨full_ready, by decide, nearly_full_ready, by decide, by decide, by decide, vectors_ready, by decide,
    vectors_summaries⟩

theorem witness_RvRankCountsTheBits :
    vectors.Ready ∧ vectors.summariesHold = true ∧ vectors.rvsize.toNat ≤ (300#64).toNat ∧ (299#64).toNat < vectors.rvsize.toNat ∧
      (0#64).toNat < vectors.rvsize.toNat :=
  ⟨vectors_ready, vectors_summaries, by decide +kernel⟩

theorem witness_RvSelectFindsTheKthBit :
    vectors.Ready ∧ vectors.summariesHold = true ∧ (0#64).toNat = 0 ∧
      vectorTally vectors true 0 vectors.rvsize.toNat < (101#64).toNat ∧ 1 ≤ (1#64).toNat ∧
      (100#64).toNat ≤ vectorTally vectors true 0 vectors.rvsize.toNat ∧
      vectorTally vectors false 0 vectors.rvsize.toNat < (201#64).toNat ∧
      (200#64).toNat ≤ vectorTally vectors false 0 vectors.rvsize.toNat :=
  ⟨vectors_ready, vectors_summaries, by decide +kernel⟩

theorem witness_RankAndSelectAreDual :
    vectors.Ready ∧ vectors.summariesHold = true ∧ (297#64).toNat < vectors.rvsize.toNat ∧
      vectors.vbit (297#64).toNat = true ∧ vectors.vbit (299#64).toNat = false ∧
      Answers (rvSelectOf true 100#64 0#64 0#64) vectors 297#64 vectors ∧
      Answers (rvSelectOf false 200#64 0#64 0#64) vectors 299#64 vectors :=
  ⟨vectors_ready, vectors_summaries, by decide, by decide +kernel, by decide +kernel,
    next_of_after (by decide +kernel), next_of_after (by decide +kernel)⟩

theorem witness_RvPredecessorFindsTheNearestBit :
    vectors.Ready ∧ vectors.summariesHold = true ∧ vectors.rvsize.toNat ≤ (300#64).toNat ∧ (299#64).toNat < vectors.rvsize.toNat ∧
      (0#64).toNat < vectors.rvsize.toNat :=
  ⟨vectors_ready, vectors_summaries, by decide +kernel⟩

theorem witness_RvSuccessorFindsTheNearestBit :
    vectors.Ready ∧ vectors.summariesHold = true ∧ vectors.rvsize.toNat ≤ (300#64).toNat ∧ (299#64).toNat < vectors.rvsize.toNat ∧
      (0#64).toNat < vectors.rvsize.toNat :=
  ⟨vectors_ready, vectors_summaries, by decide +kernel⟩

theorem witness_NeighboursByRankAreTheNeighbours :
    vectors.Inv ∧ vectors.summariesHold = true ∧ 0 < vectors.rvsize.toNat ∧ 299 < vectors.rvsize.toNat :=
  ⟨vectors_inv, vectors_summaries, by decide +kernel⟩

theorem witness_RvBitReadsTheBit :
    vectors.Ready ∧ vectors.summariesHold = true ∧ vectors.rvsize.toNat ≤ (300#64).toNat ∧ (299#64).toNat < vectors.rvsize.toNat ∧
      (0#64).toNat < vectors.rvsize.toNat :=
  ⟨vectors_ready, vectors_summaries, by decide +kernel⟩

theorem witness_RvCountsTheOnesAndTheZeros : vectors.Ready ∧ vectors.summariesHold = true :=
  ⟨vectors_ready, vectors_summaries⟩

theorem witness_RvShortenTruncatesTheVector :
    vectors.Ready ∧ vectors.summariesHold = true ∧ vectors.rvsize.toNat < (301#64).toNat ∧
      (300#64).toNat ≤ vectors.rvsize.toNat ∧ (0#64).toNat = 0 ∧ 1 ≤ (1#64).toNat ∧
      isStored vectors.build (((300#64).toNat - 1) / vectors.build.bm) = true :=
  ⟨vectors_ready, vectors_summaries, by decide +kernel⟩

theorem witness_RankSurvivesShorten :
    vectors.Ready ∧ vectors.summariesHold = true ∧ (129#64).toNat < (130#64).toNat ∧
      (130#64).toNat ≤ vectors.rvsize.toNat :=
  ⟨vectors_ready, vectors_summaries, by decide +kernel⟩

theorem witness_RvCapSetsTheCapacity :
    vectors.faulted = false ∧
      (1088 = 64 * ((max vectors.rvsize.toNat (1025#64).toNat + 63) / 64) ∧ vectors.build.rvmax < 1088) ∧
      (1024 = 64 * ((max vectors.rvsize.toNat (1024#64).toNat + 63) / 64) ∧ 1024 ≤ vectors.build.rvmax ∧
        vectors.rvbase.toNat + 1024 / 64 ≤ vectors.build.nwords ∧
        State.rvbase { vectors with rvbase := 17#64 } = 17#64 ∧ vectors.build.nwords < (17#64).toNat + 1024 / 64) ∧
      320 = 64 * ((max vectors.rvsize.toNat (0#64).toNat + 63) / 64) := by
  decide +kernel

theorem witness_RvRebaseMovesTheBaseOnly :
    vectors.faulted = false ∧ vectors.build.nwords < (23#64).toNat + vectors.rvcap.toNat / 64 ∧
      (22#64).toNat + vectors.rvcap.toNat / 64 ≤ vectors.build.nwords ∧ vectors.summariesHold = true ∧
      ∀ i, i < vectors.rvsize.toNat →
        bitAt vectors.mem (64 * (4#64).toNat + i) = bitAt vectors.mem (64 * vectors.rvbase.toNat + i) :=
  ⟨rfl, by decide, by decide, vectors_summaries, fun _ _ => rfl⟩

theorem witness_RankVectorCommandsKeepTheSummaries :
    isRankVector (.rvInit 0#64 0#64 0#64) = true ∧ isRankVector (.rvBit 0#64 0#64 0#64) = true ∧ vectors.Inv ∧
      vectors.summariesHold = true ∧
      exec (.rvCap 0#64 0#64 0#64) vectors = .next (State.respond { vectors with rvcap := 320#64 } 0#8 320#64) :=
  ⟨rfl, rfl, vectors_inv, vectors_summaries, next_of_after (by decide +kernel)⟩

theorem witness_QueriesWithoutSummariesStillAnswer :
    broken.Ready ∧ broken.summariesHold = false ∧ (299#64).toNat < broken.rvsize.toNat ∧ 1 ≤ (1#64).toNat :=
  ⟨broken_ready, broken_summaries, by decide, by decide⟩

theorem witness_PkCfgPlacesAnEmptyVector :
    fourWords.faulted = false ∧
    ((0#64).toNat < 1 ∧ 64 < (65#64).toNat) ∧
    (5 = ((5#64).toNat * (64#64).toNat + 63) / 64 ∧ fourWords.build.nwords < (0#64).toNat + 5) ∧
    (4 = ((4#64).toNat * (64#64).toNat + 63) / 64 ∧ 1 ≤ (64#64).toNat ∧ (64#64).toNat ≤ 64 ∧
      (0#64).toNat + 4 ≤ fourWords.build.nwords) ∧
    (1 ≤ (1#64).toNat ∧ (1#64).toNat ≤ 64) :=
  by decide +kernel

theorem witness_PkReadsReturnTheElement :
    vectors.Ready ∧ vectors.pksize.toNat ≤ (5#64).toNat ∧ (4#64).toNat < vectors.pksize.toNat ∧
      State.Ready { vectors with pkidx := 5#64 } ∧ vectors.pksize.toNat ≤ (5#64).toNat ∧
      State.Ready { vectors with pkidx := 4#64 } ∧ (4#64).toNat < vectors.pksize.toNat :=
  ⟨vectors_ready, by decide, by decide, iterator_at_end_ready, by decide, iterator_at_last_ready, by decide⟩

theorem witness_PkWritesStoreExactlyTheElement :
    vectors.Ready ∧ vectors.pksize.toNat ≤ (5#64).toNat ∧ (4#64).toNat < vectors.pksize.toNat ∧
      2 ^ vectors.pkw.toNat ≤ (128#64).toNat ∧ (127#64).toNat < 2 ^ vectors.pkw.toNat ∧
      State.Ready { vectors with pkidx := 5#64 } ∧ State.Ready { vectors with pkidx := 4#64 } :=
  ⟨vectors_ready, by decide, by decide, by decide, by decide, iterator_at_end_ready, iterator_at_last_ready⟩

theorem witness_PkAppendStoresTheNextElement :
    State.Ready { vectors with pksize := 18#64 } ∧ vectors.pkcap.toNat ≤ (18#64).toNat ∧
      State.Ready { vectors with pksize := 17#64 } ∧ (17#64).toNat < vectors.pkcap.toNat ∧
      2 ^ vectors.pkw.toNat ≤ (128#64).toNat ∧ (127#64).toNat < 2 ^ vectors.pkw.toNat :=
  ⟨packed_full_ready, by decide, packed_nearly_full_ready, by decide, by decide, by decide⟩

theorem witness_PackedElementsAreIndependent :
    vectors.Ready ∧ (4#64).toNat < vectors.pksize.toNat ∧ (127#64).toNat < 2 ^ vectors.pkw.toNat ∧
      3#64 ≠ 4#64 ∧ Answers (.pkRd 3#64 0#64 0#64) vectors 0x40#64 vectors :=
  ⟨vectors_ready, by decide, by decide, by decide, next_of_after (by decide +kernel)⟩

theorem witness_PkSizeAndIteratorCommands :
    vectors.faulted = false ∧ (18#64).toNat ≤ vectors.pkcap.toNat ∧ vectors.pkcap.toNat < (19#64).toNat := by
  decide +kernel

theorem witness_PkCapAndRebaseSetTheRegisters :
    vectors.Ready ∧ (31 = (max vectors.pksize.toNat (275#64).toNat * vectors.pkw.toNat + 63) / 64 ∧
        vectors.build.nwords < vectors.pkbase.toNat + 31) ∧
      (30 = (max vectors.pksize.toNat (274#64).toNat * vectors.pkw.toNat + 63) / 64 ∧
        vectors.pkbase.toNat + 30 ≤ vectors.build.nwords) ∧
      vectors.build.nwords < (31#64).toNat + vectors.pkwords.toNat ∧
      (30#64).toNat + vectors.pkwords.toNat ≤ vectors.build.nwords :=
  ⟨vectors_ready, by decide +kernel⟩

theorem witness_PkConvertKeepsTheElements :
    vectors.Ready ∧ (0#64).toNat < 1 ∧ 64 < (65#64).toNat ∧ 1 ≤ (26#64).toNat ∧ (26#64).toNat ≤ 64 ∧
      vectors.pkwords.toNat < (vectors.pksize.toNat * (26#64).toNat + 63) / 64 ∧
      (vectors.pksize.toNat * (25#64).toNat + 63) / 64 ≤ vectors.pkwords.toNat :=
  ⟨vectors_ready, by decide +kernel⟩

end Sys2Proof.Tests
end

section
/-! Steps that take a request packet (00_scope.md R11, R12). -/

namespace Sys2Proof.Machine

/-- A step that takes a request packet. -/
theorem step_request {s : State} {p : BitVec 224} {rest : List HostInput} (h : s.port = .request p :: rest) :
    step s = answerRequest p { s with port := rest, tick := s.tick + 1 } := by simp [step, h]

/-- The answer to a packet that is a command (30_encoding.md R104). -/
theorem answerRequest_command {s : State} {p : BitVec 224} {i : Instr} (h : decode p = .command i) :
    answerRequest p s = exec i s := by simp [answerRequest, h]

/-- Settles O5: the request goes to `answerRequest`, which runs the command it decodes to. -/
theorem stepRunsTheDecodedCommand : Obligations.StepRunsTheDecodedCommand := by
  intro s p rest i hport hdecode
  calc step s = answerRequest p { s with port := rest, tick := s.tick + 1 } := step_request hport
    _ = exec i { s with port := rest, tick := s.tick + 1 } := answerRequest_command hdecode

end Sys2Proof.Machine
end

section
/-! What a memory holds: canonical contents inside its size (10_state.md R23, R27, R28), kept by every write below its
end. -/

namespace Sys2Proof.Machine

/-- A memory as the invariant asks for it: in canonical form, and inside its `n` cells. -/
def Memory.Sound {w : Nat} (n : Nat) (m : Memory w) : Prop := Memory.wf m ∧ Memory.inside n m = true

theorem Memory.sound_ofList {w : Nat} (n : Nat) (cells : List (Nat × BitVec w)) :
    Memory.Sound n (Memory.ofList n cells) := Memory.ofList_wf n cells

theorem Memory.Sound.write {w n a : Nat} {m : Memory w} {v : BitVec w} (h : Memory.Sound n m) (ha : a < n) :
    Memory.Sound n (Memory.write m a v) :=
  ⟨Memory.wf_write m a v h.1, Memory.inside_write n m a v ha h.2⟩

/-- A write that happens only when its cell is one of the memory's. -/
theorem Memory.Sound.writeIf {w n a : Nat} {m : Memory w} {v : BitVec w} {c : Prop} [Decidable c]
    (h : Memory.Sound n m) (ha : c → a < n) : Memory.Sound n (if c then Memory.write m a v else m) := by
  split
  · next hc => exact h.write (ha hc)
  · exact h

theorem Memory.Sound.bitWrite {n p w : Nat} {m : Memory 64} {v : Word} (h : Memory.Sound n m)
    (hp : p + w ≤ 64 * n) : Memory.Sound n (bitWrite m p w v) :=
  ⟨bitWrite_wf m p w v h.1, bitWrite_inside n m p w v hp h.2⟩

theorem Memory.Sound.moveBits {n s d len : Nat} {m : Memory 64} (h : Memory.Sound n m) (hd : d + len ≤ 64 * n) :
    Memory.Sound n (moveBits m s d len) :=
  ⟨moveFrom_wf m m s d len h.1, moveFrom_inside n m m s d len hd h.2⟩

/-- The widening loop writes elements of the new width only (42_packed_int.md R178). -/
theorem Memory.Sound.widen {n b0 w w2 k : Nat} {m : Memory 64} (h : Memory.Sound n m)
    (hk : b0 + k * w2 ≤ 64 * n) : Memory.Sound n (widen b0 w w2 k m) := by
  induction k generalizing m with
  | zero => exact h
  | succ k ih =>
    rw [Nat.succ_mul] at hk
    exact ih (h.bitWrite (by omega)) (by omega)

/-- The narrowing loop writes elements of the new width only (42_packed_int.md R178). -/
theorem Memory.Sound.narrow {n b0 w w2 k : Nat} {m : Memory 64} (h : Memory.Sound n m)
    (hk : b0 + k * w2 ≤ 64 * n) : Memory.Sound n (narrow b0 w w2 k m) := by
  induction k with
  | zero => exact h
  | succ k ih =>
    rw [Nat.succ_mul] at hk
    exact (ih (by omega)).bitWrite (by omega)

theorem Memory.Sound.convertElements {n b0 k w w2 : Nat} {m : Memory 64} (h : Memory.Sound n m)
    (hk : b0 + k * w2 ≤ 64 * n) : Memory.Sound n (convertElements m b0 k w w2) := by
  unfold Machine.convertElements
  split
  · exact h.widen hk
  · split
    · exact h.narrow hk
    · exact h

/-- The contents of a reset input, one pair more (log entry 2). -/
theorem Memory.ofList_concat {w : Nat} (n : Nat) (cells : List (Nat × BitVec w)) (a : Nat) (v : BitVec w) :
    Memory.ofList n (cells ++ [(a, v)]) =
      if a < n then Memory.write (Memory.ofList n cells) a v else Memory.ofList n cells := by
  simp [Memory.ofList]

/-- The reset input's list of the contents `f` on the addresses below `k`. -/
def contentsBelow {w : Nat} (f : Nat → BitVec w) (k : Nat) : List (Nat × BitVec w) :=
  (List.range k).map fun a => (a, f a)

theorem contentsBelow_succ {w : Nat} (f : Nat → BitVec w) (k : Nat) :
    contentsBelow f (k + 1) = contentsBelow f k ++ [(k, f k)] := by
  simp [contentsBelow, List.range_succ]

/-- A memory made of the contents `f` reads as `f`. -/
theorem Memory.read_ofList_contentsBelow {w n k a : Nat} (f : Nat → BitVec w) (hk : k ≤ n) (ha : a < k) :
    (Memory.ofList n (contentsBelow f k)).read a = f a := by
  induction k with
  | zero => omega
  | succ k ih =>
    rw [contentsBelow_succ, Memory.ofList_concat, if_pos (by omega),
      Memory.read_write _ _ _ _ (Memory.ofList_wf n _).1]
    split
    · next h => rw [h]
    · next h => exact ih (by omega) (by omega)

end Sys2Proof.Machine
end

section
/-! Legal builds (00_scope.md R4 to R6): the block sizes divide each other and RVMAX, so every position below RVMAX has
its entries in `TOP` and `MID` (10_state.md R27, R28). -/

namespace Sys2Proof

theorem isPow2_dvd {a b : Nat} (ha : isPow2 a = true) (hb : isPow2 b = true) (hab : a ≤ b) : a ∣ b := by
  simp only [isPow2, Bool.and_eq_true, beq_iff_eq] at ha hb
  rw [← ha.2, ← hb.2]
  exact Nat.pow_dvd_pow 2 (by simpa only [Nat.log2_eq_log_two] using Nat.log_mono_right hab)

theorem Build.legal_nwords {b : Build} (h : b.legal = true) : b.nwords < 2 ^ 52 := by
  simp [Build.legal] at h; omega

theorem Build.legal_rvmax {b : Build} (h : b.legal = true) : b.rvmax < 2 ^ 64 := by
  simp [Build.legal] at h; omega

theorem Build.legal_blocks {b : Build} (h : b.legal = true) :
    0 < b.bm ∧ b.bm < b.bt ∧ b.bm ∣ b.bt ∧ b.bt ∣ b.rvmax := by
  simp only [Build.legal, Bool.and_eq_true, decide_eq_true_eq, beq_iff_eq] at h
  obtain ⟨⟨⟨-, htop, hmid⟩, ⟨hbm, hlt⟩, -⟩, ⟨-, hmax⟩, -⟩ := h
  exact ⟨by omega, hlt, isPow2_dvd hmid htop hlt.le, Nat.dvd_of_mod_eq_zero hmax⟩

namespace Machine

/-- The top-block of a position below RVMAX has its entry. -/
theorem topBlock_lt_ntop {b : Build} {p : Nat} (h : b.legal = true) (hp : p < b.rvmax) : p / b.bt < b.ntop := by
  obtain ⟨-, -, -, hdvd⟩ := Build.legal_blocks h
  exact Nat.div_lt_of_lt_mul (by rwa [Build.ntop, Nat.mul_div_cancel' hdvd])

/-- The middle-blocks of a legal build fill its top-blocks. -/
theorem middleBlock_div_perTop {b : Build} (h : b.legal = true) (p : Nat) : p / b.bm / b.perTop = p / b.bt := by
  obtain ⟨-, -, hdvd, -⟩ := Build.legal_blocks h
  rw [Nat.div_div_eq_div_mul, Build.perTop, Nat.mul_div_cancel' hdvd]

/-- The address of a stored middle-block, by its top-block and its place there (43_rank_select.md R201). -/
theorem midaddr_eq (b : Build) (m : Nat) (h : 0 < b.perTop) :
    midaddr b m = m / b.perTop * (b.perTop - 1) + m % b.perTop := by
  have hm := Nat.div_add_mod m b.perTop
  obtain ⟨r, hr⟩ : ∃ r, b.perTop = r + 1 := ⟨b.perTop - 1, by omega⟩
  rw [midaddr, hr, Nat.add_sub_cancel]
  rw [hr, Nat.mul_comm, Nat.mul_succ] at hm
  omega

/-- The stored middle-block of a position below RVMAX has its entry. -/
theorem midaddr_lt_nmid {b : Build} {p : Nat} (h : b.legal = true) (hp : p < b.rvmax)
    (hs : isStored b (p / b.bm) = true) : midaddr b (p / b.bm) < b.nmid := by
  obtain ⟨hpos, hlt, hdvd, -⟩ := Build.legal_blocks h
  have hper : 0 < b.perTop := Nat.div_pos hlt.le hpos
  have hplace : p / b.bm % b.perTop < b.perTop - 1 := by
    have := Nat.mod_lt (p / b.bm) hper
    have : p / b.bm % b.perTop ≠ b.perTop - 1 := by simpa [isStored] using hs
    omega
  calc midaddr b (p / b.bm) = p / b.bt * (b.perTop - 1) + p / b.bm % b.perTop := by
        rw [midaddr_eq b _ hper, middleBlock_div_perTop h]
    _ < p / b.bt * (b.perTop - 1) + (b.perTop - 1) := by omega
    _ = (p / b.bt + 1) * (b.perTop - 1) := by rw [Nat.succ_mul]
    _ ≤ b.nmid := Nat.mul_le_mul_right _ (topBlock_lt_ntop h hp)

end Machine
end Sys2Proof
end

section
/-! The two contexts (10_state.md R30, R31) as propositions, and the layouts the commands give them. -/

namespace Sys2Proof.Machine

theorem word_toNat {n : Nat} (h : n < 2 ^ 64) : (word n).toNat = n := by
  rw [word, BitVec.toNat_ofNat, Nat.mod_eq_of_lt h]

/-- `⌈n/64⌉` words hold `n` bits (00_scope.md R9). -/
theorem le_mul_ceilDiv (n : Nat) : n ≤ 64 * ceilDiv n 64 := by
  rw [ceilDiv]; omega

theorem rankVectorOk_iff {s : State} :
    s.rankVectorOk = true ↔
      s.rvsize.toNat ≤ s.rvcap.toNat ∧ s.rvcap.toNat % 64 = 0 ∧ s.rvcap.toNat ≤ s.build.rvmax ∧
        s.rvbase.toNat + s.rvcap.toNat / 64 ≤ s.build.nwords := by
  simp [State.rankVectorOk, and_assoc]

theorem packedVectorOk_iff {s : State} :
    s.packedVectorOk = true ↔
      (1 ≤ s.pkw.toNat ∧ s.pkw.toNat ≤ 64) ∧ s.pksize.toNat ≤ s.pkcap.toNat ∧
        s.pkcap.toNat = 64 * s.pkwords.toNat / s.pkw.toNat ∧
        s.pkbase.toNat + s.pkwords.toNat ≤ s.build.nwords := by
  simp [State.packedVectorOk, and_assoc]

/-- The rank vector placed at word `base` with a capacity of `n` whole words of bits, as `RV.INIT` and `RV.CAP` do
(43_rank_select.md R210, R224). -/
theorem rankVectorOk_of_words {s : State} {n : Nat} (hlegal : s.build.legal = true)
    (hcap : s.rvcap = word (64 * n)) (hmax : 64 * n ≤ s.build.rvmax) (hsize : s.rvsize.toNat ≤ 64 * n)
    (hbase : s.rvbase.toNat + n ≤ s.build.nwords) : s.rankVectorOk = true := by
  have hrv := Build.legal_rvmax hlegal
  have hnat : s.rvcap.toNat = 64 * n := by rw [hcap, word_toNat (by omega)]
  rw [rankVectorOk_iff, hnat]
  omega

/-- The packed vector given `n` words and the capacity they have at its width, as `PK.CFG`, `PK.CONVERT` and `PK.CAP`
do (42_packed_int.md R171, R177, R178). -/
theorem packedVectorOk_of_words {s : State} {n : Nat} (hlegal : s.build.legal = true)
    (hwidth : 1 ≤ s.pkw.toNat ∧ s.pkw.toNat ≤ 64) (hwords : s.pkwords.toNat = n)
    (hcap : s.pkcap = word (64 * n / s.pkw.toNat)) (hsize : s.pksize.toNat * s.pkw.toNat ≤ 64 * n)
    (hbase : s.pkbase.toNat + n ≤ s.build.nwords) : s.packedVectorOk = true := by
  have hn := Build.legal_nwords hlegal
  have hle : 64 * n / s.pkw.toNat ≤ 64 * n := Nat.div_le_self _ _
  have hnat : s.pkcap.toNat = 64 * n / s.pkw.toNat := by rw [hcap, word_toNat (by omega)]
  rw [packedVectorOk_iff, hnat, hwords]
  exact ⟨hwidth, (Nat.le_div_iff_mul_le (by omega)).mpr hsize, rfl, hbase⟩

/-- A width operand that its command accepts is the value of PKW it leaves (42_packed_int.md R171, R178). -/
theorem elementWidth_setWidth {w : Word} (h : elementWidth w = true) :
    1 ≤ w.toNat ∧ w.toNat ≤ 64 ∧ (w.setWidth 7).toNat = w.toNat := by
  obtain ⟨hpos, hle⟩ : 1 ≤ w.toNat ∧ w.toNat ≤ maxWidth := by simpa [elementWidth] using h
  rw [maxWidth] at hle
  rw [BitVec.toNat_setWidth]
  omega

end Sys2Proof.Machine
end

section
/-! What a command answers: it completes with what its rule leaves, or only a fault record or a response is added. -/

namespace Sys2Proof.Machine

/-- If the rule completes, it leaves a state with the property `P`. -/
def Reply.Leaves (P : State → Prop) : Reply → Prop
  | .done _ u => P u
  | .raise _ => True
  | .stop _ => True

/-- A check that faults comes first. -/
theorem Reply.leaves_check {P : State → Prop} {c : Prop} [Decidable c] {code : FaultCode} {reply : Reply}
    (h : ¬c → reply.Leaves P) : (if c then .raise code else reply).Leaves P := by
  split
  · trivial
  · next hc => exact h hc

/-- A check that the command stays inside the address spaces comes first (log entry 9). -/
theorem Reply.leaves_guard {P : State → Prop} {c : Prop} [Decidable c] {f : Fault} {reply : Reply}
    (h : ¬c → reply.Leaves P) : (if c then .stop f else reply).Leaves P := by
  split
  · trivial
  · next hc => exact h hc

/-- The rule goes one of two ways. -/
theorem Reply.leaves_ite {P : State → Prop} {c : Prop} [Decidable c] {r₁ r₂ : Reply}
    (h₁ : c → r₁.Leaves P) (h₂ : ¬c → r₂.Leaves P) : (if c then r₁ else r₂).Leaves P := by
  split
  · next hc => exact h₁ hc
  · next hc => exact h₂ hc

/-- How a next state of a command arises from `s`, its own rule leaving a state with the property `P`. -/
inductive Answered (P : State → Prop) (s t : State) : Prop
  | locked (hf : s.faulted = true) (ht : t = s.respond statusLocked 0#64)
  | completed (r : Word) (u : State) (hu : P u) (ht : t = u.respond statusOk r)
  | faulted (hf : s.faulted = false) (c : FaultCode) (cw : BitVec 32) (a : Word) (ht : t = s.takeFault c cw a)

/-- A command whose rule leaves states with the property `P` is answered so. -/
theorem answered_of_runCommand {P : State → Prop} {op : BitVec 8} {a : Word} {s t : State} {reply : Reply}
    (h : runCommand op a s reply = .next t) (hreply : reply.Leaves P) : Answered P s t := by
  rcases runCommand_cases h with ⟨hf, ht⟩ | ⟨-, r, u, rfl, ht⟩ | ⟨hf, c, -, ht⟩
  · exact .locked hf ht
  · exact .completed r u hreply ht
  · exact .faulted hf c _ _ ht

/-! ### Rules that only read -/

section
variable {P : State → Prop} {s : State} (hP : P s)
include hP

theorem selectRule_leaves (x : Bool) (base rank : Word) : (selectRule x base rank s).Leaves P := by
  refine Reply.leaves_check fun _ => Reply.leaves_check fun _ => ?_
  split
  · trivial
  · exact hP

theorem predecessorRule_leaves (x : Bool) (p n : Word) : (predecessorRule x p n s).Leaves P :=
  Reply.leaves_check fun _ => Reply.leaves_check fun _ => Reply.leaves_ite (fun _ => hP) fun _ => hP

theorem successorRule_leaves (x : Bool) (p n : Word) : (successorRule x p n s).Leaves P :=
  Reply.leaves_check fun _ => Reply.leaves_check fun _ => hP

theorem elementRead_leaves (i : Nat) : (elementRead i s).Leaves P :=
  Reply.leaves_check fun _ => Reply.leaves_guard fun _ => hP

theorem summaryQuery_leaves (r : Word) : (summaryQuery r s).Leaves P :=
  Reply.leaves_guard fun _ => Reply.leaves_ite (fun _ => hP) fun _ => hP

theorem positionQuery_leaves (p : Nat) (r : Word) : (positionQuery p r s).Leaves P :=
  Reply.leaves_check fun _ => summaryQuery_leaves hP r

theorem rvSelectRule_leaves (x : Bool) (k : Nat) : (rvSelectRule x k s).Leaves P := by
  refine Reply.leaves_check fun _ => Reply.leaves_guard fun _ => Reply.leaves_ite (fun _ => ?_) fun _ => ?_
  · refine Reply.leaves_check fun _ => ?_
    split
    · exact hP
    · trivial
  · exact Reply.leaves_check fun _ => hP

end

/-! ### The word primitives -/

section
variable {P : State → Prop} {s t : State} {x : Word} (hP : P s)
include hP

theorem execPopc_answered (h : execPopc x s = .next t) : Answered P s t :=
  answered_of_runCommand h hP

theorem execBsize_answered (h : execBsize x s = .next t) : Answered P s t :=
  answered_of_runCommand h hP

theorem execClz_answered (h : execClz x s = .next t) : Answered P s t :=
  answered_of_runCommand h hP

theorem execCtz_answered (h : execCtz x s = .next t) : Answered P s t :=
  answered_of_runCommand h hP

end

theorem execCsrr_answered {P : State → Prop} {num : Word} {s t : State} (hP : P s) (h : execCsrr num s = .next t) :
    Answered P s t := by
  cases hr : csrOf num.toNat with
  | some r =>
    rw [execCsrr_register hr] at h
    cases h
    exact .completed _ s hP rfl
  | none =>
    rw [execCsrr_other hr] at h
    exact answered_of_runCommand h trivial

end Sys2Proof.Machine
end

section
/-! What the commands that are no rank-vector commands write when they complete: `M` and the packed vector's registers,
nothing else (70_reset_and_hazards.md R320). -/

namespace Sys2Proof.Machine

/-- What such a command may leave of a state: its frame, and that it keeps `M` sound and 10_state.md R31. -/
structure OtherEffect (s u : State) : Prop where
  frame : u = { s with
    mem := u.mem
    pkbase := u.pkbase, pkw := u.pkw, pksize := u.pksize, pkcap := u.pkcap, pkwords := u.pkwords, pkidx := u.pkidx }
  memory : Memory.Sound s.build.nwords s.mem → Memory.Sound s.build.nwords u.mem
  packed : s.build.legal = true → s.packedVectorOk = true → u.packedVectorOk = true

theorem OtherEffect.refl (s : State) : OtherEffect s s := ⟨rfl, id, fun _ => id⟩

/-- A command that writes `M` alone. -/
theorem OtherEffect.writeMem {s : State} {m : Memory 64}
    (h : Memory.Sound s.build.nwords s.mem → Memory.Sound s.build.nwords m) : OtherEffect s { s with mem := m } :=
  ⟨rfl, h, fun _ => id⟩

/-- A region is in bounds (20_memory.md R69). -/
theorem holdsRegion_iff {s : State} {p len : Nat} : s.holdsRegion p len = true ↔ p + len ≤ 64 * s.build.nwords := by
  rw [State.holdsRegion, decide_eq_true_eq]
  rfl

/-- A context being placed is in bounds (20_memory.md R69). -/
theorem holdsWords_iff {s : State} {base n : Nat} : s.holdsWords base n = true ↔ base + n ≤ s.build.nwords := by
  rw [State.holdsWords, decide_eq_true_eq]

theorem execWrbits_answered {p w val : Word} {s t : State} (h : execWrbits p w val s = .next t) :
    Answered (OtherEffect s) s t := by
  refine answered_of_runCommand h (Reply.leaves_check fun _ => Reply.leaves_check fun hp =>
    Reply.leaves_check fun _ => OtherEffect.writeMem fun hm => hm.bitWrite ?_)
  exact holdsRegion_iff.mp (by simpa using hp)

/-- The destination of a move whose two regions are in bounds. -/
theorem destination_inside {s : State} {src dst len : Word}
    (h : ¬(!s.holdsRegion src.toNat len.toNat || !s.holdsRegion dst.toNat len.toNat) = true) :
    dst.toNat + len.toNat ≤ 64 * s.build.nwords := by
  simp only [Bool.or_eq_true, Bool.not_eq_true', not_or, Bool.not_eq_false] at h
  exact holdsRegion_iff.mp h.2

theorem execMovbits_answered {src dst len : Word} {s t : State} (h : execMovbits src dst len s = .next t) :
    Answered (OtherEffect s) s t :=
  answered_of_runCommand h <| Reply.leaves_check fun hp =>
    OtherEffect.writeMem fun hm => hm.moveBits (destination_inside hp)

theorem execCpybits_answered {src dst len : Word} {s t : State} (h : execCpybits src dst len s = .next t) :
    Answered (OtherEffect s) s t :=
  answered_of_runCommand h <| Reply.leaves_check fun hp => Reply.leaves_check fun _ =>
    OtherEffect.writeMem fun hm => hm.moveBits (destination_inside hp)

/-- What the check before an access to the packed elements gives. -/
theorem packs_iff {s : State} {n w : Nat} :
    s.packs n w = true ↔
      (1 ≤ s.pkw.toNat ∧ s.pkw.toNat ≤ 64) ∧ 64 * s.pkbase.toNat + n * w ≤ 64 * s.build.nwords := by
  simp only [State.packs, Bool.and_eq_true, decide_eq_true_eq]
  rfl

/-- Element `i` lies in `M` when the first `i + 1` do (42_packed_int.md R170). -/
theorem element_inside {s : State} {i : Nat} (h : ¬(!s.packs (i + 1) s.pwidth) = true) :
    s.epos i + s.pwidth ≤ 64 * s.build.nwords := by
  obtain ⟨-, hend⟩ := packs_iff.mp (by simpa using h)
  rw [State.epos]
  rw [Nat.add_one_mul i] at hend
  omega

theorem elementWrite_leaves (i : Nat) (val : Word) (s : State) : (elementWrite i val s).Leaves (OtherEffect s) :=
  Reply.leaves_check fun _ => Reply.leaves_check fun _ => Reply.leaves_guard fun hp =>
    OtherEffect.writeMem fun hm => hm.bitWrite (element_inside hp)

theorem execPkCfg_answered {base w cap : Word} {s t : State} (h : execPkCfg base w cap s = .next t) :
    Answered (OtherEffect s) s t := by
  refine answered_of_runCommand h (Reply.leaves_check fun hw => Reply.leaves_check fun hbase => ?_)
  obtain ⟨hpos, hle, hwidth⟩ := elementWidth_setWidth (by simpa using hw)
  have hfit := holdsWords_iff.mp (by simpa using hbase)
  refine ⟨rfl, id, fun hlegal _ => ?_⟩
  have hn := Build.legal_nwords hlegal
  exact packedVectorOk_of_words hlegal (by simp only [hwidth]; omega) (word_toNat (by omega)) (by simp only [hwidth])
    (by simp) hfit

theorem execPkAppend_answered {val : Word} {s t : State} (h : execPkAppend val s = .next t) :
    Answered (OtherEffect s) s t := by
  refine answered_of_runCommand h (Reply.leaves_check fun hcap => Reply.leaves_check fun _ =>
    Reply.leaves_guard fun hp => ⟨rfl, fun hm => hm.bitWrite (element_inside hp), fun _ hok => ?_⟩)
  have hnat : (word (s.pksize.toNat + 1)).toNat = s.pksize.toNat + 1 := word_toNat (by omega)
  rw [packedVectorOk_iff] at hok ⊢
  obtain ⟨hwidth, -, hcount, hbase⟩ := hok
  exact ⟨hwidth, by simp only [hnat]; omega, hcount, hbase⟩

/-- A size within the capacity keeps 10_state.md R31. -/
theorem OtherEffect.writeSize {s : State} {n : Word}
    (h : s.pksize.toNat ≤ s.pkcap.toNat → n.toNat ≤ s.pkcap.toNat) : OtherEffect s { s with pksize := n } := by
  refine ⟨rfl, id, fun _ hok => ?_⟩
  rw [packedVectorOk_iff] at hok ⊢
  obtain ⟨hwidth, hsize, hcount, hbase⟩ := hok
  exact ⟨hwidth, h hsize, hcount, hbase⟩

theorem execPkResize_answered {n : Word} {s t : State} (h : execPkResize n s = .next t) :
    Answered (OtherEffect s) s t :=
  answered_of_runCommand h <|
    Reply.leaves_ite (fun hn => OtherEffect.writeSize fun _ => hn) fun _ => OtherEffect.refl s

theorem execPkClear_answered {a : Word} {s t : State} (h : execPkClear a s = .next t) :
    Answered (OtherEffect s) s t :=
  answered_of_runCommand h (OtherEffect.writeSize fun _ => Nat.zero_le _)

theorem execPkConvert_answered {w : Word} {s t : State} (h : execPkConvert w s = .next t) :
    Answered (OtherEffect s) s t := by
  refine answered_of_runCommand h (Reply.leaves_check fun hw => Reply.leaves_check fun hcap =>
    Reply.leaves_guard fun hp => ?_)
  obtain ⟨hpos, hle, hwidth⟩ := elementWidth_setWidth (by simpa using hw)
  obtain ⟨-, hend⟩ := packs_iff.mp (by simpa using hp)
  refine ⟨rfl, fun hm => hm.convertElements ?_, fun hlegal hok => ?_⟩
  · calc 64 * s.pkbase.toNat + s.pksize.toNat * w.toNat
        ≤ 64 * s.pkbase.toNat + s.pksize.toNat * max s.pwidth w.toNat :=
          Nat.add_le_add_left (Nat.mul_le_mul_left _ (Nat.le_max_right _ _)) _
      _ ≤ 64 * s.build.nwords := hend
  · obtain ⟨-, -, -, hbase⟩ := packedVectorOk_iff.mp hok
    have hbits := le_mul_ceilDiv (s.pksize.toNat * w.toNat)
    exact packedVectorOk_of_words hlegal (by simp only [hwidth]; omega) rfl (by simp only [hwidth])
      (by simp only [hwidth]; omega) hbase

theorem OtherEffect.writeIndex {s : State} {i : Word} : OtherEffect s { s with pkidx := i } :=
  ⟨rfl, id, fun _ => id⟩

theorem execPkSeek_answered {i : Word} {s t : State} (h : execPkSeek i s = .next t) : Answered (OtherEffect s) s t :=
  answered_of_runCommand h OtherEffect.writeIndex

theorem execPkAdv_answered {d : Word} {s t : State} (h : execPkAdv d s = .next t) : Answered (OtherEffect s) s t :=
  answered_of_runCommand h OtherEffect.writeIndex

theorem execPkRebase_answered {base : Word} {s t : State} (h : execPkRebase base s = .next t) :
    Answered (OtherEffect s) s t := by
  refine answered_of_runCommand h (Reply.leaves_check fun hbase => ⟨rfl, id, fun _ hok => ?_⟩)
  have hfit := holdsWords_iff.mp (by simpa using hbase)
  rw [packedVectorOk_iff] at hok ⊢
  obtain ⟨hwidth, hsize, hcount, -⟩ := hok
  exact ⟨hwidth, hsize, hcount, hfit⟩

theorem execPkCap_answered {cap : Word} {s t : State} (h : execPkCap cap s = .next t) :
    Answered (OtherEffect s) s t := by
  refine answered_of_runCommand h (Reply.leaves_guard fun hp => Reply.leaves_check fun hbase => ?_)
  obtain ⟨hwidth, -⟩ := packs_iff.mp (by simpa using hp)
  have hfit := holdsWords_iff.mp (by simpa using hbase)
  refine ⟨rfl, id, fun hlegal _ => ?_⟩
  have hn := Build.legal_nwords hlegal
  exact packedVectorOk_of_words hlegal hwidth (word_toNat (by omega)) rfl
    (calc s.pksize.toNat * s.pkw.toNat ≤ max s.pksize.toNat cap.toNat * s.pkw.toNat :=
          Nat.mul_le_mul_right _ (Nat.le_max_left _ _)
      _ ≤ _ := le_mul_ceilDiv _) hfit

end Sys2Proof.Machine
end

section
/-! What the rank-vector commands write when they complete: the vector's bits in `M`, its entries in `TOP` and `MID`,
its registers (43_rank_select.md R210 to R225). -/

namespace Sys2Proof.Machine

/-- What a rank-vector command may leave of a state: its frame, and that it keeps the three memories sound and
10_state.md R30. -/
structure RankEffect (s u : State) : Prop where
  frame : u = { s with
    mem := u.mem, top := u.top, mid := u.mid, rvbase := u.rvbase, rvsize := u.rvsize, rvcap := u.rvcap }
  memory : Memory.Sound s.build.nwords s.mem → Memory.Sound s.build.nwords u.mem
  topSummaries : s.build.legal = true → Memory.Sound s.build.ntop s.top → Memory.Sound s.build.ntop u.top
  midSummaries : s.build.legal = true → Memory.Sound s.build.nmid s.mid → Memory.Sound s.build.nmid u.mid
  rank : s.build.legal = true → s.rankVectorOk = true → u.rankVectorOk = true

theorem RankEffect.refl (s : State) : RankEffect s s := ⟨rfl, id, fun _ => id, fun _ => id, fun _ => id⟩

/-- A command that writes registers of the rank vector alone. -/
theorem RankEffect.writeRegisters {s : State} {base size cap : Word}
    (h : s.build.legal = true → s.rankVectorOk = true →
      State.rankVectorOk { s with rvbase := base, rvsize := size, rvcap := cap } = true) :
    RankEffect s { s with rvbase := base, rvsize := size, rvcap := cap } :=
  ⟨rfl, id, fun _ => id, fun _ => id, h⟩

theorem reaches_iff {s : State} {n : Nat} :
    s.reaches n = true ↔ 64 * s.rvbase.toNat + n ≤ 64 * s.build.nwords ∧ n ≤ s.build.rvmax := by
  simp only [State.reaches, Bool.and_eq_true, decide_eq_true_eq]
  rfl

/-- The entries `RV.APPEND` writes in `TOP` are the memory's (43_rank_select.md R211). -/
theorem appendTop_sound {s : State} {b : Nat} (hlegal : s.build.legal = true) (hp : s.vsize < s.build.rvmax)
    (h : Memory.Sound s.build.ntop s.top) : Memory.Sound s.build.ntop (appendTop s b) :=
  have hlt := topBlock_lt_ntop hlegal hp
  (h.writeIf fun _ => hlt).write hlt

/-- The entries `RV.APPEND` writes in `MID` are the memory's (43_rank_select.md R211). -/
theorem appendMid_sound {s : State} {b : Nat} (hlegal : s.build.legal = true) (hp : s.vsize < s.build.rvmax)
    (h : Memory.Sound s.build.nmid s.mid) : Memory.Sound s.build.nmid (appendMid s b) := by
  simp only [appendMid]
  split
  · next hs =>
    have hlt := midaddr_lt_nmid hlegal hp hs
    exact (h.writeIf fun _ => hlt).write hlt
  · exact h

/-- What writing the entries of a position may leave of a state: its frame, and that it keeps `TOP` and `MID` sound. -/
structure SummaryEffect (s u : State) : Prop where
  frame : u = { s with top := u.top, mid := u.mid }
  topSummaries : s.build.legal = true → Memory.Sound s.build.ntop s.top → Memory.Sound s.build.ntop u.top
  midSummaries : s.build.legal = true → Memory.Sound s.build.nmid s.mid → Memory.Sound s.build.nmid u.mid

theorem appendSummaries_effect {s : State} {b : Nat} (hp : s.vsize < s.build.rvmax) :
    SummaryEffect s { s with top := appendTop s b, mid := appendMid s b } where
  frame := rfl
  topSummaries hlegal h := appendTop_sound hlegal hp h
  midSummaries hlegal h := appendMid_sound hlegal hp h

theorem freeSummaries_effect {s : State} {p : Nat} (hp : p < s.build.rvmax) : SummaryEffect s (freeSummaries s p) where
  frame := rfl
  topSummaries hlegal h := h.write (topBlock_lt_ntop hlegal hp)
  midSummaries hlegal h := h.writeIf fun hs => midaddr_lt_nmid hlegal hp hs

theorem shortenSummaries_effect {s : State} {p : Nat} (hp : p < s.build.rvmax) :
    SummaryEffect s (shortenSummaries s p) where
  frame := rfl
  topSummaries hlegal h := h.write (topBlock_lt_ntop hlegal hp)
  midSummaries hlegal h := h.writeIf fun hs => midaddr_lt_nmid hlegal hp hs

/-- While INV holds the entries take their exact values, otherwise free ones (43_rank_select.md R204). -/
theorem SummaryEffect.ite {s u v : State} {c : Prop} [Decidable c] (hu : SummaryEffect s u) (hv : SummaryEffect s v) :
    SummaryEffect s (if c then u else v) := by
  split
  · exact hu
  · exact hv

/-- A command that writes entries, and with them bits of `M` and the size, as `RV.APPEND` and `RV.SHORTEN` do. -/
theorem SummaryEffect.resize {s u : State} {m : Memory 64} {size : Word} (e : SummaryEffect s u)
    (hm : Memory.Sound s.build.nwords s.mem → Memory.Sound s.build.nwords m)
    (hsize : s.rvsize.toNat ≤ s.rvcap.toNat → size.toNat ≤ s.rvcap.toNat) :
    RankEffect s { u with mem := m, rvsize := size } where
  frame := by rw [e.frame]
  memory := hm
  topSummaries := e.topSummaries
  midSummaries := e.midSummaries
  rank _ hok := by
    rw [e.frame]
    rw [rankVectorOk_iff] at hok ⊢
    obtain ⟨hle, hcap⟩ := hok
    exact ⟨hsize hle, hcap⟩

theorem execRvInit_answered {base cap : Word} {s t : State} (h : execRvInit base cap s = .next t) :
    Answered (RankEffect s) s t := by
  refine answered_of_runCommand h (Reply.leaves_check fun hmax => Reply.leaves_check fun hbase =>
    RankEffect.writeRegisters fun hlegal _ => ?_)
  have hfit := holdsWords_iff.mp (by simpa using hbase)
  exact rankVectorOk_of_words hlegal rfl (Nat.not_lt.mp hmax) (Nat.zero_le _) hfit

theorem execRvAppend_answered {bit : Word} {s t : State} (h : execRvAppend bit s = .next t) :
    Answered (RankEffect s) s t := by
  refine answered_of_runCommand h (Reply.leaves_check fun hcap => Reply.leaves_check fun _ =>
    Reply.leaves_guard fun hreach => ?_)
  obtain ⟨hend, hmax⟩ := reaches_iff.mp (by simpa using hreach)
  have hsize : (word (s.vsize + 1)).toNat ≤ s.rvcap.toNat := by
    rw [State.vsize, word_toNat (by omega)]
    omega
  exact ((appendSummaries_effect hmax).ite (freeSummaries_effect hmax)).resize
    (fun hm => hm.bitWrite hend) fun _ => hsize

theorem execRvShorten_answered {n : Word} {s t : State} (h : execRvShorten n s = .next t) :
    Answered (RankEffect s) s t := by
  refine answered_of_runCommand h (Reply.leaves_check fun hn =>
    Reply.leaves_ite (fun hzero => ?_) fun hpos => Reply.leaves_guard fun hreach => ?_)
  all_goals have hle : n.toNat ≤ s.rvsize.toNat := Nat.not_lt.mp hn
  · exact SummaryEffect.resize ⟨rfl, fun _ => id, fun _ => id⟩ id hle.trans
  · obtain ⟨-, hmax⟩ := reaches_iff.mp (by simpa using hreach)
    have hlast : n.toNat - 1 < s.build.rvmax := by rw [State.vsize] at hmax; omega
    have e := (shortenSummaries_effect hlast).ite (c := s.summariesHold = true) (freeSummaries_effect hlast)
    exact e.resize (fun hm => by rwa [e.frame]) hle.trans

theorem execRvCap_answered {cap : Word} {s t : State} (h : execRvCap cap s = .next t) :
    Answered (RankEffect s) s t := by
  refine answered_of_runCommand h (Reply.leaves_check fun hmax => Reply.leaves_check fun hbase =>
    RankEffect.writeRegisters fun hlegal _ => ?_)
  have hfit := holdsWords_iff.mp (by simpa using hbase)
  exact rankVectorOk_of_words hlegal rfl (Nat.not_lt.mp hmax)
    ((Nat.le_max_left _ _).trans (le_mul_ceilDiv (max s.vsize cap.toNat))) hfit

theorem execRvRebase_answered {base : Word} {s t : State} (h : execRvRebase base s = .next t) :
    Answered (RankEffect s) s t := by
  refine answered_of_runCommand h (Reply.leaves_check fun hbase => RankEffect.writeRegisters fun _ hok => ?_)
  have hfit := holdsWords_iff.mp (by simpa using hbase)
  rw [rankVectorOk_iff] at hok ⊢
  obtain ⟨hsize, hwhole, hmax, -⟩ := hok
  exact ⟨hsize, hwhole, hmax, hfit⟩

end Sys2Proof.Machine
end

section
/-! What every command answers, by family; and from it what every step keeps (10_state.md R25 to R31, R40;
70_reset_and_hazards.md R320). -/

namespace Sys2Proof.Machine

/-- Every command that answers a next state is locked out, completes with what its family may write, or faults. -/
theorem exec_answered {i : Instr} {s t : State} (h : exec i s = .next t) :
    (isRankVector i = true ∧ Answered (RankEffect s) s t) ∨
    (isRankVector i = false ∧ Answered (OtherEffect s) s t) :=
  have rank := RankEffect.refl s
  have other := OtherEffect.refl s
  match i with
  | .csrr _ _ _ => .inr ⟨rfl, execCsrr_answered other h⟩
  | .popc _ _ _ => .inr ⟨rfl, execPopc_answered other h⟩
  | .bsize _ _ _ => .inr ⟨rfl, execBsize_answered other h⟩
  | .clz _ _ _ => .inr ⟨rfl, execClz_answered other h⟩
  | .ctz _ _ _ => .inr ⟨rfl, execCtz_answered other h⟩
  | .rdbits _ _ _ => .inr ⟨rfl, answered_of_runCommand h
      (Reply.leaves_check fun _ => Reply.leaves_ite (fun _ => other) fun _ => trivial)⟩
  | .wrbits _ _ _ => .inr ⟨rfl, execWrbits_answered h⟩
  | .cnt1 _ _ _ => .inr ⟨rfl, answered_of_runCommand h (Reply.leaves_check fun _ => other)⟩
  | .sel1 _ _ _ => .inr ⟨rfl, answered_of_runCommand h (selectRule_leaves other _ _ _)⟩
  | .sel0 _ _ _ => .inr ⟨rfl, answered_of_runCommand h (selectRule_leaves other _ _ _)⟩
  | .pred1 _ _ _ => .inr ⟨rfl, answered_of_runCommand h (predecessorRule_leaves other _ _ _)⟩
  | .succ1 _ _ _ => .inr ⟨rfl, answered_of_runCommand h (successorRule_leaves other _ _ _)⟩
  | .pred0 _ _ _ => .inr ⟨rfl, answered_of_runCommand h (predecessorRule_leaves other _ _ _)⟩
  | .succ0 _ _ _ => .inr ⟨rfl, answered_of_runCommand h (successorRule_leaves other _ _ _)⟩
  | .movbits _ _ _ => .inr ⟨rfl, execMovbits_answered h⟩
  | .cpybits _ _ _ => .inr ⟨rfl, execCpybits_answered h⟩
  | .rvInit _ _ _ => .inl ⟨rfl, execRvInit_answered h⟩
  | .rvAppend _ _ _ => .inl ⟨rfl, execRvAppend_answered h⟩
  | .rvRank1 _ _ _ => .inl ⟨rfl, answered_of_runCommand h (positionQuery_leaves rank _ _)⟩
  | .rvRank0 _ _ _ => .inl ⟨rfl, answered_of_runCommand h (positionQuery_leaves rank _ _)⟩
  | .rvSel1 _ _ _ => .inl ⟨rfl, answered_of_runCommand h (rvSelectRule_leaves rank _ _)⟩
  | .rvSel0 _ _ _ => .inl ⟨rfl, answered_of_runCommand h (rvSelectRule_leaves rank _ _)⟩
  | .rvPred1 _ _ _ => .inl ⟨rfl, answered_of_runCommand h (positionQuery_leaves rank _ _)⟩
  | .rvSucc1 _ _ _ => .inl ⟨rfl, answered_of_runCommand h (positionQuery_leaves rank _ _)⟩
  | .rvPred0 _ _ _ => .inl ⟨rfl, answered_of_runCommand h (positionQuery_leaves rank _ _)⟩
  | .rvSucc0 _ _ _ => .inl ⟨rfl, answered_of_runCommand h (positionQuery_leaves rank _ _)⟩
  | .rvShorten _ _ _ => .inl ⟨rfl, execRvShorten_answered h⟩
  | .rvNones _ _ _ => .inl ⟨rfl, answered_of_runCommand h (summaryQuery_leaves rank _)⟩
  | .rvNzeros _ _ _ => .inl ⟨rfl, answered_of_runCommand h (summaryQuery_leaves rank _)⟩
  | .rvCap _ _ _ => .inl ⟨rfl, execRvCap_answered h⟩
  | .rvRebase _ _ _ => .inl ⟨rfl, execRvRebase_answered h⟩
  | .rvBit _ _ _ => .inl ⟨rfl, answered_of_runCommand h
      (Reply.leaves_check fun _ => Reply.leaves_guard fun _ => rank)⟩
  | .pkCfg _ _ _ => .inr ⟨rfl, execPkCfg_answered h⟩
  | .pkRd _ _ _ => .inr ⟨rfl, answered_of_runCommand h (elementRead_leaves other _)⟩
  | .pkWr _ _ _ => .inr ⟨rfl, answered_of_runCommand h (elementWrite_leaves _ _ _)⟩
  | .pkAppend _ _ _ => .inr ⟨rfl, execPkAppend_answered h⟩
  | .pkResize _ _ _ => .inr ⟨rfl, execPkResize_answered h⟩
  | .pkClear _ _ _ => .inr ⟨rfl, execPkClear_answered h⟩
  | .pkConvert _ _ _ => .inr ⟨rfl, execPkConvert_answered h⟩
  | .pkSeek _ _ _ => .inr ⟨rfl, execPkSeek_answered h⟩
  | .pkAdv _ _ _ => .inr ⟨rfl, execPkAdv_answered h⟩
  | .pkItrd _ _ _ => .inr ⟨rfl, answered_of_runCommand h (elementRead_leaves other _)⟩
  | .pkItwr _ _ _ => .inr ⟨rfl, answered_of_runCommand h (elementWrite_leaves _ _ _)⟩
  | .pkRebase _ _ _ => .inr ⟨rfl, execPkRebase_answered h⟩
  | .pkCap _ _ _ => .inr ⟨rfl, execPkCap_answered h⟩

/-- A packet that is no command is locked out or faults (60_exceptions.md R282, R286). -/
theorem illegalPacket_answered {P : State → Prop} {p : BitVec 224} {s t : State}
    (h : illegalPacket p s = .next t) : Answered P s t := by
  rcases illegalPacket_cases p s with ⟨hf, he⟩ | ⟨hf, he⟩ <;> rw [he] at h <;> cases h
  · exact .locked hf rfl
  · exact .faulted hf _ _ _ rfl

/-! ### The invariant -/

/-- A response is no part of the invariant. -/
theorem State.Inv.respond {s : State} (h : s.Inv) (st : BitVec 8) (r : Word) : (s.respond st r).Inv :=
  inv_iff.mpr ((inv_iff (s := s)).mp h)

/-- Taking a request from the port is no part of the invariant. -/
theorem State.Inv.takeRequest {s : State} (h : s.Inv) (port : List HostInput) (tick : Nat) :
    State.Inv { s with port := port, tick := tick } :=
  inv_iff.mpr ((inv_iff (s := s)).mp h)

/-- The record of a fault holds a code of the table (60_exceptions.md R281). -/
theorem takeFault_recordOk (s : State) (c : FaultCode) (cw : BitVec 32) (a : Word) :
    (s.takeFault c cw a).recordOk = true := by
  cases c <;> rfl

/-- Fault entry writes the record alone (60_exceptions.md R285). -/
theorem State.Inv.takeFault {s : State} (h : s.Inv) (c : FaultCode) (cw : BitVec 32) (a : Word) :
    (s.takeFault c cw a).Inv := by
  obtain ⟨legal, mem, top, mid, rank, packed, -⟩ := inv_iff.mp h
  exact inv_iff.mpr ⟨legal, mem, top, mid, rank, packed, takeFault_recordOk s c cw a⟩

theorem OtherEffect.inv {s u : State} (e : OtherEffect s u) (h : s.Inv) : u.Inv := by
  obtain ⟨legal, mem, top, mid, rank, packed, record⟩ := inv_iff.mp h
  have hmem := e.memory mem
  have hpacked := e.packed legal packed
  rw [e.frame] at hmem hpacked ⊢
  exact inv_iff.mpr ⟨legal, hmem, top, mid, rank, hpacked, record⟩

theorem RankEffect.inv {s u : State} (e : RankEffect s u) (h : s.Inv) : u.Inv := by
  obtain ⟨legal, mem, top, mid, rank, packed, record⟩ := inv_iff.mp h
  have hmem := e.memory mem
  have htop := e.topSummaries legal top
  have hmid := e.midSummaries legal mid
  have hrank := e.rank legal rank
  rw [e.frame] at hmem htop hmid hrank ⊢
  exact inv_iff.mpr ⟨legal, hmem, htop, hmid, hrank, packed, record⟩

/-- A command whose completion keeps the invariant keeps it however it is answered. -/
theorem Answered.inv {P : State → Prop} {s t : State} (h : Answered P s t) (hs : s.Inv)
    (hP : ∀ u, P u → u.Inv) : t.Inv := by
  cases h with
  | locked _ ht => exact ht ▸ hs.respond _ _
  | completed r u hu ht => exact ht ▸ (hP u hu).respond _ _
  | faulted _ c cw a ht => exact ht ▸ hs.takeFault _ _ _

theorem exec_inv {i : Instr} {s t : State} (hs : s.Inv) (h : exec i s = .next t) : t.Inv := by
  rcases exec_answered h with ⟨-, ha⟩ | ⟨-, ha⟩
  · exact ha.inv hs fun _ e => e.inv hs
  · exact ha.inv hs fun _ e => e.inv hs

/-- The reset values meet the invariant of every legal build, whatever the memories hold (10_state.md R40). -/
theorem afterReset_inv {b : Build} {mem top : Memory 64} {mid : Memory 16} (hlegal : b.legal = true)
    (hmem : Memory.Sound b.nwords mem) (htop : Memory.Sound b.ntop top) (hmid : Memory.Sound b.nmid mid)
    (port : List HostInput) (tick : Nat) : (State.afterReset b mem top mid port tick).Inv :=
  inv_iff.mpr ⟨hlegal, hmem, htop, hmid, rankVectorOk_iff.mpr (by simp [State.afterReset]),
    packedVectorOk_iff.mpr (by simp [State.afterReset]), rfl⟩

theorem defaultBuild_legal : Config.defaultBuild.legal = true := by decide

/-- Settles O10: the reset values meet the invariant of the default build with empty memories. -/
theorem resetStateMeetsTheInvariant : Obligations.ResetStateMeetsTheInvariant :=
  afterReset_inv defaultBuild_legal (Memory.sound_ofList _ []) (Memory.sound_ofList _ []) (Memory.sound_ofList _ [])
    [] 0

/-- Settles O11: an idle step changes nothing, a reset gives the reset values, a command answers as its family may, and
an illegal packet takes a fault or is answered LOCKED. -/
theorem stepKeepsTheInvariant : Obligations.StepKeepsTheInvariant := by
  intro s t hs h
  rcases step_cases h with
    ⟨-, rfl⟩ | ⟨m, tp, d, rest, -, rfl⟩ | ⟨p, rest, i, -, -, he⟩ | ⟨p, rest, why, -, -, he⟩
  · exact hs
  · exact afterReset_inv hs.legal (Memory.sound_ofList _ m) (Memory.sound_ofList _ tp) (Memory.sound_ofList _ d) _ _
  · exact exec_inv (hs.takeRequest _ _) he
  · exact (illegalPacket_answered (P := State.Inv) he).inv (hs.takeRequest _ _) fun _ => id

/-! ### The build -/

theorem OtherEffect.build_eq {s u : State} (e : OtherEffect s u) : u.build = s.build := by rw [e.frame]

theorem RankEffect.build_eq {s u : State} (e : RankEffect s u) : u.build = s.build := by rw [e.frame]

theorem Answered.build_eq {P : State → Prop} {s t : State} (h : Answered P s t)
    (hP : ∀ u, P u → u.build = s.build) : t.build = s.build := by
  cases h with
  | locked _ ht => rw [ht, State.respond_build]
  | completed r u hu ht => rw [ht, State.respond_build, hP u hu]
  | faulted _ c cw a ht => rw [ht, State.takeFault_build]

theorem exec_build {i : Instr} {s t : State} (h : exec i s = .next t) : t.build = s.build := by
  rcases exec_answered h with ⟨-, ha⟩ | ⟨-, ha⟩
  · exact ha.build_eq fun _ e => e.build_eq
  · exact ha.build_eq fun _ e => e.build_eq

/-- Settles O13: no command's frame holds the build, and a reset keeps it. -/
theorem stepNeverChangesTheBuild : Obligations.StepNeverChangesTheBuild := by
  intro s t h
  rcases step_cases h with
    ⟨-, rfl⟩ | ⟨m, tp, d, rest, -, rfl⟩ | ⟨p, rest, i, -, -, he⟩ | ⟨p, rest, why, -, -, he⟩
  · rfl
  · rw [State.takeReset_build]
  · exact (exec_build he).trans rfl
  · exact (illegalPacket_answered (P := fun u => u.build = s.build) he).build_eq fun _ => id

/-! ### The summaries -/

/-- Settles O19: the frame of the other commands holds neither the summaries nor the rank vector's registers. -/
theorem otherCommandsLeaveTheSummaries : Obligations.OtherCommandsLeaveTheSummaries := by
  intro i s t hi h
  rcases exec_answered h with ⟨hrank, -⟩ | ⟨-, ha⟩
  · simp [hi] at hrank
  · cases ha with
    | locked _ ht => simp [ht]
    | completed r u hu ht => rw [ht, hu.frame]; simp
    | faulted _ c cw a ht => simp [ht]

/-! ### The memories after reset -/

/-- Settles O9: the reset input lists the wanted contents of every address. -/
theorem memoriesAfterResetAreArbitrary : Obligations.MemoriesAfterResetAreArbitrary := by
  intro s rest f g h
  refine ⟨contentsBelow f s.build.nwords, contentsBelow g s.build.ntop, contentsBelow h s.build.nmid, _,
    step_reset rfl, fun a ha => ?_, fun a ha => ?_, fun a ha => ?_, rfl⟩
  · exact Memory.read_ofList_contentsBelow f le_rfl ha
  · exact Memory.read_ofList_contentsBelow g le_rfl ha
  · exact Memory.read_ofList_contentsBelow h le_rfl ha

end Sys2Proof.Machine
end

section
/-! One bit of `M` at a time: the directed moves (20_memory.md R67), and a field read after it was written (R64,
R65). -/

namespace Sys2Proof.Machine

/-- Bit `i` of word `a` is the bit of `M` at position `64 * a + i` (20_memory.md R66). -/
theorem read_getLsbD_eq_bitAt (m : Memory 64) {a i : Nat} (hi : i < 64) :
    (Memory.read m a).getLsbD i = bitAt m (64 * a + i) := by
  rw [bitAt, show (64 * a + i) / 64 = a by omega, show (64 * a + i) % 64 = i by omega]

/-- Two canonical memories with the same bits are the same data. -/
theorem Memory.ext_of_bitAt {m₁ m₂ : Memory 64} (h₁ : Memory.wf m₁) (h₂ : Memory.wf m₂)
    (h : ∀ q, bitAt m₁ q = bitAt m₂ q) : m₁ = m₂ := by
  refine Memory.ext_of_read m₁ m₂ h₁ h₂ fun a => BitVec.eq_of_getLsbD_eq fun i hi => ?_
  rw [read_getLsbD_eq_bitAt m₁ hi, read_getLsbD_eq_bitAt m₂ hi, h]

/-- The directed moves and `MoveBits` write the same one-bit value. -/
theorem bitWord_eq_ofNat (b : Bool) : (if b then 1#64 else 0#64) = BitVec.ofNat 64 b.toNat := by
  cases b <;> rfl

/-- Going up with the destination below the source, no source bit is overwritten before its turn. -/
theorem moveAscending_eq_moveFrom {m : Memory 64} {s d : Nat} (hm : Memory.wf m) (hds : d ≤ s) (n : Nat) :
    moveAscending s d n m = moveFrom m m s d n := by
  induction n with
  | zero => rfl
  | succ n ih =>
    have unread : bitAt (moveFrom m m s d n) (s + n) = bitAt m (s + n) := by
      rw [bitAt_moveFrom _ _ _ _ _ _ hm, if_neg (by omega)]
    simp only [moveAscending, moveFrom, ih, unread, bitWord_eq_ofNat]

/-- Going down, the bit written first is the last one of `MoveBits`, when the move of the rest does not read it. -/
theorem moveBits_bitWrite_last {m : Memory 64} {s d : Nat} (hm : Memory.wf m) (hsd : s ≤ d) (n : Nat) :
    moveBits (bitWrite m (d + n) 1 (BitVec.ofNat 64 (bitAt m (s + n)).toNat)) s d n = moveBits m s d (n + 1) := by
  have hw := bitWrite_wf m (d + n) 1 (BitVec.ofNat 64 (bitAt m (s + n)).toNat) hm
  refine Memory.ext_of_bitAt (moveFrom_wf _ _ _ _ _ hw) (moveFrom_wf _ _ _ _ _ hm) fun q => ?_
  rw [moveBits, moveBits, moveFrom, bitAt_moveFrom _ _ _ _ _ _ hw,
    bitAt_bitWrite (moveFrom m m s d n) _ _ _ _ (moveFrom_wf _ _ _ _ _ hm) (by omega) (moveBit_fits _),
    bitAt_moveFrom _ _ _ _ _ _ hm]
  simp only [bitAt_bitWrite m _ _ _ _ hm (show 1 ≤ 64 by omega) (moveBit_fits _)]
  by_cases hq : d ≤ q ∧ q < d + n
  · rw [if_pos hq, if_neg (by omega), if_neg (by omega), if_pos hq]
  · rw [if_neg hq, if_neg hq]

/-- Going down with the destination above the source, no source bit is overwritten before its turn. -/
theorem moveDescending_eq_moveBits {m : Memory 64} {s d : Nat} (hm : Memory.wf m) (hsd : s ≤ d) (n : Nat) :
    moveDescending s d n m = moveBits m s d n := by
  induction n generalizing m with
  | zero => rfl
  | succ n ih =>
    rw [moveDescending, bitWord_eq_ofNat, ih (bitWrite_wf _ _ _ _ hm), moveBits_bitWrite_last hm hsd]

/-- Settles O36: each direction, by induction on the length. -/
theorem directedMovesEqualTheMove : Obligations.DirectedMovesEqualTheMove := by
  intro m s d len hm
  exact ⟨fun hds => moveAscending_eq_moveFrom hm hds len, fun hsd => moveDescending_eq_moveBits hm hsd len⟩

/-- A field just written reads as the value written (R64, R65). -/
theorem bitRead_bitWrite {m : Memory 64} {p w : Nat} {v : Word} (hm : Memory.wf m) (hw : w ≤ 64)
    (hv : v.toNat < 2 ^ w) : bitRead (bitWrite m p w v) p w = v := by
  refine BitVec.eq_of_getLsbD_eq fun j _ => ?_
  rw [bitRead_getLsbD _ _ _ _ hw, bitAt_bitWrite _ _ _ _ _ hm hw hv]
  by_cases hj : j < w
  · simp [hj]
  · simp [hj, getLsbD_of_fits v w j hv (Nat.not_lt.mp hj)]

end Sys2Proof.Machine
end

section
/-! What a command that completed did: its rule was the one that completed so (30_encoding.md R101,
60_exceptions.md R281). -/

namespace Sys2Proof.Machine

/-- The last response of a state and the state before it. -/
theorem State.respond_inj {s t : State} {st st' : BitVec 8} {r r' : Word} (h : s.respond st r = t.respond st' r') :
    s = t ∧ st = st' ∧ r = r' := by
  obtain ⟨hs, hlast⟩ := List.append_inj' (congrArg State.responses h) rfl
  cases s
  cases t
  simp_all [State.respond]

/-- No fault code is the status OK (60_exceptions.md R281). -/
theorem FaultCode.number_ne_statusOk (c : FaultCode) : c.number ≠ statusOk := by cases c <;> decide

/-- A command of an unlocked engine that is answered OK had a rule that completed. -/
theorem reply_eq_done {op : BitVec 8} {a r : Word} {s t : State} {reply : Reply} (hf : s.faulted = false)
    (h : runCommand op a s reply = .next (t.respond statusOk r)) : reply = .done r t := by
  rcases runCommand_cases h with ⟨hl, -⟩ | ⟨-, r', u, rfl, ht⟩ | ⟨-, c, -, ht⟩
  · simp [hf] at hl
  · obtain ⟨rfl, -, rfl⟩ := State.respond_inj ht
    rfl
  · obtain ⟨-, hst, -⟩ := State.respond_inj ht
    exact absurd hst.symm c.number_ne_statusOk

/-- A rule that completed passed its first check. -/
theorem Reply.done_of_check {c : Prop} [Decidable c] {code : FaultCode} {reply : Reply} {r : Word} {t : State}
    (h : (if c then .raise code else reply) = .done r t) : ¬c ∧ reply = .done r t := by
  split at h
  · cases h
  · next hc => exact ⟨hc, h⟩

/-- What `WRBITS` checked and did when it completed (41_bit_region.md R142). -/
theorem wrbits_completed {p w val r : Word} {s t : State} (hf : s.faulted = false)
    (h : Answers (.wrbits p w val) s r t) :
    w.toNat ≤ 64 ∧ s.holdsRegion p.toNat w.toNat = true ∧ val.toNat < 2 ^ w.toNat ∧
      t = { s with mem := bitWrite s.mem p.toNat w.toNat val } := by
  obtain ⟨hw, hrest⟩ := Reply.done_of_check (reply_eq_done hf h)
  obtain ⟨hp, hrest⟩ := Reply.done_of_check hrest
  obtain ⟨hv, hdone⟩ := Reply.done_of_check hrest
  cases hdone
  exact ⟨Nat.not_lt.mp hw, by simpa using hp, by simpa [fits] using hv, rfl⟩

/-- `RDBITS` of a field in bounds (41_bit_region.md R141). -/
theorem rdbits_answers {p w c : Word} {s : State} (hf : s.faulted = false) (hw : w.toNat ≤ 64)
    (hp : s.holdsRegion p.toNat w.toNat = true) :
    Answers (.rdbits p w c) s (bitRead s.mem p.toNat w.toNat) s := by
  show runCommand 0x20#8 p s _ = _
  rw [if_neg (show ¬w.toNat > maxWidth from Nat.not_lt.mpr hw), if_pos hp, runCommand_done hf]

/-- Settles O28: the write passed the checks of the read, and the field reads as it was written. -/
theorem rdbitsAfterWrbitsReturnsTheValue : Obligations.RdbitsAfterWrbitsReturnsTheValue := by
  intro s t p w val c r hm hf h
  obtain ⟨hw, hp, hv, rfl⟩ := wrbits_completed hf h
  have hread := rdbits_answers (s := { s with mem := bitWrite s.mem p.toNat w.toNat val }) (c := c) hf hw hp
  rwa [bitRead_bitWrite hm hw hv] at hread

end Sys2Proof.Machine
end

section
/-! The bits of the rank vector counted (10_state.md R30), and what its summaries say while INV holds
(43_rank_select.md R204). -/

namespace Sys2Proof.Machine

theorem tally_eq_countFrom (f : Nat → Bool) (a b : Nat) : tally f a b = countFrom f a (b - a) := by
  rw [countFrom_eq_tally]
  rcases Nat.le_total a b with h | h
  · rw [Nat.add_sub_cancel' h]
  · rw [tally, tally, Nat.sub_eq_zero_of_le h, Nat.add_zero, Finset.Ico_self, Finset.Ico_eq_empty (by omega)]

/-- A tally over adjacent stretches is the sum of the tallies. -/
theorem tally_add (f : Nat → Bool) {a b c : Nat} (hab : a ≤ b) (hbc : b ≤ c) :
    tally f a c = tally f a b + tally f b c := by
  simp only [tally_eq_countFrom]
  rw [show c - a = (b - a) + (c - b) by omega, countFrom_add, Nat.add_sub_cancel' hab]

/-- A tally up to and including a position that the function accepts. -/
theorem tally_succ_of_accepts {f : Nat → Bool} {a q : Nat} (haq : a ≤ q) (hq : f q = true) :
    tally f a (q + 1) = tally f a q + 1 := by
  rw [tally_add f haq (Nat.le_add_right q 1), tally_eq_countFrom f q]
  simp [countFrom, hq]

/-- A position is accepted either by a function or by its complement. -/
theorem countFrom_true_add_false (f : Nat → Bool) (a n : Nat) :
    countFrom (fun q => f q == true) a n + countFrom (fun q => f q == false) a n = n := by
  induction n with
  | zero => rfl
  | succ n ih =>
    have last : (f (a + n) == true).toNat + (f (a + n) == false).toNat = 1 := by cases f (a + n) <;> rfl
    rw [countFrom, countFrom]
    omega

variable {s : State}

theorem vectorTally_add (x : Bool) {a b c : Nat} (hab : a ≤ b) (hbc : b ≤ c) :
    vectorTally s x a c = vectorTally s x a b + vectorTally s x b c := tally_add _ hab hbc

theorem vectorTally_self (x : Bool) (a : Nat) : vectorTally s x a a = 0 := by
  rw [vectorTally, tally_eq_countFrom, Nat.sub_self, countFrom]

theorem vectorTally_sub (x : Bool) {a b c : Nat} (hab : a ≤ b) (hbc : b ≤ c) :
    vectorTally s x a c - vectorTally s x a b = vectorTally s x b c := by
  rw [vectorTally_add x hab hbc, Nat.add_sub_cancel_left]

theorem vectorTally_mono (x : Bool) {a b c : Nat} (hab : a ≤ b) (hbc : b ≤ c) :
    vectorTally s x a b ≤ vectorTally s x a c := by
  rw [vectorTally_add x hab hbc]
  exact Nat.le_add_right _ _

/-- A bit of value `x` adds to every tally that reaches it. -/
theorem vectorTally_lt_of_vbit {x : Bool} {q a e : Nat} (hx : s.vbit q = x) (hae : a ≤ e) (he : e ≤ q) :
    vectorTally s x a e < vectorTally s x a (q + 1) :=
  calc vectorTally s x a e ≤ vectorTally s x a q := vectorTally_mono x hae he
    _ < vectorTally s x a q + 1 := Nat.lt_succ_self _
    _ = vectorTally s x a (q + 1) := (tally_succ_of_accepts (hae.trans he) (by simp [hx])).symm

theorem vectorTally_true_add_false (a b : Nat) :
    vectorTally s true a b + vectorTally s false a b = b - a := by
  rw [vectorTally, vectorTally, tally_eq_countFrom, tally_eq_countFrom, countFrom_true_add_false]

/-- A stretch of the vector counted in `M` (10_state.md R30). -/
theorem countFrom_vbegin (x : Bool) (a b : Nat) :
    countFrom (fun p => bitAt s.mem p == x) (s.vbegin + a) (b - a) = vectorTally s x a b := by
  rw [vectorTally, tally_eq_countFrom]
  exact countFrom_congr _ _ _ _ _ fun j _ => by rw [State.vbit, Nat.add_assoc]

theorem vones_eq_vectorTally (a b : Nat) : s.vones a b = vectorTally s true a b := by
  rw [← countFrom_vbegin, State.vones, ones, Nat.add_sub_add_left]
  simp only [beq_true]

/-- A block lies in use when it begins below the size (43_rank_select.md R201). -/
theorem lt_ceilDiv_iff {t n b : Nat} (hb : 0 < b) : t < ceilDiv n b ↔ t * b < n := by
  rw [ceilDiv, ← Nat.add_one_le_iff, Nat.le_div_iff_mul_le hb, Nat.add_one_mul]
  omega

/-- While INV holds the entry of a top-block in use is exact (R204). -/
theorem topOf_eq {t : Nat} (hlegal : s.build.legal = true) (hsum : s.summariesHold = true)
    (ht : t * s.build.bt < s.vsize) :
    s.topOf t = vectorTally s true 0 (min ((t + 1) * s.build.bt) s.vsize) := by
  obtain ⟨hpos, hlt, -, -⟩ := Build.legal_blocks hlegal
  simp only [State.summariesHold, Bool.and_eq_true, List.all_eq_true, List.mem_range] at hsum
  obtain ⟨htop, -⟩ := hsum
  have h := htop t ((lt_ceilDiv_iff (by omega)).mpr ht)
  rwa [State.topHolds, beq_iff_eq, vones_eq_vectorTally] at h

/-- While INV holds the entry of a stored middle-block in use is exact (R204). -/
theorem midOf_eq {j : Nat} (hlegal : s.build.legal = true) (hsum : s.summariesHold = true)
    (hj : j * s.build.bm < s.vsize) (hstored : isStored s.build j = true) :
    s.midOf j =
      vectorTally s true (j / s.build.perTop * s.build.bt) (min ((j + 1) * s.build.bm) s.vsize) := by
  obtain ⟨hpos, -, -, -⟩ := Build.legal_blocks hlegal
  simp only [State.summariesHold, Bool.and_eq_true, List.all_eq_true, List.mem_range] at hsum
  obtain ⟨-, hmid⟩ := hsum
  have h := hmid j ((lt_ceilDiv_iff hpos).mpr hj)
  simpa [State.midHolds, hstored, vones_eq_vectorTally] using h

/-- The bits of value `x` of a stretch `[a, e)` from the number of its 1-bits below the size, as CT and CM take them
(R207): exact when the stretch lies below the size. -/
theorem vectorTally_eq_of_ones (x : Bool) {a e o : Nat} (hae : a ≤ e) (ho : o = vectorTally s true a e) :
    (if x then o else e - a - o) = vectorTally s x a e := by
  have := vectorTally_true_add_false (s := s) a e
  cases x <;> simp <;> omega

/-- The same beyond the size: never too few (R207). -/
theorem vectorTally_le_of_ones (x : Bool) {a c e o : Nat} (hce : c ≤ e) (ho : o = vectorTally s true a c) :
    vectorTally s x a c ≤ if x then o else e - a - o := by
  have := vectorTally_true_add_false (s := s) a c
  cases x <;> simp <;> omega

end Sys2Proof.Machine
end

section
/-! Select in the rank vector (43_rank_select.md R206, R207): while INV holds the search by summaries finds the bit that
the count of the vector's bits names. -/

namespace Sys2Proof.Machine

variable {s : State}

/-- `numOnes` and `numZeros` count the vector while INV holds (R206). -/
theorem population_eq (x : Bool) (hlegal : s.build.legal = true) (hsum : s.summariesHold = true) :
    s.population x = vectorTally s x 0 s.vsize := by
  have hones : s.numOnes = vectorTally s true 0 s.vsize := by
    rw [State.numOnes]
    split
    · next h => rw [h, vectorTally, tally_eq_countFrom]; rfl
    · next h =>
      obtain ⟨hpos, hlt, -, -⟩ := Build.legal_blocks hlegal
      have hlast : (s.vsize - 1) / s.build.bt * s.build.bt ≤ s.vsize - 1 := Nat.div_mul_le_self _ _
      have hend := Nat.lt_div_mul_add (a := s.vsize - 1) (b := s.build.bt) (by omega)
      rw [topOf_eq hlegal hsum (by omega), Nat.add_one_mul, Nat.min_eq_right (by omega)]
  have hboth := vectorTally_true_add_false (s := s) 0 s.vsize
  cases x with
  | false =>
    rw [State.population, if_neg Bool.false_ne_true, State.numZeros, hones]
    omega
  | true => rw [State.population, if_pos rfl, hones]

/-- CT counts the vector up to a top-block's end, when that lies below the size (R207). -/
theorem cumTop_eq (x : Bool) {t : Nat} (hlegal : s.build.legal = true) (hsum : s.summariesHold = true)
    (ht : (t + 1) * s.build.bt ≤ s.vsize) : s.cumTop x t = vectorTally s x 0 ((t + 1) * s.build.bt) := by
  obtain ⟨-, hlt, -, -⟩ := Build.legal_blocks hlegal
  have hbegin : t * s.build.bt < s.vsize := by rw [Nat.add_one_mul] at ht; omega
  have hones := topOf_eq hlegal hsum hbegin
  rw [Nat.min_eq_left ht] at hones
  exact vectorTally_eq_of_ones x (Nat.zero_le _) hones

/-- CT of a top-block in use is at least the count up to a position in it (R207). -/
theorem vectorTally_le_cumTop (x : Bool) {q : Nat} (hlegal : s.build.legal = true) (hsum : s.summariesHold = true)
    (hq : q < s.vsize) : vectorTally s x 0 (q + 1) ≤ s.cumTop x (q / s.build.bt) := by
  obtain ⟨hpos, hlt, -, -⟩ := Build.legal_blocks hlegal
  have hbegin : q / s.build.bt * s.build.bt ≤ q := Nat.div_mul_le_self _ _
  have hend : q < (q / s.build.bt + 1) * s.build.bt := by
    rw [Nat.add_one_mul]; exact Nat.lt_div_mul_add (by omega)
  have hones := topOf_eq hlegal hsum (show q / s.build.bt * s.build.bt < s.vsize by omega)
  calc vectorTally s x 0 (q + 1)
      ≤ vectorTally s x 0 (min ((q / s.build.bt + 1) * s.build.bt) s.vsize) :=
        vectorTally_mono x (Nat.zero_le _) (by omega)
    _ ≤ s.cumTop x (q / s.build.bt) := vectorTally_le_of_ones x (Nat.min_le_left _ _) hones

/-- A middle-block that is not the last of its top-block `t` is stored (43_rank_select.md R201). -/
theorem isStored_of_not_last {b : Build} {t j : Nat} (hbegin : t * b.perTop ≤ j) (hlast : j + 1 < (t + 1) * b.perTop) :
    isStored b j = true ∧ j / b.perTop = t := by
  rw [Nat.add_one_mul] at hlast
  have hdiv : j / b.perTop = t := Nat.div_eq_of_lt_le hbegin (by rw [Nat.add_one_mul]; omega)
  have hmod := Nat.div_add_mod' j b.perTop
  rw [hdiv] at hmod
  refine ⟨?_, hdiv⟩
  rw [isStored, bne_iff_ne]
  omega

theorem perTop_mul_bm {b : Build} (hlegal : b.legal = true) (t : Nat) : t * b.perTop * b.bm = t * b.bt := by
  obtain ⟨-, -, hdvd, -⟩ := Build.legal_blocks hlegal
  rw [Nat.mul_assoc, Build.perTop, Nat.div_mul_cancel hdvd]

/-- A top-block begins at or before each of its middle-blocks. -/
theorem topBlock_le_middleBlock {b : Build} {t j : Nat} (hlegal : b.legal = true) (hj : t * b.perTop ≤ j) :
    t * b.bt ≤ j * b.bm := by
  rw [← perTop_mul_bm hlegal]
  exact Nat.mul_le_mul_right _ hj

/-- The middle-block of a position lies in its top-block. -/
theorem middleBlock_mem_topBlock {b : Build} (hlegal : b.legal = true) (q : Nat) :
    q / b.bt * b.perTop ≤ q / b.bm ∧ q / b.bm < (q / b.bt + 1) * b.perTop := by
  obtain ⟨hpos, hlt, -, -⟩ := Build.legal_blocks hlegal
  rw [← middleBlock_div_perTop hlegal, Nat.add_one_mul]
  exact ⟨Nat.div_mul_le_self _ _, Nat.lt_div_mul_add (Nat.div_pos hlt.le hpos)⟩

/-- CM by the ends of the stretch that it counts (R207). -/
theorem cumMid_eq_ite (x : Bool) {t j : Nat} (hlegal : s.build.legal = true) (hj : t * s.build.perTop ≤ j) :
    s.cumMid x (t * s.build.perTop) j =
      if x then s.midOf j else (j + 1) * s.build.bm - t * s.build.bt - s.midOf j := by
  rw [State.cumMid, ← perTop_mul_bm hlegal, ← Nat.sub_mul, Nat.sub_add_comm hj]

/-- CM counts the vector from the top-block's begin to the middle-block's end, when that lies below the size (R207). -/
theorem cumMid_eq (x : Bool) {t j : Nat} (hlegal : s.build.legal = true) (hsum : s.summariesHold = true)
    (hbegin : t * s.build.perTop ≤ j) (hlast : j + 1 < (t + 1) * s.build.perTop)
    (hj : (j + 1) * s.build.bm ≤ s.vsize) :
    s.cumMid x (t * s.build.perTop) j = vectorTally s x (t * s.build.bt) ((j + 1) * s.build.bm) := by
  obtain ⟨hstored, hdiv⟩ := isStored_of_not_last hbegin hlast
  obtain ⟨hpos, -, -, -⟩ := Build.legal_blocks hlegal
  have hfrom : t * s.build.bt ≤ (j + 1) * s.build.bm := topBlock_le_middleBlock hlegal (by omega)
  have hones := midOf_eq hlegal hsum (show j * s.build.bm < s.vsize by rw [Nat.add_one_mul] at hj; omega) hstored
  rw [hdiv, Nat.min_eq_left hj] at hones
  rw [cumMid_eq_ite x hlegal hbegin]
  exact vectorTally_eq_of_ones x hfrom hones

/-- CM of a stored middle-block in use is at least the count up to a position in it (R207). -/
theorem vectorTally_le_cumMid (x : Bool) {q : Nat} (hlegal : s.build.legal = true) (hsum : s.summariesHold = true)
    (hq : q < s.vsize) (hstored : isStored s.build (q / s.build.bm) = true) :
    vectorTally s x (q / s.build.bt * s.build.bt) (q + 1) ≤
      s.cumMid x (q / s.build.bt * s.build.perTop) (q / s.build.bm) := by
  obtain ⟨hpos, -, -, -⟩ := Build.legal_blocks hlegal
  have hfrom : q / s.build.bt * s.build.bt ≤ q := Nat.div_mul_le_self _ _
  have hbegin : q / s.build.bm * s.build.bm ≤ q := Nat.div_mul_le_self _ _
  have hend : q < (q / s.build.bm + 1) * s.build.bm := by
    rw [Nat.add_one_mul]; exact Nat.lt_div_mul_add hpos
  have hones := midOf_eq hlegal hsum (show q / s.build.bm * s.build.bm < s.vsize by omega) hstored
  rw [middleBlock_div_perTop hlegal] at hones
  rw [cumMid_eq_ite x hlegal (middleBlock_mem_topBlock hlegal q).1]
  exact (vectorTally_mono x (by omega) (show q + 1 ≤ min _ s.vsize by omega)).trans
    (vectorTally_le_of_ones x (Nat.min_le_left _ _) hones)

/-- The count before a top-block, as `rvsel` takes it (R207). -/
theorem cumTop_before (x : Bool) {t : Nat} (hlegal : s.build.legal = true) (hsum : s.summariesHold = true)
    (ht : t * s.build.bt ≤ s.vsize) :
    (if t > 0 then s.cumTop x (t - 1) else 0) = vectorTally s x 0 (t * s.build.bt) := by
  cases t with
  | zero => rw [if_neg (Nat.lt_irrefl 0), Nat.zero_mul, vectorTally_self]
  | succ t => rw [if_pos (Nat.succ_pos t), Nat.add_sub_cancel, cumTop_eq x hlegal hsum ht]

/-- The count before a middle-block in its top-block, as `rvsel` takes it (R207). -/
theorem cumMid_before (x : Bool) {t j : Nat} (hlegal : s.build.legal = true) (hsum : s.summariesHold = true)
    (hbegin : t * s.build.perTop ≤ j) (hlast : j < (t + 1) * s.build.perTop) (hj : j * s.build.bm ≤ s.vsize) :
    (if j > t * s.build.perTop then s.cumMid x (t * s.build.perTop) (j - 1) else 0) =
      vectorTally s x (t * s.build.bt) (j * s.build.bm) := by
  split
  · next h =>
    have hj1 : j - 1 + 1 = j := by omega
    rw [cumMid_eq x hlegal hsum (by omega) (by omega) (by rwa [hj1]), hj1]
  · next h =>
    rw [show j = t * s.build.perTop by omega, perTop_mul_bm hlegal, vectorTally_self]

section
variable {x : Bool} {q : Nat} (hlegal : s.build.legal = true) (hsum : s.summariesHold = true) (hq : q < s.vsize)
  (hx : s.vbit q = x)
include hlegal hsum hq hx

/-- The search by top-blocks stops at the top-block of the bit (R207). -/
theorem leastFrom_cumTop :
    leastFrom (fun t => decide (s.cumTop x t ≥ vectorTally s x 0 (q + 1))) 0 s.topsInUse =
      some (q / s.build.bt) := by
  obtain ⟨hpos, hlt, -, -⟩ := Build.legal_blocks hlegal
  have hbegin : q / s.build.bt * s.build.bt ≤ q := Nat.div_mul_le_self _ _
  refine (leastFrom_eq_some _ _ _ _).mpr ⟨Nat.zero_le _, ?_, ?_, fun r _ hr => ?_⟩
  · rw [Nat.zero_add]
    exact (lt_ceilDiv_iff (by omega)).mpr (by omega)
  · exact decide_eq_true (vectorTally_le_cumTop x hlegal hsum hq)
  · have hend : (r + 1) * s.build.bt ≤ q := (Nat.mul_le_mul_right _ hr).trans hbegin
    rw [decide_eq_false_iff_not, cumTop_eq x hlegal hsum (by omega), Nat.not_le]
    exact vectorTally_lt_of_vbit hx (Nat.zero_le _) hend

/-- The search by middle-blocks stops at the middle-block of the bit (R207). -/
theorem leastFrom_cumMid :
    leastFrom (fun j => !isStored s.build j ||
        decide (s.cumMid x (q / s.build.bt * s.build.perTop) j ≥
          vectorTally s x (q / s.build.bt * s.build.bt) (q + 1)))
      (q / s.build.bt * s.build.perTop) s.build.perTop = some (q / s.build.bm) := by
  obtain ⟨hfirst, hlast⟩ := middleBlock_mem_topBlock hlegal q
  have hbegin : q / s.build.bm * s.build.bm ≤ q := Nat.div_mul_le_self _ _
  refine (leastFrom_eq_some _ _ _ _).mpr ⟨hfirst, by rwa [← Nat.add_one_mul], ?_, fun r hfrom hr => ?_⟩
  · cases hstored : isStored s.build (q / s.build.bm)
    · rfl
    · exact decide_eq_true (vectorTally_le_cumMid x hlegal hsum hq hstored)
  · have hnext : r + 1 < (q / s.build.bt + 1) * s.build.perTop := by omega
    have hend : (r + 1) * s.build.bm ≤ q := (Nat.mul_le_mul_right _ hr).trans hbegin
    have hstart : q / s.build.bt * s.build.bt ≤ (r + 1) * s.build.bm := topBlock_le_middleBlock hlegal (by omega)
    obtain ⟨hstored, -⟩ := isStored_of_not_last hfrom hnext
    rw [hstored, Bool.not_true, Bool.false_or, decide_eq_false_iff_not,
      cumMid_eq x hlegal hsum hfrom hnext (by omega), Nat.not_le]
    exact vectorTally_lt_of_vbit hx hstart hend

/-- While INV holds `rvsel` finds each bit of the vector by its rank: both searches stop at the blocks that hold the
bit, and what is left of the rank counts the bits of the middle-block up to it (R207). -/
theorem rvsel_vectorTally (hend : s.vbegin + s.vsize ≤ s.bits) :
    s.rvsel (vectorTally s x 0 (q + 1)) x = some q := by
  obtain ⟨hfirst, hlast⟩ := middleBlock_mem_topBlock hlegal q
  have htop : q / s.build.bt * s.build.bt ≤ q := Nat.div_mul_le_self _ _
  have hmid : q / s.build.bm * s.build.bm ≤ q := Nat.div_mul_le_self _ _
  have hstart : q / s.build.bt * s.build.bt ≤ q / s.build.bm * s.build.bm := topBlock_le_middleBlock hlegal hfirst
  have rankInTop := vectorTally_sub (s := s) x (Nat.zero_le _) (htop.trans (Nat.le_add_right q 1))
  have rankInMid := vectorTally_sub (s := s) x hstart (hmid.trans (Nat.le_add_right q 1))
  have found : kth s.mem s.bits (s.vbegin + q / s.build.bm * s.build.bm)
      (vectorTally s x (q / s.build.bm * s.build.bm) (q + 1)) x = some (s.vbegin + q) := by
    have hpos := vectorTally_lt_of_vbit hx le_rfl hmid
    rw [kth, kthFrom_eq_some _ _ _ _ _ (by omega)]
    refine ⟨by omega, by omega, by rw [← State.vbit, hx, beq_self_eq_true], ?_⟩
    rw [Nat.add_assoc, Nat.add_sub_add_left, countFrom_vbegin]
  simp only [State.rvsel, leastFrom_cumTop hlegal hsum hq hx, cumTop_before x hlegal hsum (htop.trans hq.le),
    rankInTop, leastFrom_cumMid hlegal hsum hq hx,
    cumMid_before x hlegal hsum hfirst hlast (hmid.trans hq.le), rankInMid, found, Option.map_some,
    Nat.add_sub_cancel_left]

end

/-- While INV holds `rvsel` finds the bit of every rank up to the population (R206, R207). -/
theorem rvsel_eq_some_of_le_population {x : Bool} {k : Nat} (hlegal : s.build.legal = true)
    (hsum : s.summariesHold = true) (hend : s.vbegin + s.vsize ≤ s.bits) (hk : 1 ≤ k) (hpop : k ≤ s.population x) :
    ∃ q, kthFrom (fun p => s.vbit p == x) k 0 s.vsize = some q ∧ s.rvsel k x = some q := by
  rw [population_eq x hlegal hsum, vectorTally, tally_eq_countFrom, Nat.sub_zero] at hpop
  obtain ⟨q, hkth⟩ : ∃ q, kthFrom (fun p => s.vbit p == x) k 0 s.vsize = some q :=
    Option.ne_none_iff_exists'.mp fun hnone => by
      have := (kthFrom_eq_none _ _ _ _ hk).mp hnone
      omega
  obtain ⟨-, hq, hx, hrank⟩ := (kthFrom_eq_some _ _ _ _ _ hk).mp hkth
  rw [← tally_eq_countFrom] at hrank
  refine ⟨q, hkth, ?_⟩
  rw [← hrank]
  exact rvsel_vectorTally hlegal hsum (by omega) (beq_iff_eq.mp hx) hend

end Sys2Proof.Machine
end

section
/-! No command stops the model in a state that meets the invariant (20_memory.md R62): the registers keep every access
inside the address spaces (10_state.md R30, R31), and a select that passes its checks finds its bit. -/

namespace Sys2Proof.Machine

/-- The rule ends its command: it completes or faults, and does not stop the model (log entry 9). -/
def Reply.Ends : Reply → Prop
  | .done _ _ => True
  | .raise _ => True
  | .stop _ => False

/-- A command whose rule does not stop the model answers a next state. -/
theorem runCommand_answers {op : BitVec 8} {a : Word} {s : State} {reply : Reply} (h : reply.Ends) :
    ∃ t, runCommand op a s reply = .next t := by
  cases hf : s.faulted with
  | true => exact ⟨_, runCommand_locked hf⟩
  | false =>
    cases reply with
    | done r t => exact ⟨_, runCommand_done hf⟩
    | raise c => exact ⟨_, runCommand_raise hf⟩
    | stop f => exact h.elim

/-- A command without a check of its own. -/
theorem runCommand_done_answers (op : BitVec 8) (a r : Word) (s u : State) :
    ∃ t, runCommand op a s (.done r u) = .next t := runCommand_answers trivial

theorem Reply.ends_ite {c : Prop} [Decidable c] {r₁ r₂ : Reply} (h₁ : c → r₁.Ends) (h₂ : ¬c → r₂.Ends) :
    (if c then r₁ else r₂).Ends := by
  split
  · next hc => exact h₁ hc
  · next hc => exact h₂ hc

/-- A check that faults comes first. -/
theorem Reply.ends_check {c : Prop} [Decidable c] {code : FaultCode} {reply : Reply} (h : ¬c → reply.Ends) :
    (if c then .raise code else reply).Ends := Reply.ends_ite (fun _ => trivial) h

/-- The access stays inside the address spaces. -/
theorem Reply.ends_guard {b : Bool} {f : Fault} {reply : Reply} (hb : b = true) (h : reply.Ends) :
    (if !b then .stop f else reply).Ends := by
  rwa [hb, Bool.not_true, if_neg Bool.false_ne_true]

/-! ### Bit regions -/

theorem selectRule_ends (x : Bool) (base rank : Word) (s : State) : (selectRule x base rank s).Ends := by
  refine Reply.ends_check fun _ => Reply.ends_check fun _ => ?_
  split <;> trivial

theorem predecessorRule_ends (x : Bool) (p n : Word) (s : State) : (predecessorRule x p n s).Ends :=
  Reply.ends_check fun _ => Reply.ends_check fun _ => Reply.ends_ite (fun _ => trivial) fun _ => trivial

theorem successorRule_ends (x : Bool) (p n : Word) (s : State) : (successorRule x p n s).Ends :=
  Reply.ends_check fun _ => Reply.ends_check fun _ => trivial

/-! ### The rank vector -/

section
variable {s : State} (hs : s.Inv)
include hs

/-- The vector up to its capacity lies in `M`, and its entries exist (10_state.md R30). -/
theorem State.Inv.reaches {n : Nat} (hn : n ≤ s.rvcap.toNat) : s.reaches n = true := by
  obtain ⟨-, hwhole, hmax, hfit⟩ := rankVectorOk_iff.mp hs.rankVector
  rw [reaches_iff]
  omega

theorem State.Inv.reaches_vsize : s.reaches s.vsize = true :=
  have ⟨hsize, _⟩ := rankVectorOk_iff.mp hs.rankVector
  hs.reaches hsize

theorem summaryQuery_ends (r : Word) : (summaryQuery r s).Ends :=
  Reply.ends_guard hs.reaches_vsize (Reply.ends_ite (fun _ => trivial) fun _ => trivial)

theorem positionQuery_ends (p : Nat) (r : Word) : (positionQuery p r s).Ends :=
  Reply.ends_check fun _ => summaryQuery_ends hs r

/-- A select of a rank within the population finds its bit (43_rank_select.md R207, R214, R215). -/
theorem rvSelectRule_ends (x : Bool) (k : Nat) : (rvSelectRule x k s).Ends := by
  refine Reply.ends_check fun hk => Reply.ends_guard hs.reaches_vsize
    (Reply.ends_ite (fun hsum => Reply.ends_check fun hpop => ?_)
      fun _ => Reply.ends_check fun _ => trivial)
  obtain ⟨hend, -⟩ := reaches_iff.mp hs.reaches_vsize
  obtain ⟨q, -, hfound⟩ := rvsel_eq_some_of_le_population hs.legal hsum hend (Nat.pos_of_ne_zero hk)
    (Nat.not_lt.mp hpop)
  rw [hfound]
  trivial

theorem execRvAppend_answers (bit : Word) : ∃ t, execRvAppend bit s = .next t :=
  runCommand_answers (Reply.ends_check fun hcap => Reply.ends_check fun _ =>
    Reply.ends_guard (hs.reaches (Nat.not_le.mp hcap)) trivial)

theorem execRvShorten_answers (n : Word) : ∃ t, execRvShorten n s = .next t :=
  runCommand_answers (Reply.ends_check fun _ => Reply.ends_ite (fun _ => trivial) fun _ =>
    Reply.ends_guard hs.reaches_vsize trivial)

theorem execRvBit_answers (p : Word) : ∃ t, execRvBit p s = .next t :=
  runCommand_answers (Reply.ends_check fun _ => Reply.ends_guard hs.reaches_vsize trivial)

/-! ### The packed vector -/

/-- Elements that fit in PKWORDS words lie in `M` (10_state.md R31). -/
theorem State.Inv.packs {n w : Nat} (hn : n * w ≤ 64 * s.pkwords.toNat) : s.packs n w = true := by
  obtain ⟨hwidth, -, -, hfit⟩ := packedVectorOk_iff.mp hs.packedVector
  exact packs_iff.mpr ⟨hwidth, by omega⟩

/-- The elements up to the capacity fit in PKWORDS words (10_state.md R31). -/
theorem State.Inv.elements_fit {n : Nat} (hn : n ≤ s.pkcap.toNat) : n * s.pwidth ≤ 64 * s.pkwords.toNat := by
  obtain ⟨⟨hpos, -⟩, -, hcap, -⟩ := packedVectorOk_iff.mp hs.packedVector
  exact (Nat.le_div_iff_mul_le hpos).mp (hcap ▸ hn)

theorem State.Inv.pksize_le_pkcap : s.pksize.toNat ≤ s.pkcap.toNat :=
  have ⟨_, hsize, _⟩ := packedVectorOk_iff.mp hs.packedVector
  hsize

/-- An element below the size lies in `M`. -/
theorem State.Inv.packs_element {i : Nat} (hi : ¬i ≥ s.pksize.toNat) : s.packs (i + 1) s.pwidth = true :=
  hs.packs (hs.elements_fit ((Nat.not_le.mp hi).trans_le hs.pksize_le_pkcap))

theorem elementRead_ends (i : Nat) : (elementRead i s).Ends :=
  Reply.ends_check fun hi => Reply.ends_guard (hs.packs_element hi) trivial

theorem elementWrite_ends (i : Nat) (val : Word) : (elementWrite i val s).Ends :=
  Reply.ends_check fun hi => Reply.ends_check fun _ => Reply.ends_guard (hs.packs_element hi) trivial

theorem execPkAppend_answers (val : Word) : ∃ t, execPkAppend val s = .next t :=
  runCommand_answers (Reply.ends_check fun hcap => Reply.ends_check fun _ =>
    Reply.ends_guard (hs.packs (hs.elements_fit (Nat.not_le.mp hcap))) trivial)

/-- At either width the elements lie in the words of the vector (42_packed_int.md R178). -/
theorem execPkConvert_answers (w : Word) : ∃ t, execPkConvert w s = .next t := by
  refine runCommand_answers (Reply.ends_check fun _ => Reply.ends_check fun hcap =>
    Reply.ends_guard (hs.packs ?_) trivial)
  have hold := hs.elements_fit hs.pksize_le_pkcap
  have hnew := le_mul_ceilDiv (s.pksize.toNat * w.toNat)
  rcases max_choice s.pwidth w.toNat with hmax | hmax <;> rw [hmax] <;> omega

theorem execPkCap_answers (cap : Word) : ∃ t, execPkCap cap s = .next t := by
  refine runCommand_answers (Reply.ends_guard (hs.packs ?_) (Reply.ends_check fun _ => trivial))
  rw [Nat.zero_mul]
  exact Nat.zero_le _

end

/-! ### Every command -/

/-- The answer to a packet that is no command (30_encoding.md R105). -/
theorem answerRequest_illegal {s : State} {p : BitVec 224} {why : Illegal} (h : decode p = .illegal why) :
    answerRequest p s = illegalPacket p s := by simp [answerRequest, h]

theorem execCsrr_answers (num : Word) (s : State) : ∃ t, execCsrr num s = .next t := by
  cases hr : csrOf num.toNat with
  | some r => exact ⟨_, execCsrr_register hr⟩
  | none => rw [execCsrr_other hr]; exact runCommand_answers trivial

/-- Every command answers a next state while the invariant holds. -/
theorem exec_answers {s : State} (hs : s.Inv) (i : Instr) : ∃ t, exec i s = .next t :=
  match i with
  | .csrr _ _ _ => execCsrr_answers _ s
  | .popc x _ _ => runCommand_done_answers 0x10#8 x _ s _
  | .bsize v _ _ => runCommand_done_answers 0x11#8 v _ s _
  | .clz x _ _ => runCommand_done_answers 0x12#8 x _ s _
  | .ctz x _ _ => runCommand_done_answers 0x13#8 x _ s _
  | .rdbits _ _ _ => runCommand_answers
      (Reply.ends_check fun _ => Reply.ends_ite (fun _ => trivial) fun _ => trivial)
  | .wrbits _ _ _ => runCommand_answers
      (Reply.ends_check fun _ => Reply.ends_check fun _ => Reply.ends_check fun _ => trivial)
  | .cnt1 _ _ _ => runCommand_answers (Reply.ends_check fun _ => trivial)
  | .sel1 _ _ _ | .sel0 _ _ _ => runCommand_answers (selectRule_ends _ _ _ _)
  | .pred1 _ _ _ | .pred0 _ _ _ => runCommand_answers (predecessorRule_ends _ _ _ _)
  | .succ1 _ _ _ | .succ0 _ _ _ => runCommand_answers (successorRule_ends _ _ _ _)
  | .movbits _ _ _ => runCommand_answers (Reply.ends_check fun _ => trivial)
  | .cpybits _ _ _ => runCommand_answers (Reply.ends_check fun _ => Reply.ends_check fun _ => trivial)
  | .rvInit _ _ _ | .rvCap _ _ _ => runCommand_answers
      (Reply.ends_check fun _ => Reply.ends_check fun _ => trivial)
  | .rvAppend _ _ _ => execRvAppend_answers hs _
  | .rvRank1 _ _ _ | .rvRank0 _ _ _ | .rvPred1 _ _ _ | .rvSucc1 _ _ _ | .rvPred0 _ _ _ | .rvSucc0 _ _ _ =>
      runCommand_answers (positionQuery_ends hs _ _)
  | .rvSel1 _ _ _ | .rvSel0 _ _ _ => runCommand_answers (rvSelectRule_ends hs _ _)
  | .rvShorten _ _ _ => execRvShorten_answers hs _
  | .rvNones _ _ _ | .rvNzeros _ _ _ => runCommand_answers (summaryQuery_ends hs _)
  | .rvRebase _ _ _ | .pkRebase _ _ _ => runCommand_answers (Reply.ends_check fun _ => trivial)
  | .rvBit _ _ _ => execRvBit_answers hs _
  | .pkCfg _ _ _ => runCommand_answers (Reply.ends_check fun _ => Reply.ends_check fun _ => trivial)
  | .pkRd _ _ _ | .pkItrd _ _ _ => runCommand_answers (elementRead_ends hs _)
  | .pkWr _ _ _ | .pkItwr _ _ _ => runCommand_answers (elementWrite_ends hs _ _)
  | .pkAppend _ _ _ => execPkAppend_answers hs _
  | .pkResize _ _ _ => runCommand_answers (Reply.ends_ite (fun _ => trivial) fun _ => trivial)
  | .pkClear a _ _ => runCommand_done_answers 0x45#8 a _ s _
  | .pkSeek i _ _ => runCommand_done_answers 0x47#8 i _ s _
  | .pkAdv d _ _ => runCommand_done_answers 0x48#8 d _ s _
  | .pkConvert _ _ _ => execPkConvert_answers hs _
  | .pkCap _ _ _ => execPkCap_answers hs _

/-- Settles O12: the engine idles, takes a reset, answers a packet that is no command, or runs a command that does not
stop. -/
theorem invariantStatesNeverStop : Obligations.InvariantStatesNeverStop := by
  intro s hs
  match hport : s.port with
  | [] => exact ⟨s, step_idle hport⟩
  | .reset _ _ _ :: _ => exact ⟨_, step_reset hport⟩
  | .request p :: rest =>
    rw [step_request hport]
    cases hdecode : decode p with
    | command i =>
      rw [answerRequest_command hdecode]
      exact exec_answers (hs.takeRequest _ _) i
    | illegal why =>
      rw [answerRequest_illegal hdecode]
      rcases illegalPacket_cases p { s with port := rest, tick := s.tick + 1 } with ⟨-, h⟩ | ⟨-, h⟩
      · exact ⟨_, h⟩
      · exact ⟨_, h⟩

end Sys2Proof.Machine
end

section
/-! The opcode map read both ways (30_encoding.md R104): the row of every command, the command of every row, and the
opcodes that have a row (R105). -/

namespace Sys2Proof

open Laws

/-- Every command is the one its opcode's row makes of its operands. -/
theorem tableRow_of_command (i : Instr) : TableRow.Statement i :=
  match i with
  | .csrr x y z => TableRow.csrr x y z
  | .popc x y z => TableRow.popc x y z
  | .bsize x y z => TableRow.bsize x y z
  | .clz x y z => TableRow.clz x y z
  | .ctz x y z => TableRow.ctz x y z
  | .rdbits x y z => TableRow.rdbits x y z
  | .wrbits x y z => TableRow.wrbits x y z
  | .cnt1 x y z => TableRow.cnt1 x y z
  | .sel1 x y z => TableRow.sel1 x y z
  | .sel0 x y z => TableRow.sel0 x y z
  | .pred1 x y z => TableRow.pred1 x y z
  | .succ1 x y z => TableRow.succ1 x y z
  | .pred0 x y z => TableRow.pred0 x y z
  | .succ0 x y z => TableRow.succ0 x y z
  | .movbits x y z => TableRow.movbits x y z
  | .cpybits x y z => TableRow.cpybits x y z
  | .rvInit x y z => TableRow.rvInit x y z
  | .rvAppend x y z => TableRow.rvAppend x y z
  | .rvRank1 x y z => TableRow.rvRank1 x y z
  | .rvRank0 x y z => TableRow.rvRank0 x y z
  | .rvSel1 x y z => TableRow.rvSel1 x y z
  | .rvSel0 x y z => TableRow.rvSel0 x y z
  | .rvPred1 x y z => TableRow.rvPred1 x y z
  | .rvSucc1 x y z => TableRow.rvSucc1 x y z
  | .rvPred0 x y z => TableRow.rvPred0 x y z
  | .rvSucc0 x y z => TableRow.rvSucc0 x y z
  | .rvShorten x y z => TableRow.rvShorten x y z
  | .rvNones x y z => TableRow.rvNones x y z
  | .rvNzeros x y z => TableRow.rvNzeros x y z
  | .rvCap x y z => TableRow.rvCap x y z
  | .rvRebase x y z => TableRow.rvRebase x y z
  | .rvBit x y z => TableRow.rvBit x y z
  | .pkCfg x y z => TableRow.pkCfg x y z
  | .pkRd x y z => TableRow.pkRd x y z
  | .pkWr x y z => TableRow.pkWr x y z
  | .pkAppend x y z => TableRow.pkAppend x y z
  | .pkResize x y z => TableRow.pkResize x y z
  | .pkClear x y z => TableRow.pkClear x y z
  | .pkConvert x y z => TableRow.pkConvert x y z
  | .pkSeek x y z => TableRow.pkSeek x y z
  | .pkAdv x y z => TableRow.pkAdv x y z
  | .pkItrd x y z => TableRow.pkItrd x y z
  | .pkItwr x y z => TableRow.pkItwr x y z
  | .pkRebase x y z => TableRow.pkRebase x y z
  | .pkCap x y z => TableRow.pkCap x y z

/-- The encoder gives the commands of a row the row's opcode, and their operands as they are. -/
def Row.Encodes (r : Row) : Prop := ∀ a b c : Word, encode (r.make a b c) = packet r.op a b c

theorem encodes_of_mem_opcodeTable {r : Row} (h : r ∈ opcodeTable) : r.Encodes := by
  fin_cases h <;> exact fun _ _ _ => rfl

/-- The opcodes of the map in its order: each family fills one range (30_encoding.md R104). -/
theorem opcodeTable_numbers : opcodeTable.map (fun r => r.op.toNat) =
    [0x01] ++ List.range' 0x10 4 ++ List.range' 0x20 11 ++ List.range' 0x30 16 ++ List.range' 0x40 13 := rfl

theorem mem_and_op_of_rowOf {op : BitVec 8} {r : Row} (h : rowOf op = some r) : r ∈ opcodeTable ∧ r.op = op :=
  ⟨List.mem_of_find?_eq_some h, by simpa using List.find?_some h⟩

/-- An opcode has no row exactly when its number is none of the map's. -/
theorem rowOf_eq_none_iff_numbers {op : BitVec 8} :
    rowOf op = none ↔ op.toNat ∉ opcodeTable.map fun r => r.op.toNat := by
  simp [rowOf, List.find?_eq_none, BitVec.toNat_inj]

/-- The opcodes without a row are those of R105's ranges. -/
theorem rowOf_eq_none_iff {op : BitVec 8} : rowOf op = none ↔ opAssigned op = false := by
  rw [rowOf_eq_none_iff_numbers, opcodeTable_numbers]
  simp only [List.mem_append, List.mem_singleton, List.mem_range'_1, opAssigned, Bool.not_eq_false', Bool.or_eq_true,
    Bool.and_eq_true, decide_eq_true_eq, beq_iff_eq]
  omega

end Sys2Proof
end

section
/-! Decode and encode agree (30_encoding.md R100, R104), and what the decoder refuses (R105). -/

namespace Sys2Proof

/-- A packet whose bits 31:8 are zero is made of its other fields (30_encoding.md R100). -/
theorem packet_of_fields {p : BitVec 224} (h : fieldRsv p = 0#24) :
    packet (fieldOp p) (fieldA p) (fieldB p) (fieldC p) = p := by
  have hp := p.isLt
  have hrsv : p.toNat / 2 ^ 8 % 2 ^ 24 = 0 := by
    rw [← Nat.shiftRight_eq_div_pow, ← BitVec.extractLsb'_toNat]
    exact congrArg BitVec.toNat h
  apply BitVec.eq_of_toNat_eq
  simp only [packet_toNat, fieldOp, fieldA, fieldB, fieldC, BitVec.extractLsb'_toNat, Nat.shiftRight_eq_div_pow]
  omega

/-- What decodes to a command (30_encoding.md R104). -/
theorem decode_eq_command_iff {p : BitVec 224} {i : Instr} :
    decode p = .command i ↔
      fieldRsv p = 0#24 ∧ ∃ r, rowOf (fieldOp p) = some r ∧ r.make (fieldA p) (fieldB p) (fieldC p) = i := by
  unfold decode
  split
  · next h => cases rowOf (fieldOp p) <;> simp [h]
  · next h => simp [h]

/-- What the decoder refuses: bits 31:8 not zero, or no row for bits 7:0 (30_encoding.md R105). -/
theorem decode_illegal_iff {p : BitVec 224} :
    (∃ why, decode p = .illegal why) ↔ fieldRsv p ≠ 0#24 ∨ rowOf (fieldOp p) = none := by
  unfold decode
  split
  · next h => cases rowOf (fieldOp p) <;> simp [h]
  · next h => simp [h]

/-- Settles O1: the encoded fields read back, and the row of the command's opcode makes the command of them. -/
theorem decodeOfEncodeIsTheCommand : Obligations.DecodeOfEncodeIsTheCommand := by
  intro i
  obtain ⟨r, hrow, hmake⟩ := tableRow_of_command i
  rw [decode_eq_command_iff, encode, fieldOp_packet, fieldA_packet, fieldB_packet, fieldC_packet]
  exact ⟨fieldRsv_packet .., r, hrow, hmake⟩

/-- Settles O2: the row that made the command encodes it with the packet's own fields. -/
theorem encodeOfDecodeIsThePacket : Obligations.EncodeOfDecodeIsThePacket := by
  intro p i h
  obtain ⟨hrsv, r, hrow, rfl⟩ := decode_eq_command_iff.mp h
  obtain ⟨hmem, hop⟩ := mem_and_op_of_rowOf hrow
  calc encode (r.make (fieldA p) (fieldB p) (fieldC p))
      = packet r.op (fieldA p) (fieldB p) (fieldC p) := encodes_of_mem_opcodeTable hmem _ _ _
    _ = packet (fieldOp p) (fieldA p) (fieldB p) (fieldC p) := by rw [hop]
    _ = p := packet_of_fields hrsv

/-- Settles O3: the opcodes without a row are the unassigned ones. -/
theorem illegalPacketsAreTheUnassignedOnes : Obligations.IllegalPacketsAreTheUnassignedOnes := by
  intro p
  rw [decode_illegal_iff, rowOf_eq_none_iff]

theorem decode_of_encode_eq {p : BitVec 224} {i : Instr} (h : encode i = p) : decode p = .command i :=
  h ▸ decodeOfEncodeIsTheCommand i

/-- Settles O4: each packet is the encoding of its command. -/
theorem writtenPacketsDecode : Obligations.WrittenPacketsDecode :=
  ⟨decode_of_encode_eq rfl, decode_of_encode_eq rfl, decode_of_encode_eq rfl, decode_of_encode_eq rfl,
    decode_of_encode_eq rfl, decode_of_encode_eq rfl, decode_of_encode_eq rfl⟩

/-- The packets that are not well formed are the refused ones (30_encoding.md R105). -/
theorem wellFormed_eq_false_iff {p : BitVec 224} :
    Packet.wellFormed p = false ↔ ∃ why, decode p = .illegal why := by
  rw [illegalPacketsAreTheUnassignedOnes p, Packet.wellFormed, Bool.and_eq_false_iff, beq_eq_false_iff_ne]
  rfl

end Sys2Proof
end

section
/-! How a request is answered: an illegal packet by its fault (60_exceptions.md R282, R285), every packet by one
response (30_encoding.md R101). -/

namespace Sys2Proof.Machine

/-- An unlocked engine takes the fault of a packet that is no command (60_exceptions.md R282). -/
theorem illegalPacket_unlocked {p : BitVec 224} {s : State} (h : s.faulted = false) :
    illegalPacket p s = .next (s.takeFault .illegal (commandWord p) (fieldA p)) := by simp [illegalPacket, h]

/-- Settles O6: the packet is no command, so the unlocked engine takes its fault. -/
theorem illegalPacketTakesTheFault : Obligations.IllegalPacketTakesTheFault := by
  intro s p rest hport hf hp
  obtain ⟨why, hdecode⟩ := wellFormed_eq_false_iff.mp hp
  rw [step_request hport, answerRequest_illegal hdecode]
  exact illegalPacket_unlocked hf

/-- The port is left alone and one response is added, with `R = 0` unless its status is OK (30_encoding.md R101). -/
def RespondsOnce (s t : State) : Prop :=
  t.port = s.port ∧ ∃ r : Response, t.responses = s.responses ++ [r] ∧ (r.st ≠ 0x00#8 → r.result = 0#64)

/-- However a command is answered it is answered once, if its rule leaves the port and the responses alone. -/
theorem Answered.respondsOnce {P : State → Prop} {s t : State} (h : Answered P s t)
    (hP : ∀ u, P u → u.port = s.port ∧ u.responses = s.responses) : RespondsOnce s t := by
  cases h with
  | locked _ ht => exact ht ▸ ⟨rfl, _, rfl, fun _ => rfl⟩
  | completed r u hu ht =>
    obtain ⟨hport, hresponses⟩ := hP u hu
    refine ht ▸ ⟨hport, ⟨statusOk, r⟩, ?_, fun hst => absurd rfl hst⟩
    rw [State.respond_responses, hresponses]
  | faulted _ c cw a ht => exact ht ▸ ⟨rfl, _, rfl, fun _ => rfl⟩

theorem OtherEffect.port_responses {s u : State} (e : OtherEffect s u) :
    u.port = s.port ∧ u.responses = s.responses := by rw [e.frame]; exact ⟨rfl, rfl⟩

theorem RankEffect.port_responses {s u : State} (e : RankEffect s u) :
    u.port = s.port ∧ u.responses = s.responses := by rw [e.frame]; exact ⟨rfl, rfl⟩

theorem exec_respondsOnce {i : Instr} {s t : State} (h : exec i s = .next t) : RespondsOnce s t := by
  rcases exec_answered h with ⟨-, ha⟩ | ⟨-, ha⟩
  · exact ha.respondsOnce fun _ e => e.port_responses
  · exact ha.respondsOnce fun _ e => e.port_responses

theorem illegalPacket_respondsOnce {p : BitVec 224} {s t : State} (h : illegalPacket p s = .next t) :
    RespondsOnce s t :=
  (illegalPacket_answered (P := fun _ => False) h).respondsOnce fun _ => False.elim

/-- A request packet is answered once, whether it is a command or not (30_encoding.md R101). -/
theorem answerRequest_respondsOnce {p : BitVec 224} {s t : State} (h : answerRequest p s = .next t) :
    RespondsOnce s t := by
  cases hdecode : decode p with
  | command i => exact exec_respondsOnce (answerRequest_command hdecode ▸ h)
  | illegal why => exact illegalPacket_respondsOnce (answerRequest_illegal hdecode ▸ h)

/-- Settles O18: the step takes the packet from the port and sends what `answerRequest` answers. -/
theorem everyRequestGetsOneResponse : Obligations.EveryRequestGetsOneResponse := by
  intro s t p rest hport h
  rw [step_request hport] at h
  exact answerRequest_respondsOnce h

end Sys2Proof.Machine
end

section
/-! The `k`-th position that a function accepts: over adjacent stretches, shifted, and the first one. -/

namespace Sys2Proof.Machine

/-- The search goes on behind a stretch that holds fewer than `k`, with what that stretch left of `k`. -/
theorem kthFrom_add (f : Nat → Bool) {k : Nat} (a m n : Nat) (hk : 1 ≤ k) :
    kthFrom f k a (m + n) =
      if k ≤ countFrom f a m then kthFrom f k a m else kthFrom f (k - countFrom f a m) (a + m) n := by
  induction m generalizing a k with
  | zero => simp [countFrom, show ¬k ≤ 0 by omega]
  | succ m ih =>
    have hstart : a + 1 + m = a + (m + 1) := by omega
    rw [Nat.add_right_comm m 1 n, countFrom_succ_left]
    simp only [kthFrom]
    cases f a with
    | false => simp [ih (a + 1) hk, hstart]
    | true =>
      by_cases h1 : k = 1
      · simp [h1]
      · have hle : k - 1 ≤ countFrom f (a + 1) m ↔ k ≤ 1 + countFrom f (a + 1) m := by omega
        simp [h1, ih (k := k - 1) (a + 1) (by omega), hstart, hle, Nat.sub_sub]

/-- A search in a window of another function's positions. -/
theorem kthFrom_map_add {f g : Nat → Bool} {d : Nat} (k a n : Nat)
    (h : ∀ i, a ≤ i → i < a + n → g i = f (d + i)) :
    (kthFrom g k a n).map (d + ·) = kthFrom f k (d + a) n := by
  induction n generalizing a k with
  | zero => rfl
  | succ n ih =>
    have hrest := fun k => ih k (a + 1) fun i hi hn => h i (by omega) (by omega)
    simp only [kthFrom, ← h a (Nat.le_refl a) (by omega)]
    cases g a with
    | false => exact hrest k
    | true =>
      by_cases h1 : k = 1
      · simp [h1]
      · simpa [h1, Nat.add_assoc] using hrest (k - 1)

/-- The first position is the least one. -/
theorem kthFrom_one (f : Nat → Bool) (a n : Nat) : kthFrom f 1 a n = leastFrom f a n := by
  induction n generalizing a with
  | zero => rfl
  | succ n ih => simp [kthFrom, leastFrom, ih]

/-- There is a `k`-th position as long as `k` are accepted. -/
theorem kthFrom_isSome {f : Nat → Bool} {k a n : Nat} (hk : 1 ≤ k) (h : k ≤ countFrom f a n) :
    ∃ q, kthFrom f k a n = some q := by
  refine Option.ne_none_iff_exists'.mp fun hnone => ?_
  have := (kthFrom_eq_none f k a n hk).mp hnone
  omega

end Sys2Proof.Machine
end

section
/-! The functions of one word (40_word_primitives.md R130 to R136): what each says of the word's bits. -/

namespace Sys2Proof.Machine

/-! ### Population count -/

/-- A tally from 0 on counts the accepted elements of `Fin n`. -/
theorem tally_zero_eq_card (f : Nat → Bool) (n : Nat) :
    tally f 0 n = (Finset.univ.filter fun j : Fin n => f j = true).card := by
  rw [tally, Finset.card_filter, Finset.card_filter, Nat.Ico_zero_eq_range]
  exact (Fin.sum_univ_eq_sum_range (fun j => if f j = true then 1 else 0) n).symm

/-- The 1-bits, counted (R130). -/
theorem popcount_eq_tally (x : Word) : popcount x = tally x.getLsbD 0 64 := countFrom_eq_tally _ 0 64

/-! ### Bit size and leading zeros -/

/-- The bits from `w` on are 0 exactly when the value is below `2^w`. -/
theorem toNat_lt_two_pow_iff (x : Word) (w : Nat) : x.toNat < 2 ^ w ↔ ∀ j, w ≤ j → x.getLsbD j = false :=
  ⟨fun h j => getLsbD_of_fits x w j h, Nat.lt_pow_two_of_testBit x.toNat⟩

/-- A word without a 1-bit is 0; the range is written as the searches' laws write it. -/
theorem eq_zero_iff_getLsbD {x : Word} : x = 0#64 ↔ ∀ r, 0 ≤ r → r < 0 + 64 → x.getLsbD r = false := by
  refine ⟨fun h r _ _ => by simp [h], fun h => BitVec.eq_of_getLsbD_eq fun i hi => ?_⟩
  rw [h i (Nat.zero_le i) (by omega), BitVec.getLsbD_zero]

/-- Any word but 0 has a most significant 1-bit, with nothing but 0-bits above it (R131). -/
theorem exists_top_bit {x : Word} (hx : x ≠ 0#64) :
    ∃ q, greatestFrom x.getLsbD 0 64 = some q ∧ q < 64 ∧ x.getLsbD q = true ∧
      ∀ j, q < j → x.getLsbD j = false := by
  have hfound : greatestFrom x.getLsbD 0 64 ≠ none := fun hnone =>
    hx (eq_zero_iff_getLsbD.mpr ((greatestFrom_eq_none x.getLsbD 0 64).mp hnone))
  obtain ⟨q, hq⟩ := Option.ne_none_iff_exists'.mp hfound
  obtain ⟨-, hlt, hone, habove⟩ := (greatestFrom_eq_some x.getLsbD 0 64 q).mp hq
  refine ⟨q, hq, by omega, hone, fun j hj => ?_⟩
  rcases Nat.lt_or_ge j 64 with h64 | h64
  · exact habove j hj (by omega)
  · exact BitVec.getLsbD_of_ge x j h64

theorem bitSize_zero : bitSize 0#64 = 1 := by decide

theorem leadingZeros_zero : leadingZeros 0#64 = 64 := by decide

/-- The bit size of any word but 0 stands one above the most significant 1-bit (R131). -/
theorem bitSize_of_ne_zero {x : Word} (hx : x ≠ 0#64) :
    1 ≤ bitSize x ∧ bitSize x ≤ 64 ∧ x.getLsbD (bitSize x - 1) = true ∧ ∀ j, bitSize x ≤ j → x.getLsbD j = false := by
  obtain ⟨q, hq, hlt, hone, habove⟩ := exists_top_bit hx
  have hsize : bitSize x = q + 1 := by simp [bitSize, hq]
  rw [hsize]
  exact ⟨by omega, hlt, hone, habove⟩

theorem bitSize_range (x : Word) : 1 ≤ bitSize x ∧ bitSize x ≤ 64 := by
  by_cases hx : x = 0#64
  · rw [hx, bitSize_zero]; decide
  · obtain ⟨hpos, hle, -, -⟩ := bitSize_of_ne_zero hx
    exact ⟨hpos, hle⟩

/-- The widths that hold the value are those from its bit size on (R131). -/
theorem bitSize_le_iff {x : Word} {w : Nat} (hw : 1 ≤ w) : bitSize x ≤ w ↔ x.toNat < 2 ^ w := by
  rw [toNat_lt_two_pow_iff]
  by_cases hx : x = 0#64
  · simp [hx, bitSize_zero, hw]
  · obtain ⟨hpos, -, htop, habove⟩ := bitSize_of_ne_zero hx
    refine ⟨fun h j hj => habove j (by omega), fun h => Nat.le_of_not_lt fun hlt => ?_⟩
    simp [h (bitSize x - 1) (by omega)] at htop

/-- Bit size and leading zeros of any word but 0 make up the word (R132). -/
theorem leadingZeros_add_bitSize {x : Word} (hx : x ≠ 0#64) : leadingZeros x + bitSize x = 64 := by
  obtain ⟨q, hq, hlt, -, -⟩ := exists_top_bit hx
  simp only [leadingZeros, bitSize, hq]
  omega

theorem leadingZeros_le (x : Word) : leadingZeros x ≤ 64 := by
  by_cases hx : x = 0#64
  · rw [hx, leadingZeros_zero]
  · have := leadingZeros_add_bitSize hx
    omega

/-- The bits from 63 down that `leadingZeros` counts are 0 (R132). -/
theorem getLsbD_of_leadingZeros_le {x : Word} {j : Nat} (hj : 64 - leadingZeros x ≤ j) : x.getLsbD j = false := by
  by_cases hx : x = 0#64
  · simp [hx]
  · obtain ⟨-, -, -, habove⟩ := bitSize_of_ne_zero hx
    have := leadingZeros_add_bitSize hx
    exact habove j (by omega)

/-- Below the leading zeros stands a 1-bit, unless they are the whole word (R132). -/
theorem getLsbD_leadingZeros {x : Word} (h : leadingZeros x < 64) : x.getLsbD (63 - leadingZeros x) = true := by
  have hx : x ≠ 0#64 := fun hx => by simp [hx, leadingZeros_zero] at h
  obtain ⟨-, -, htop, -⟩ := bitSize_of_ne_zero hx
  have := leadingZeros_add_bitSize hx
  rwa [show 63 - leadingZeros x = bitSize x - 1 by omega]

/-! ### The byte walk and trailing zeros -/

/-- A byte's bits are eight of the word's (20_memory.md R62). -/
theorem byteOf_getLsbD (x : Word) (j : Nat) {i : Nat} (hi : i < 8) :
    (byteOf x j).getLsbD i = x.getLsbD (8 * j + i) := by
  simp [byteOf, hi]

theorem pop8_byteOf (x : Word) (j : Nat) : pop8 (byteOf x j) = countFrom x.getLsbD (8 * j) 8 :=
  countFrom_congr _ _ 0 (8 * j) 8 fun i hi => by rw [Nat.zero_add, byteOf_getLsbD x j hi]

/-- The select inside one byte, as a position of the word (R135). -/
theorem sel8_byteOf (x : Word) (j k : Nat) :
    (sel8 (byteOf x j) k).map (8 * j + ·) = kthFrom x.getLsbD k (8 * j) 8 :=
  kthFrom_map_add k 0 8 fun i _ hi => byteOf_getLsbD x j (by omega)

/-- The byte walk from byte `j` on finds the `k`-th 1-bit from bit `8j` on (R136). -/
theorem selectBytes_eq_kthFrom (x : Word) {k : Nat} (j n : Nat) (hk : 1 ≤ k) :
    selectBytes x k j n = kthFrom x.getLsbD k (8 * j) (8 * n) := by
  induction n generalizing j k with
  | zero => rfl
  | succ n ih =>
    rw [selectBytes, pop8_byteOf, sel8_byteOf, Nat.mul_succ, Nat.add_comm (8 * n) 8, kthFrom_add _ _ _ _ hk]
    split
    · rfl
    · exact ih (j + 1) (by omega)

theorem sel1w_eq_kthFrom (x : Word) {k : Nat} (hk : 1 ≤ k) : sel1w x k = kthFrom x.getLsbD k 0 64 :=
  selectBytes_eq_kthFrom x 0 8 hk

/-- `sel1w(x, k)` finds the `k`-th 1-bit (R136). -/
theorem sel1w_finds {x : Word} {k : Nat} (hk : 1 ≤ k) (h : k ≤ tally x.getLsbD 0 64) :
    ∃ q, q < 64 ∧ sel1w x k = some q ∧ x.getLsbD q = true ∧ tally x.getLsbD 0 (q + 1) = k := by
  obtain ⟨q, hq⟩ := kthFrom_isSome hk (tally_eq_countFrom x.getLsbD 0 64 ▸ h)
  obtain ⟨-, hlt, hone, hcount⟩ := (kthFrom_eq_some x.getLsbD k 0 64 q hk).mp hq
  exact ⟨q, by omega, (sel1w_eq_kthFrom x hk).trans hq, hone, (tally_eq_countFrom _ _ _).trans hcount⟩

/-- The 1-bits of the complement are the 0-bits of the word. -/
theorem tally_complement (x : Word) {n : Nat} (hn : n ≤ 64) :
    tally (~~~x).getLsbD 0 n = tally (fun j => !x.getLsbD j) 0 n := by
  simp only [tally_eq_countFrom]
  refine countFrom_congr _ _ 0 0 _ fun j hj => ?_
  simp [show j < 64 by omega]

/-- Every bit of a word is a 1-bit or a 0-bit. -/
theorem tally_add_tally_not (x : Word) :
    tally x.getLsbD 0 64 + tally (fun j => !x.getLsbD j) 0 64 = 64 := by
  simpa [tally_eq_countFrom] using countFrom_true_add_false x.getLsbD 0 64

/-- `sel0w(x, k)` finds the `k`-th 0-bit (R136): it is the select of the complement. -/
theorem sel0w_finds {x : Word} {k : Nat} (hk : 1 ≤ k) (h : k ≤ 64 - tally x.getLsbD 0 64) :
    ∃ q, q < 64 ∧ sel0w x k = some q ∧ x.getLsbD q = false ∧ tally (fun j => !x.getLsbD j) 0 (q + 1) = k := by
  have hzeros : k ≤ tally (~~~x).getLsbD 0 64 := by
    have := tally_add_tally_not x
    rw [tally_complement x (Nat.le_refl 64)]
    omega
  obtain ⟨q, hlt, hsel, hone, hcount⟩ := sel1w_finds hk hzeros
  exact ⟨q, hlt, hsel, by simpa [hlt] using hone, tally_complement x hlt ▸ hcount⟩

theorem trailingZeros_zero : trailingZeros 0#64 = 64 := by decide

/-- The trailing zeros of any word but 0 are the position of its least 1-bit (R133). -/
theorem leastFrom_eq_trailingZeros {x : Word} (hx : x ≠ 0#64) :
    leastFrom x.getLsbD 0 64 = some (trailingZeros x) := by
  cases hq : leastFrom x.getLsbD 0 64 with
  | none => exact absurd (eq_zero_iff_getLsbD.mpr ((leastFrom_eq_none x.getLsbD 0 64).mp hq)) hx
  | some q => simp [trailingZeros, hq]

/-- The bits below the trailing zeros' count are 0, and the next one is 1 (R133). -/
theorem trailingZeros_of_ne_zero {x : Word} (hx : x ≠ 0#64) :
    trailingZeros x < 64 ∧ x.getLsbD (trailingZeros x) = true ∧ ∀ j, j < trailingZeros x → x.getLsbD j = false := by
  obtain ⟨-, hlt, hone, hbelow⟩ := (leastFrom_eq_some x.getLsbD 0 64 _).mp (leastFrom_eq_trailingZeros hx)
  exact ⟨by omega, hone, fun j => hbelow j (Nat.zero_le j)⟩

/-- The first 1-bit that the byte walk finds is behind the trailing zeros (R133, R136). -/
theorem sel1w_one {x : Word} (hx : x ≠ 0#64) : sel1w x 1 = some (trailingZeros x) := by
  rw [sel1w_eq_kthFrom x (Nat.le_refl 1), kthFrom_one, leastFrom_eq_trailingZeros hx]

end Sys2Proof.Machine
end

section
/-! The word primitives (40_word_primitives.md R130 to R133): each completes with its function of operand A. -/

namespace Sys2Proof.Machine

section
variable {s : State} (x b c : Word)

theorem popc_answers (hf : s.faulted = false) : Answers (.popc x b c) s (BitVec.ofNat 64 (popcount x)) s :=
  runCommand_done (op := 0x10#8) (a := x) hf

theorem bsize_answers (hf : s.faulted = false) : Answers (.bsize x b c) s (BitVec.ofNat 64 (bitSize x)) s :=
  runCommand_done (op := 0x11#8) (a := x) hf

theorem clz_answers (hf : s.faulted = false) : Answers (.clz x b c) s (BitVec.ofNat 64 (leadingZeros x)) s :=
  runCommand_done (op := 0x12#8) (a := x) hf

theorem ctz_answers (hf : s.faulted = false) : Answers (.ctz x b c) s (BitVec.ofNat 64 (trailingZeros x)) s :=
  runCommand_done (op := 0x13#8) (a := x) hf

end

/-- Settles O22: the widths that hold the value are those from the bit size on. -/
theorem bsizeIsTheLeastWidth : Obligations.BsizeIsTheLeastWidth := by
  intro s v b c hf
  obtain ⟨hpos, hle⟩ := bitSize_range v
  exact ⟨bitSize v, bsize_answers v b c hf, hpos, hle, (bitSize_le_iff hpos).mp (Nat.le_refl _),
    fun _ hw => (bitSize_le_iff hw).mpr⟩

/-- Settles O23: leading zeros and bit size make up the word. -/
theorem clzCountsZerosFromTheTop : Obligations.ClzCountsZerosFromTheTop := by
  intro s x b c hf
  refine ⟨leadingZeros x, clz_answers x b c hf, leadingZeros_le x, fun _ => getLsbD_of_leadingZeros_le,
    getLsbD_leadingZeros, fun hx => ?_⟩
  rw [show 64 - leadingZeros x = bitSize x from Nat.sub_eq_of_eq_add' (leadingZeros_add_bitSize hx).symm]
  exact bsize_answers x b c hf

/-- Settles O24: 0 has only trailing zeros, and any other word has its least 1-bit behind them. -/
theorem ctzCountsZerosFromTheBottom : Obligations.CtzCountsZerosFromTheBottom := by
  intro s x b c hf
  refine ⟨trailingZeros x, ctz_answers x b c hf, ?_⟩
  by_cases hx : x = 0#64
  · simp [hx, trailingZeros_zero]
  · obtain ⟨hlt, hone, hbelow⟩ := trailingZeros_of_ne_zero hx
    exact ⟨Nat.le_of_lt hlt, hbelow, fun _ => hone, sel1w_one⟩

/-- Settles O25: the byte walk is the search for the `k`-th 1-bit, of the word or of its complement. -/
theorem byteWalkFindsTheKthBit : Obligations.ByteWalkFindsTheKthBit :=
  fun _ _ hk => ⟨sel1w_finds hk, sel0w_finds hk⟩

/-- Settles O21: the population count is the tally of the 1-bits. -/
theorem popcCountsTheOneBits : Obligations.PopcCountsTheOneBits := by
  intro s x b c hf
  rw [← tally_zero_eq_card x.getLsbD 64, ← popcount_eq_tally]
  exact popc_answers x b c hf

end Sys2Proof.Machine
end

section
/-! How a command of an unlocked engine ends, read off its rule (60_exceptions.md R283 to R285). -/

namespace Sys2Proof.Machine

section
variable {i : Instr} {s : State} {reply : Reply} (hf : s.faulted = false)
  (hexec : exec i s = runCommand i.opcode i.operandA s reply)
include hf hexec

theorem faults_of_rule {c : FaultCode} (h : reply = .raise c) : Faults i s c := by
  rw [Faults, hexec, h, runCommand_raise hf, encode, commandWord_packet]

theorem answers_of_rule {r : Word} {t : State} (h : reply = .done r t) : Answers i s r t := by
  rw [Answers, hexec, h, runCommand_done hf]

end

end Sys2Proof.Machine
end

section
/-! The field commands RDBITS and WRBITS (41_bit_region.md R141, R142). -/

namespace Sys2Proof.Machine

/-- A region is not in bounds (20_memory.md R69). -/
theorem not_holdsRegion_iff {s : State} {p len : Nat} :
    ¬s.holdsRegion p len = true ↔ 64 * s.build.nwords < p + len := by
  rw [holdsRegion_iff, Nat.not_le]

/-- Settles O26: the checks in their order, then the bits of the field read. -/
theorem rdbitsReturnsTheField : Obligations.RdbitsReturnsTheField := by
  intro s p w c hf
  refine ⟨fun hw => faults_of_rule hf rfl (if_pos hw), fun hw hp => faults_of_rule hf rfl ?_, fun hw hp => ?_⟩
  · exact (if_neg (Nat.not_lt.mpr hw)).trans (if_neg (not_holdsRegion_iff.mpr hp))
  · exact ⟨bitRead s.mem p.toNat w.toNat, rdbits_answers hf hw (holdsRegion_iff.mpr hp),
      fun j => bitRead_getLsbD s.mem p.toNat w.toNat j hw⟩

/-- A field write stores the field (20_memory.md R65). -/
theorem fieldStored_bitWrite {m : Memory 64} {p w : Nat} {v : Word} (hm : Memory.wf m) (hw : w ≤ 64)
    (hv : v.toNat < 2 ^ w) : FieldStored m (bitWrite m p w v) p w v :=
  ⟨bitWrite_wf m p w v hm, fun q => bitAt_bitWrite m p w q v hm hw hv⟩

/-- Settles O27: the checks in their order, then the field write. -/
theorem wrbitsStoresExactlyTheField : Obligations.WrbitsStoresExactlyTheField := by
  intro s p w val hm hf
  have widthOk (hw : w.toNat ≤ 64) : ¬w.toNat > maxWidth := Nat.not_lt.mpr hw
  have inside (hp : p.toNat + w.toNat ≤ 64 * s.build.nwords) : ¬(!s.holdsRegion p.toNat w.toNat) = true := by
    simp [holdsRegion_iff.mpr hp]
  refine ⟨fun hw => faults_of_rule hf rfl (if_pos hw), fun hw hp => faults_of_rule hf rfl ?_,
    fun hw hp hv => faults_of_rule hf rfl ?_,
    fun hw hp hv => ⟨_, answers_of_rule hf rfl ?_, fieldStored_bitWrite hm hw hv⟩⟩
  · exact (if_neg (widthOk hw)).trans (if_pos (by simpa using not_holdsRegion_iff.mpr hp))
  · exact (if_neg (widthOk hw)).trans <| (if_neg (inside hp)).trans <| if_pos (by simpa [fits] using hv)
  · exact (if_neg (widthOk hw)).trans <| (if_neg (inside hp)).trans <| if_neg (by simpa [fits] using hv)

end Sys2Proof.Machine
end

section
/-! The counting commands CNT1, SEL1 and SEL0 (41_bit_region.md R143 to R145, R152). -/

namespace Sys2Proof.Machine

/-- `ones(a, b)` counts the bits of value 1 (20_memory.md R66). -/
theorem ones_eq_bitTally (m : Memory 64) (a b : Nat) : ones m a b = bitTally m true a b := by
  simp only [ones_eq_tally, bitTally, beq_true]

/-- `CNT1` of a region in bounds (R143). -/
theorem cnt1_answers {s : State} {base last c : Word} (hf : s.faulted = false) (hbase : base.toNat < s.build.nwords)
    (hlast : last.toNat < 64 * s.build.nwords) (hle : 64 * base.toNat ≤ last.toNat) :
    Answers (.cnt1 base last c) s (BitVec.ofNat 64 (bitTally s.mem true (64 * base.toNat) (last.toNat + 1))) s := by
  rw [← ones_eq_bitTally]
  refine answers_of_rule hf rfl (if_neg ?_)
  simp [State.bits, hbase, hlast, hle]

/-- Settles O29: the three checks are one disjunction, and the count is a tally. -/
theorem cntCountsTheRegion : Obligations.CntCountsTheRegion := by
  intro s base last c hf
  refine ⟨fun hout => faults_of_rule hf rfl (if_pos ?_), cnt1_answers hf⟩
  simpa [State.bits, or_assoc] using hout

/-- What `kth` finds: the position that makes the tally `k` (20_memory.md R66). -/
theorem kth_eq_some {m : Memory 64} {limit a k q : Nat} {x : Bool} (hk : 1 ≤ k) :
    kth m limit a k x = some q ↔ a ≤ q ∧ q < limit ∧ bitAt m q = x ∧ bitTally m x a (q + 1) = k := by
  rw [kth, kthFrom_eq_some _ _ _ _ _ hk, bitTally, tally_eq_countFrom, beq_iff_eq]
  have hrange : a ≤ q → (q < a + (limit - a) ↔ q < limit) := by omega
  exact and_congr_right fun haq => and_congr_left' (hrange haq)

/-- When `kth` finds nothing: the region holds fewer than `k` such bits. -/
theorem kth_eq_none {m : Memory 64} {limit a k : Nat} {x : Bool} (hk : 1 ≤ k) :
    kth m limit a k x = none ↔ bitTally m x a limit < k := by
  rw [kth, kthFrom_eq_none _ _ _ _ hk, bitTally, tally_eq_countFrom]

section
variable {x : Bool} {base rank : Word} {s : State}

/-- The rule of a select whose base word lies in `M` and whose rank is above 0: the search decides (R144, R145). -/
theorem selectRule_eq_search (hbase : base.toNat < s.build.nwords) (hrank : 1 ≤ rank.toNat) :
    selectRule x base rank s =
      (kth s.mem s.bits (64 * base.toNat) rank.toNat x).elim (.raise .rank) fun q => .done (word q) s := by
  refine (if_neg (Nat.not_le.mpr hbase)).trans <| (if_neg (Nat.one_le_iff_ne_zero.mp hrank)).trans ?_
  cases kth s.mem s.bits (64 * base.toNat) rank.toNat x <;> rfl

/-- A select finds nothing for rank 0 and above the number of such bits (R144, R145). -/
theorem selectRule_rank (hbase : base.toNat < s.build.nwords)
    (hrank : rank.toNat = 0 ∨ bitTally s.mem x (64 * base.toNat) s.bits < rank.toNat) :
    selectRule x base rank s = .raise .rank := by
  by_cases hzero : rank.toNat = 0
  · exact (if_neg (Nat.not_le.mpr hbase)).trans (if_pos hzero)
  · have hpos : 1 ≤ rank.toNat := Nat.one_le_iff_ne_zero.mpr hzero
    rw [selectRule_eq_search hbase hpos, (kth_eq_none hpos).mpr (hrank.resolve_left hzero), Option.elim_none]

/-- What a select checked and found when it completed (R144, R145). -/
theorem selectRule_completed {r : Word} {t : State} (h : selectRule x base rank s = .done r t) :
    base.toNat < s.build.nwords ∧ 1 ≤ rank.toNat ∧
      ∃ q, kth s.mem s.bits (64 * base.toNat) rank.toNat x = some q ∧ r = word q := by
  obtain ⟨hbase, hrest⟩ := Reply.done_of_check h
  obtain ⟨hrank, hsearch⟩ := Reply.done_of_check hrest
  refine ⟨Nat.not_le.mp hbase, Nat.one_le_iff_ne_zero.mpr hrank, ?_⟩
  split at hsearch
  · cases hsearch
  · next q hq =>
    cases hsearch
    exact ⟨q, hq, rfl⟩

end

theorem exec_selectOf (x : Bool) (base rank c : Word) (s : State) :
    exec (selectOf x base rank c) s =
      runCommand (selectOf x base rank c).opcode (selectOf x base rank c).operandA s (selectRule x base rank s) := by
  cases x <;> rfl

/-- Settles O30: the search for the rank-th bit finds it exactly when the region holds so many. -/
theorem selectFindsTheKthBit : Obligations.SelectFindsTheKthBit := by
  intro x s base rank c hf
  have hexec := exec_selectOf x base rank c s
  refine ⟨fun hbase => faults_of_rule hf hexec (if_pos hbase),
    fun hbase hrank => faults_of_rule hf hexec (selectRule_rank hbase hrank), fun hbase hpos hrank => ?_⟩
  obtain ⟨q, hq⟩ : ∃ q, kth s.mem s.bits (64 * base.toNat) rank.toNat x = some q :=
    Option.ne_none_iff_exists'.mp fun hnone => Nat.not_lt.mpr hrank ((kth_eq_none hpos).mp hnone)
  obtain ⟨hfrom, hlt, hbit, hcount⟩ := (kth_eq_some hpos).mp hq
  refine ⟨q, hfrom, hlt, hbit, hcount, answers_of_rule hf hexec ?_⟩
  rw [selectRule_eq_search hbase hpos, hq, Option.elim_some]
  rfl

/-- Reading a single 1-bit gives 1 (R141). -/
theorem bitRead_one {m : Memory 64} {p : Nat} (h : bitAt m p = true) : bitRead m p 1 = 1#64 := by
  refine BitVec.eq_of_getLsbD_eq fun j _ => ?_
  rw [bitRead_getLsbD _ _ _ _ (by omega), BitVec.getLsbD_one]
  by_cases hj : j = 0
  · simp [hj, h]
  · simp [hj]

/-- Settles O31: the search that SEL1 completed with names a 1-bit and its count. -/
theorem selectedPositionsCountTheirRank : Obligations.SelectedPositionsCountTheirRank := by
  intro s base k c q hf hwords hsel
  obtain ⟨hbase, hpos, n, hn, rfl⟩ := selectRule_completed (x := true) (reply_eq_done hf hsel)
  obtain ⟨hfrom, hlt, hbit, hcount⟩ := (kth_eq_some hpos).mp hn
  have hlt : n < 64 * s.build.nwords := hlt
  have hnat : (word n).toNat = n := word_toNat (by omega)
  constructor
  · have hread := rdbits_answers (p := word n) (w := 1#64) (c := c) hf (by decide)
      (holdsRegion_iff.mpr (by rw [hnat]; exact hlt))
    rwa [hnat, show (1#64).toNat = 1 from rfl, bitRead_one hbit] at hread
  · have hcnt := cnt1_answers (last := word n) (c := c) hf hbase (by rwa [hnat]) (by rwa [hnat])
    rwa [hnat, hcount, BitVec.ofNat_toNat, BitVec.setWidth_eq] at hcnt

end Sys2Proof.Machine
end

section
/-! The searches PRED1, PRED0, SUCC1 and SUCC0 (41_bit_region.md R146 to R149). -/

namespace Sys2Proof.Machine

theorem exec_predecessorOf (x : Bool) (p n c : Word) (s : State) :
    exec (predecessorOf x p n c) s =
      runCommand (predecessorOf x p n c).opcode (predecessorOf x p n c).operandA s (predecessorRule x p n s) := by
  cases x <;> rfl

theorem exec_successorOf (x : Bool) (p n c : Word) (s : State) :
    exec (successorOf x p n c) s =
      runCommand (successorOf x p n c).opcode (successorOf x p n c).operandA s (successorRule x p n s) := by
  cases x <;> rfl

section
variable {x : Bool} {p n : Word} {s : State}

/-- The bounds check of a predecessor, on the operands only (R146, R148). -/
theorem predecessorRule_bounds (h : s.bits ≤ p.toNat ∨ p.toNat / 64 + 1 < n.toNat) :
    predecessorRule x p n s = .raise .bounds :=
  (ite_or _ _ _ _).symm.trans (if_pos h)

/-- A predecessor in bounds answers what the search in its window finds; with no word to look at the window is empty
(R146, R148). -/
theorem predecessorRule_done (hp : p.toNat < s.bits) (hn : n.toNat ≤ p.toNat / 64 + 1) :
    predecessorRule x p n s =
      .done (positionOrNotFound (greatestFrom (fun q => bitAt s.mem q == x) (64 * (p.toNat / 64 + 1 - n.toNat))
        (p.toNat + 1 - 64 * (p.toNat / 64 + 1 - n.toNat)))) s := by
  refine (if_neg (Nat.not_le.mpr hp)).trans <| (if_neg (Nat.not_lt.mpr hn)).trans ?_
  split
  · next hzero =>
    have hempty : p.toNat + 1 - 64 * (p.toNat / 64 + 1 - n.toNat) = 0 := by omega
    rw [hempty]
    rfl
  · rfl

/-- The bounds check of a successor, on the operands only (R147, R149). -/
theorem successorRule_bounds (h : s.bits ≤ p.toNat ∨ s.build.nwords < p.toNat / 64 + n.toNat) :
    successorRule x p n s = .raise .bounds :=
  (ite_or _ _ _ _).symm.trans (if_pos h)

/-- A successor in bounds answers what the search in its window finds (R147, R149). -/
theorem successorRule_done (hp : p.toNat < s.bits) (hn : p.toNat / 64 + n.toNat ≤ s.build.nwords) :
    successorRule x p n s =
      .done (positionOrNotFound (leastFrom (fun q => bitAt s.mem q == x) p.toNat
        (64 * (p.toNat / 64 + n.toNat) - p.toNat))) s :=
  (if_neg (Nat.not_le.mpr hp)).trans (if_neg (Nat.not_lt.mpr hn))

end

/-- Settles O32: the search through the window downwards, found or not. -/
theorem predecessorFindsTheNearestBit : Obligations.PredecessorFindsTheNearestBit := by
  intro x s p n c hf
  have hexec := exec_predecessorOf x p n c s
  refine ⟨fun hout => faults_of_rule hf hexec (predecessorRule_bounds hout), fun hp hn => ?_⟩
  have hanswer := answers_of_rule hf hexec (predecessorRule_done hp hn)
  cases hfound : greatestFrom (fun q => bitAt s.mem q == x) (64 * (p.toNat / 64 + 1 - n.toNat))
      (p.toNat + 1 - 64 * (p.toNat / 64 + 1 - n.toNat)) with
  | some q =>
    obtain ⟨hfrom, hlt, hbit, habove⟩ := (greatestFrom_eq_some _ _ _ _).mp hfound
    rw [hfound] at hanswer
    exact .inl ⟨q, hfrom, by omega, beq_iff_eq.mp hbit,
      fun r hqr hrp => beq_eq_false_iff_ne.mp (habove r hqr (by omega)), hanswer⟩
  | none =>
    have hnone := (greatestFrom_eq_none _ _ _).mp hfound
    rw [hfound] at hanswer
    exact .inr ⟨fun q hfrom hqp => beq_eq_false_iff_ne.mp (hnone q hfrom (by omega)), hanswer⟩

/-- Settles O33: the search through the window upwards, found or not. -/
theorem successorFindsTheNearestBit : Obligations.SuccessorFindsTheNearestBit := by
  intro x s p n c hf
  have hexec := exec_successorOf x p n c s
  refine ⟨fun hout => faults_of_rule hf hexec (successorRule_bounds hout), fun hp hn => ?_⟩
  have hanswer := answers_of_rule hf hexec (successorRule_done hp hn)
  cases hfound : leastFrom (fun q => bitAt s.mem q == x) p.toNat (64 * (p.toNat / 64 + n.toNat) - p.toNat) with
  | some q =>
    obtain ⟨hfrom, hlt, hbit, hbelow⟩ := (leastFrom_eq_some _ _ _ _).mp hfound
    rw [hfound] at hanswer
    exact .inl ⟨q, hfrom, by omega, beq_iff_eq.mp hbit,
      fun r hpr hrq => beq_eq_false_iff_ne.mp (hbelow r hpr hrq), hanswer⟩
  | none =>
    have hnone := (leastFrom_eq_none _ _ _).mp hfound
    rw [hfound] at hanswer
    exact .inr ⟨fun q hpq hlt => beq_eq_false_iff_ne.mp (hnone q hpq (by omega)), hanswer⟩

end Sys2Proof.Machine
end

section
/-! The moves MOVBITS and CPYBITS (41_bit_region.md R150, R151). -/

namespace Sys2Proof.Machine

section
variable {s : State} {src dst len : Word}

/-- The bounds check that the two moves share. -/
theorem regions_outside_iff :
    (!s.holdsRegion src.toNat len.toNat || !s.holdsRegion dst.toNat len.toNat) = true ↔
      64 * s.build.nwords < src.toNat + len.toNat ∨ 64 * s.build.nwords < dst.toNat + len.toNat := by
  rw [Bool.or_eq_true, Bool.not_eq_true', Bool.not_eq_true', ← Bool.not_eq_true, ← Bool.not_eq_true,
    not_holdsRegion_iff, not_holdsRegion_iff]

/-- Both regions of a move lie in `M`. -/
theorem regions_inside (hsrc : src.toNat + len.toNat ≤ 64 * s.build.nwords)
    (hdst : dst.toNat + len.toNat ≤ 64 * s.build.nwords) :
    ¬(!s.holdsRegion src.toNat len.toNat || !s.holdsRegion dst.toNat len.toNat) = true := by
  rw [regions_outside_iff]
  omega

theorem movbits_answers (hf : s.faulted = false) (hsrc : src.toNat + len.toNat ≤ 64 * s.build.nwords)
    (hdst : dst.toNat + len.toNat ≤ 64 * s.build.nwords) :
    Answers (.movbits src dst len) s 0#64 { s with mem := moveBits s.mem src.toNat dst.toNat len.toNat } :=
  answers_of_rule hf rfl (if_neg (regions_inside hsrc hdst))

/-- The check for a forward overlap (R151). -/
theorem forwardOverlap_iff :
    (decide (len.toNat > 0) && decide (src.toNat < dst.toNat) && decide (dst.toNat < src.toNat + len.toNat)) = true ↔
      0 < len.toNat ∧ src.toNat < dst.toNat ∧ dst.toNat < src.toNat + len.toNat := by
  simp only [Bool.and_eq_true, decide_eq_true_eq, gt_iff_lt, and_assoc]

end

/-- Settles O34: the destination holds the old bits of the source, overlapping or not. -/
theorem movbitsMovesTheRegion : Obligations.MovbitsMovesTheRegion := by
  intro s src dst len hm hf
  exact ⟨fun hout => faults_of_rule hf rfl (if_pos (regions_outside_iff.mpr hout)),
    fun hsrc hdst => ⟨_, movbits_answers hf hsrc hdst, moveFrom_wf _ _ _ _ _ hm,
      fun q => bitAt_moveFrom s.mem s.mem src.toNat dst.toNat len.toNat q hm⟩⟩

/-- Settles O35: the copy checks for the forward overlap and is the move otherwise. -/
theorem cpybitsCopiesUnlessTheRegionsOverlapForward :
    Obligations.CpybitsCopiesUnlessTheRegionsOverlapForward := by
  intro s src dst len hm hf
  refine ⟨fun hout => faults_of_rule hf rfl (if_pos (regions_outside_iff.mpr hout)), fun hsrc hdst =>
    ⟨fun hlen hlt hend => faults_of_rule hf rfl ?_,
      fun hapart => ⟨_, answers_of_rule hf rfl ?_, movbits_answers hf hsrc hdst, moveFrom_wf _ _ _ _ _ hm,
        fun q => bitAt_moveFrom s.mem s.mem src.toNat dst.toNat len.toNat q hm⟩⟩⟩
  · exact (if_neg (regions_inside hsrc hdst)).trans (if_pos (forwardOverlap_iff.mpr ⟨hlen, hlt, hend⟩))
  · have hbackward : ¬(0 < len.toNat ∧ src.toNat < dst.toNat ∧ dst.toNat < src.toNat + len.toNat) := by omega
    exact (if_neg (regions_inside hsrc hdst)).trans (if_neg (forwardOverlap_iff.not.mpr hbackward))

end Sys2Proof.Machine
end

section
/-! The checks of the packed-integer commands (60_exceptions.md R281, R292) in the form the rules write them. -/

namespace Sys2Proof.Machine

/-- A check that the command stays inside the address spaces changes nothing when it holds (log entry 9). -/
theorem Reply.guard_eq {b : Bool} {f : Fault} {reply : Reply} (hb : b = true) :
    (if !b then .stop f else reply) = reply := by
  rw [hb, Bool.not_true, if_neg Bool.false_ne_true]

/-- The check WIDTH of `PK.CFG` and `PK.CONVERT`. -/
theorem not_elementWidth_iff {w : Word} : (!elementWidth w) = true ↔ w.toNat < 1 ∨ 64 < w.toNat := by
  rw [Bool.not_eq_true', ← Bool.not_eq_true, elementWidth, maxWidth, Bool.and_eq_true, decide_eq_true_eq,
    decide_eq_true_eq]
  omega

theorem elementWidth_ok {w : Word} (hpos : 1 ≤ w.toNat) (hle : w.toNat ≤ 64) : ¬(!elementWidth w) = true :=
  not_elementWidth_iff.not.mpr (by omega)

/-- The check VALUE of the commands that store an element. -/
theorem not_fits_iff {val : Word} {w : Nat} : (!fits val w) = true ↔ 2 ^ w ≤ val.toNat := by
  simp [fits]

/-- The check BOUNDS of a context being placed. -/
theorem not_holdsWords_iff {s : State} {base n : Nat} :
    (!s.holdsWords base n) = true ↔ s.build.nwords < base + n := by
  rw [Bool.not_eq_true', ← Bool.not_eq_true, holdsWords_iff, Nat.not_le]

end Sys2Proof.Machine
end

section
/-! The packed-integer commands that write registers alone: PK.CFG, PK.RESIZE, PK.CLEAR, PK.CAP, PK.SEEK, PK.ADV and
PK.REBASE (42_packed_int.md R171, R175 to R177, R179, R180, R183). -/

namespace Sys2Proof.Machine

/-- Settles O53: the checks in their order, then the registers of the empty vector. -/
theorem pkCfgPlacesAnEmptyVector : Obligations.PkCfgPlacesAnEmptyVector := by
  rintro s base w cap hf _ rfl
  refine ⟨fun hw => faults_of_rule hf rfl (if_pos (not_elementWidth_iff.mpr hw)),
    fun hpos hle hout => faults_of_rule hf rfl ?_, fun hpos hle hfit => ?_⟩
  · exact (if_neg (elementWidth_ok hpos hle)).trans (if_pos (not_holdsWords_iff.mpr hout))
  · rw [BitVec.ofNat_toNat 7 w]
    exact answers_of_rule hf rfl <|
      (if_neg (elementWidth_ok hpos hle)).trans (if_neg (not_holdsWords_iff.not.mpr (Nat.not_lt.mpr hfit)))

/-- A sum of words is the sum modulo `2^64` (00_scope.md R9). -/
theorem word_add (x y : Word) : x + y = BitVec.ofNat 64 ((x.toNat + y.toNat) % 2 ^ 64) :=
  BitVec.eq_of_toNat_eq (by simp)

/-- Settles O58: PK.RESIZE decides by one comparison, the other three write one register. -/
theorem pkSizeAndIteratorCommands : Obligations.PkSizeAndIteratorCommands := by
  intro s x b c hf
  rw [← word_add]
  exact ⟨fun hfit => answers_of_rule hf rfl (if_pos hfit),
    fun hout => answers_of_rule hf rfl (if_neg (Nat.not_le.mpr hout)),
    answers_of_rule hf rfl rfl, answers_of_rule hf rfl rfl, answers_of_rule hf rfl rfl⟩

/-- Settles O59: each command has one check, and the words of PK.CAP are counted at the width the invariant gives. -/
theorem pkCapAndRebaseSetTheRegisters : Obligations.PkCapAndRebaseSetTheRegisters := by
  rintro s x b c ⟨hs, hf⟩ _ rfl
  have inside : s.packs 0 0 = true := hs.packs (Nat.zero_mul 0 ▸ Nat.zero_le _)
  refine ⟨fun hout => faults_of_rule hf rfl ?_, fun hfit => answers_of_rule hf rfl ?_,
    fun hout => faults_of_rule hf rfl (if_pos (not_holdsWords_iff.mpr hout)),
    fun hfit => answers_of_rule hf rfl (if_neg (not_holdsWords_iff.not.mpr (Nat.not_lt.mpr hfit)))⟩
  · exact (Reply.guard_eq inside).trans (if_pos (not_holdsWords_iff.mpr hout))
  · exact (Reply.guard_eq inside).trans (if_neg (not_holdsWords_iff.not.mpr (Nat.not_lt.mpr hfit)))

end Sys2Proof.Machine
end

section
/-! The commands that read and write elements: PK.RD, PK.ITRD, PK.WR, PK.ITWR and PK.APPEND (42_packed_int.md R172 to
R174, R181, R182, R184). -/

namespace Sys2Proof.Machine

/-- Of fields laid side by side, field `i` ends where every later one begins, or before (42_packed_int.md R170). -/
theorem field_end_le {i n w : Nat} (h : i < n) : i * w + w ≤ n * w := by
  rw [← Nat.succ_mul]
  exact Nat.mul_le_mul_right w h

/-- Two elements share no bit (42_packed_int.md R170). -/
theorem epos_disjoint {s : State} {i j : Nat} (h : j ≠ i) :
    s.epos i + s.pwidth ≤ s.epos j ∨ s.epos j + s.pwidth ≤ s.epos i := by
  rw [State.epos, State.epos, Nat.add_assoc, Nat.add_assoc]
  rcases Nat.lt_or_gt_of_ne h with hlt | hgt
  · exact .inr (Nat.add_le_add_left (field_end_le hlt) _)
  · exact .inl (Nat.add_le_add_left (field_end_le hgt) _)

/-- A field write leaves a field that shares no bit with it (20_memory.md R64, R65). -/
theorem bitRead_bitWrite_disjoint {m : Memory 64} {p q w : Nat} {v : Word} (hm : Memory.wf m) (hw : w ≤ 64)
    (hv : v.toNat < 2 ^ w) (h : p + w ≤ q ∨ q + w ≤ p) : bitRead (bitWrite m p w v) q w = bitRead m q w := by
  refine BitVec.eq_of_getLsbD_eq fun j _ => ?_
  rw [bitRead_getLsbD _ _ _ _ hw, bitRead_getLsbD _ _ _ _ hw]
  by_cases hj : j < w
  · rw [bitAt_bitWrite _ _ _ _ _ hm hw hv, if_neg (by omega)]
  · simp [hj]

section
variable {s : State} {i : Nat} {val : Word}

theorem elementRead_index (hi : s.pksize.toNat ≤ i) : elementRead i s = .raise .index := if_pos hi

theorem elementWrite_index (hi : s.pksize.toNat ≤ i) : elementWrite i val s = .raise .index := if_pos hi

theorem elementWrite_value (hi : i < s.pksize.toNat) (hv : 2 ^ s.pkw.toNat ≤ val.toNat) :
    elementWrite i val s = .raise .value :=
  (if_neg (Nat.not_le.mpr hi)).trans (if_pos (not_fits_iff.mpr hv))

variable (hs : s.Inv)
include hs

theorem State.Inv.pwidth_le : s.pwidth ≤ 64 :=
  have ⟨⟨_, hle⟩, _⟩ := packedVectorOk_iff.mp hs.packedVector
  hle

theorem elementRead_done (hi : i < s.pksize.toNat) :
    elementRead i s = .done (bitRead s.mem (s.epos i) s.pkw.toNat) s :=
  (if_neg (Nat.not_le.mpr hi)).trans (Reply.guard_eq (hs.packs_element (Nat.not_le.mpr hi)))

theorem elementWrite_done (hi : i < s.pksize.toNat) (hv : val.toNat < 2 ^ s.pkw.toNat) :
    elementWrite i val s = .done 0#64 { s with mem := bitWrite s.mem (s.epos i) s.pkw.toNat val } :=
  (if_neg (Nat.not_le.mpr hi)).trans <| (if_neg (not_fits_iff.not.mpr (Nat.not_le.mpr hv))).trans
    (Reply.guard_eq (hs.packs_element (Nat.not_le.mpr hi)))

/-- What a read of an element checked and answered when it completed (R172, R181). -/
theorem elementRead_completed {r : Word} {t : State} (h : elementRead i s = .done r t) :
    i < s.pksize.toNat ∧ r = bitRead s.mem (s.epos i) s.pkw.toNat := by
  have hi := Nat.not_le.mp (Reply.done_of_check h).1
  rw [elementRead_done hs hi] at h
  cases h
  exact ⟨hi, rfl⟩

/-- The bits of an element read: those of the element, zero above them (R172). -/
theorem element_getLsbD (i j : Nat) :
    (bitRead s.mem (s.epos i) s.pkw.toNat).getLsbD j = (decide (j < s.pkw.toNat) && bitAt s.mem (s.epos i + j)) :=
  bitRead_getLsbD _ _ _ _ hs.pwidth_le

/-- The element written holds the value, every other bit is kept (R173). -/
theorem element_stored (i : Nat) (hv : val.toNat < 2 ^ s.pkw.toNat) :
    FieldStored s.mem (bitWrite s.mem (s.epos i) s.pkw.toNat val) (s.epos i) s.pkw.toNat val :=
  fieldStored_bitWrite hs.memForm hs.pwidth_le hv

end

/-- `PK.RD` of an element below the size (R172). -/
theorem pkRd_answers {s : State} {i b c r : Word} (h : s.Ready) (hi : i.toNat < s.pksize.toNat)
    (hr : bitRead s.mem (s.epos i.toNat) s.pkw.toNat = r) : Answers (.pkRd i b c) s r s :=
  hr ▸ answers_of_rule h.unlocked rfl (elementRead_done h.inv hi)

/-- Settles O54: PK.RD and PK.ITRD share one rule, with the operand and with the iterator as the index. -/
theorem pkReadsReturnTheElement : Obligations.PkReadsReturnTheElement := by
  rintro s i b c ⟨hs, hf⟩
  exact ⟨fun hi => faults_of_rule hf rfl (elementRead_index hi),
    fun hi => ⟨_, pkRd_answers ⟨hs, hf⟩ hi rfl, element_getLsbD hs i.toNat⟩,
    fun hi => faults_of_rule hf rfl (elementRead_index hi),
    fun hi => ⟨_, answers_of_rule hf rfl (elementRead_done hs hi), element_getLsbD hs s.pkidx.toNat⟩⟩

/-- Settles O55: PK.WR and PK.ITWR share one rule, with the operand and with the iterator as the index. -/
theorem pkWritesStoreExactlyTheElement : Obligations.PkWritesStoreExactlyTheElement := by
  rintro s i val b c ⟨hs, hf⟩
  exact ⟨fun hi => faults_of_rule hf rfl (elementWrite_index hi),
    fun hi hv => faults_of_rule hf rfl (elementWrite_value hi hv),
    fun hi hv => ⟨_, answers_of_rule hf rfl (elementWrite_done hs hi hv), element_stored hs i.toNat hv⟩,
    fun hi => faults_of_rule hf rfl (elementWrite_index hi),
    fun hi hv => faults_of_rule hf rfl (elementWrite_value hi hv),
    fun hi hv => ⟨_, answers_of_rule hf rfl (elementWrite_done hs hi hv), element_stored hs s.pkidx.toNat hv⟩⟩

theorem word_add_one (x : Word) : word (x.toNat + 1) = x + 1#64 := BitVec.eq_of_toNat_eq (by simp [word])

/-- Settles O56: the checks in their order; below the capacity the next element lies in the vector's words. -/
theorem pkAppendStoresTheNextElement : Obligations.PkAppendStoresTheNextElement := by
  rintro s val b c ⟨hs, hf⟩
  refine ⟨fun hcap => faults_of_rule hf rfl (if_pos hcap), fun hcap hv => faults_of_rule hf rfl ?_,
    fun hcap hv => ⟨_, ?_, element_stored hs s.pksize.toNat hv⟩⟩
  · exact (if_neg (Nat.not_le.mpr hcap)).trans (if_pos (not_fits_iff.mpr hv))
  · rw [← word_add_one]
    exact answers_of_rule hf rfl <| (if_neg (Nat.not_le.mpr hcap)).trans <|
      (if_neg (not_fits_iff.not.mpr (Nat.not_le.mpr hv))).trans
        (Reply.guard_eq (hs.packs (hs.elements_fit hcap)))

/-- Settles O57: the state after the write meets the invariant, so its elements can be read; the one written holds
the value, and the others share no bit with it. -/
theorem packedElementsAreIndependent : Obligations.PackedElementsAreIndependent := by
  rintro s i val b c ⟨hs, hf⟩ hi hv
  have hwrite : Answers (.pkWr i val c) s 0#64 _ := answers_of_rule hf rfl (elementWrite_done hs hi hv)
  have ht : State.Ready _ := ⟨exec_inv hs hwrite, hf⟩
  refine ⟨_, hwrite, pkRd_answers ht hi (bitRead_bitWrite hs.memForm hs.pwidth_le hv), fun j r hji hread => ?_⟩
  obtain ⟨hj, rfl⟩ := elementRead_completed hs (reply_eq_done hf hread)
  have hapart := epos_disjoint (s := s) (mt BitVec.eq_of_toNat_eq hji)
  exact pkRd_answers ht hj (bitRead_bitWrite_disjoint hs.memForm hs.pwidth_le hv hapart)

end Sys2Proof.Machine
end

section
/-! PK.CONVERT (42_packed_int.md R178): each loop writes an element where no element still to be read lies. -/

namespace Sys2Proof.Machine

/-- A field read fits in the field's width (20_memory.md R64). -/
theorem bitRead_toNat_lt (m : Memory 64) (p : Nat) {w : Nat} (hw : w ≤ 64) : (bitRead m p w).toNat < 2 ^ w :=
  (toNat_lt_two_pow_iff _ w).mpr fun j hj => by simp [bitRead_getLsbD _ _ _ _ hw, Nat.not_lt.mpr hj]

/-- A value masked to `w` bits fits in them (00_scope.md R10). -/
theorem and_mask_toNat_lt (x : Word) (w : Nat) : (x &&& mask w).toNat < 2 ^ w :=
  (toNat_lt_two_pow_iff _ w).mpr fun j hj => by simp [Nat.not_lt.mpr hj]

/-- `m'` is `m` with its first `n` elements at `b0` converted from width `w` to width `w2`: each modulo `2^w2` in the
new layout, every bit outside it kept, in canonical form (R178). -/
structure Converted (m m' : Memory 64) (b0 n w w2 : Nat) : Prop where
  form : Memory.wf m'
  elements : ∀ i j, i < n → j < w2 → bitAt m' (b0 + i * w2 + j) = (decide (j < w) && bitAt m (b0 + i * w + j))
  outside : ∀ q, q < b0 ∨ b0 + n * w2 ≤ q → bitAt m' q = bitAt m q

section
variable {m m' : Memory 64} {b0 n w w2 : Nat}

theorem Converted.none (hm : Memory.wf m) : Converted m m b0 0 w w2 :=
  ⟨hm, fun _ _ hi => absurd hi (Nat.not_lt_zero _), fun _ _ => rfl⟩

theorem Converted.sameWidth (hm : Memory.wf m) : Converted m m b0 n w w :=
  ⟨hm, fun _ j _ hj => by simp [hj], fun _ _ => rfl⟩

/-- Widening begins with the last element: its new field lies above every element still to be read. -/
theorem Converted.afterLast (hm : Memory.wf m) (hw : w ≤ w2) (hw2 : w2 ≤ 64)
    (h : Converted (bitWrite m (b0 + n * w2) w2 (bitRead m (b0 + n * w) w)) m' b0 n w w2) :
    Converted m m' b0 (n + 1) w w2 := by
  have hfit : (bitRead m (b0 + n * w) w).toNat < 2 ^ w2 :=
    (bitRead_toNat_lt m _ (hw.trans hw2)).trans_le (Nat.pow_le_pow_right Nat.two_pos hw)
  have hstored := fun q => bitAt_bitWrite m (b0 + n * w2) w2 q _ hm hw2 hfit
  refine ⟨h.form, fun i j hi hj => ?_, fun q hq => ?_⟩
  · rcases Nat.lt_succ_iff_lt_or_eq.mp hi with hlt | rfl
    · rw [h.elements i j hlt hj]
      by_cases hjw : j < w
      · have hbelow : i * w + w ≤ n * w2 := (field_end_le hlt).trans (Nat.mul_le_mul_left n hw)
        rw [hstored, if_neg (by omega)]
      · simp [hjw]
    · rw [h.outside _ (by omega), hstored, if_pos (by omega), bitRead_getLsbD _ _ _ _ (hw.trans hw2),
        Nat.add_sub_cancel_left]
  · rw [Nat.succ_mul] at hq
    rw [h.outside q (by omega), hstored, if_neg (by omega)]

/-- Narrowing goes on with the next element: no field written so far reaches it. -/
theorem Converted.next (hw : w2 ≤ w) (hw64 : w ≤ 64) (h : Converted m m' b0 n w w2) :
    Converted m (bitWrite m' (b0 + n * w2) w2 (bitRead m' (b0 + n * w) w &&& mask w2)) b0 (n + 1) w w2 := by
  have hw2 : w2 ≤ 64 := hw.trans hw64
  have hfit := and_mask_toNat_lt (bitRead m' (b0 + n * w) w) w2
  have hstored := fun q => bitAt_bitWrite m' (b0 + n * w2) w2 q _ h.form hw2 hfit
  refine ⟨bitWrite_wf _ _ _ _ h.form, fun i j hi hj => ?_, fun q hq => ?_⟩
  · rcases Nat.lt_succ_iff_lt_or_eq.mp hi with hlt | rfl
    · have hbelow := field_end_le (w := w2) hlt
      rw [hstored, if_neg (by omega), h.elements i j hlt hj]
    · have hunread : bitAt m' (b0 + i * w + j) = bitAt m (b0 + i * w + j) :=
        h.outside _ (.inr (by have := Nat.mul_le_mul_left i hw; omega))
      rw [hstored, if_pos (by omega), Nat.add_sub_cancel_left, BitVec.getLsbD_and, bitRead_getLsbD _ _ _ _ hw64,
        mask_getLsbD, hunread]
      simp [hj, hj.trans_le hw2]
  · rw [Nat.succ_mul] at hq
    rw [hstored, if_neg (by omega), h.outside q (by omega)]

end

/-- The widening loop, from the last element down. -/
theorem widen_converted {m : Memory 64} {b0 w w2 : Nat} (hm : Memory.wf m) (hw : w ≤ w2) (hw2 : w2 ≤ 64) (n : Nat) :
    Converted m (widen b0 w w2 n m) b0 n w w2 := by
  induction n generalizing m with
  | zero => exact .none hm
  | succ n ih => exact .afterLast hm hw hw2 (ih (bitWrite_wf _ _ _ _ hm))

/-- The narrowing loop, from the first element up. -/
theorem narrow_converted {m : Memory 64} {b0 w w2 : Nat} (hm : Memory.wf m) (hw : w2 ≤ w) (hw64 : w ≤ 64)
    (n : Nat) : Converted m (narrow b0 w w2 n m) b0 n w w2 := by
  induction n with
  | zero => exact .none hm
  | succ n ih => exact ih.next hw hw64

theorem convertElements_converted {m : Memory 64} {b0 n w w2 : Nat} (hm : Memory.wf m) (hw : w ≤ 64) (hw2 : w2 ≤ 64) :
    Converted m (convertElements m b0 n w w2) b0 n w w2 := by
  unfold convertElements
  split
  · next hwider => exact widen_converted hm hwider.le hw2 n
  · next hnot =>
    split
    · next hnarrower => exact narrow_converted hm hnarrower.le hw n
    · next hsame =>
      obtain rfl : w = w2 := by omega
      exact .sameWidth hm

/-- At either width the elements lie in the words of the vector (R178). -/
theorem State.Inv.packs_convert {s : State} (hs : s.Inv) {w : Nat}
    (hcap : ceilDiv (s.pksize.toNat * w) 64 ≤ s.pkwords.toNat) : s.packs s.pksize.toNat (max s.pwidth w) = true := by
  have hold := hs.elements_fit hs.pksize_le_pkcap
  have hnew := le_mul_ceilDiv (s.pksize.toNat * w)
  refine hs.packs ?_
  rw [← Nat.mul_max_mul_left]
  omega

/-- Settles O60: the checks in their order, then the loop of the direction of the width. -/
theorem pkConvertKeepsTheElements : Obligations.PkConvertKeepsTheElements := by
  rintro s w b c ⟨hs, hf⟩
  refine ⟨fun hw => faults_of_rule hf rfl (if_pos (not_elementWidth_iff.mpr hw)),
    fun hpos hle hcap => faults_of_rule hf rfl ?_, fun hpos hle hcap => ?_⟩
  · exact (if_neg (elementWidth_ok hpos hle)).trans (if_pos hcap)
  · have hconv : Converted s.mem _ (64 * s.pkbase.toNat) s.pksize.toNat s.pwidth w.toNat :=
      convertElements_converted hs.memForm hs.pwidth_le hle
    rw [BitVec.ofNat_toNat 7 w]
    exact ⟨_, answers_of_rule hf rfl <| (if_neg (elementWidth_ok hpos hle)).trans <|
      (if_neg (Nat.not_lt.mpr hcap)).trans (Reply.guard_eq (hs.packs_convert hcap)),
      hconv.form, hconv.elements, hconv.outside⟩

end Sys2Proof.Machine
end

section
/-! Stretches of the rank vector that agree bit by bit, and INV as two equations for the entries in use
(43_rank_select.md R204). -/

namespace Sys2Proof.Machine

variable {s u : State}

theorem vectorTally_congr (x : Bool) {a e : Nat} (h : ∀ i, i < e → u.vbit i = s.vbit i) :
    vectorTally u x a e = vectorTally s x a e := by
  rw [vectorTally, vectorTally, tally_eq_countFrom, tally_eq_countFrom]
  exact countFrom_congr _ _ _ _ _ fun j hj => congrArg (· == x) (h (a + j) (by omega))

/-- A count goes on with the next position. -/
theorem vectorTally_succ (x : Bool) {a p : Nat} (hap : a ≤ p) :
    vectorTally s x a (p + 1) = vectorTally s x a p + (s.vbit p == x).toNat := by
  rw [vectorTally_add x hap (Nat.le_add_right p 1), vectorTally, vectorTally, tally_eq_countFrom _ p]
  simp [countFrom]

theorem vectorTally_le (x : Bool) (a e : Nat) : vectorTally s x a e ≤ e - a := by
  rw [vectorTally, tally_eq_countFrom]
  exact countFrom_le _ _ _

theorem vectorTally_eq_zero {x : Bool} {a e : Nat} (h : ∀ i, a ≤ i → i < e → s.vbit i ≠ x) :
    vectorTally s x a e = 0 := by
  rw [vectorTally, tally, Finset.card_eq_zero, Finset.filter_eq_empty_iff]
  intro i hi
  rw [Finset.mem_Ico] at hi
  simpa using h i hi.1 hi.2

/-- INV of a legal build: the entries of the top-blocks and of the stored middle-blocks in use are exact (R204). -/
theorem summariesHold_iff (hlegal : s.build.legal = true) :
    s.summariesHold = true ↔
      (∀ t, t * s.build.bt < s.vsize →
        s.topOf t = vectorTally s true 0 (min ((t + 1) * s.build.bt) s.vsize)) ∧
      (∀ j, j * s.build.bm < s.vsize → isStored s.build j = true →
        s.midOf j =
          vectorTally s true (j / s.build.perTop * s.build.bt) (min ((j + 1) * s.build.bm) s.vsize)) := by
  refine ⟨fun h => ⟨fun t => topOf_eq hlegal h, fun j => midOf_eq hlegal h⟩, fun ⟨htop, hmid⟩ => ?_⟩
  obtain ⟨hpos, hlt, -, -⟩ := Build.legal_blocks hlegal
  simp only [State.summariesHold, Bool.and_eq_true, List.all_eq_true, List.mem_range]
  refine ⟨fun t ht => ?_, fun j hj => ?_⟩
  · rw [State.topHolds, beq_iff_eq, vones_eq_vectorTally]
    exact htop t ((lt_ceilDiv_iff (by omega)).mp ht)
  · rw [State.midHolds, Bool.or_eq_true, Bool.not_eq_true', beq_iff_eq, vones_eq_vectorTally]
    cases hstored : isStored s.build j with
    | false => exact .inl rfl
    | true => exact .inr (hmid j ((lt_ceilDiv_iff hpos).mp hj) hstored)

/-- An empty vector has no block in use (R204, R210). -/
theorem summariesHold_of_empty (h : s.vsize = 0) : s.summariesHold = true := by
  have none_in_use (b : Nat) : ceilDiv 0 b = 0 := by
    rw [ceilDiv, Nat.zero_add, Nat.div_eq_zero_iff]
    omega
  simp [State.summariesHold, State.topsInUse, State.midsInUse, h, none_in_use]

theorem vones_congr {a e n : Nat} (h : ∀ i, i < n → u.vbit i = s.vbit i) :
    u.vones a (min e n) = s.vones a (min e n) := by
  rw [vones_eq_vectorTally, vones_eq_vectorTally]
  exact vectorTally_congr true fun i hi => h i (by omega)

/-- INV rests on the bits below the size alone (R204, R225). -/
theorem summariesHold_of_same_bits {base : Word}
    (h : ∀ i, i < s.vsize → State.vbit { s with rvbase := base } i = s.vbit i) (hsum : s.summariesHold = true) :
    State.summariesHold { s with rvbase := base } = true := by
  simp only [State.summariesHold, Bool.and_eq_true, List.all_eq_true] at hsum ⊢
  obtain ⟨htop, hmid⟩ := hsum
  refine ⟨fun t ht => ?_, fun j hj => ?_⟩
  · have := htop t ht
    rw [State.topHolds, beq_iff_eq, ← vones_congr h] at this
    exact beq_iff_eq.mpr this
  · have := hmid j hj
    rw [State.midHolds, ← vones_congr h] at this
    exact this

end Sys2Proof.Machine
end

section
/-! The entries that RV.APPEND and RV.SHORTEN write (43_rank_select.md R211, R221), and why INV holds after it: the
entries of the blocks before the vector's last ones count whole blocks, and those do not change. -/

namespace Sys2Proof.Machine

/-- The place of a stored middle-block in its top-block (43_rank_select.md R201). -/
theorem place_lt_of_isStored {b : Build} {m : Nat} (h : b.legal = true) (hs : isStored b m = true) :
    m % b.perTop < b.perTop - 1 := by
  obtain ⟨hpos, hlt, -, -⟩ := Build.legal_blocks h
  have hper : 0 < b.perTop := Nat.div_pos hlt.le hpos
  have := Nat.mod_lt m hper
  have : m % b.perTop ≠ b.perTop - 1 := by simpa [isStored] using hs
  omega

/-- Each stored middle-block has an entry of its own (10_state.md R28). -/
theorem midaddr_inj {b : Build} {j m : Nat} (h : b.legal = true) (hj : isStored b j = true)
    (hm : isStored b m = true) (heq : midaddr b j = midaddr b m) : j = m := by
  have hjlt := place_lt_of_isStored h hj
  have hmlt := place_lt_of_isStored h hm
  have hper : 0 < b.perTop := by omega
  rw [midaddr_eq b j hper, midaddr_eq b m hper, Nat.mul_comm, Nat.mul_comm (m / b.perTop)] at heq
  have hrow : j / b.perTop = m / b.perTop := by
    have := congrArg (· / (b.perTop - 1)) heq
    simpa [Nat.mul_add_div (show 0 < b.perTop - 1 by omega), Nat.div_eq_of_lt hjlt, Nat.div_eq_of_lt hmlt] using this
  rw [hrow] at heq
  rw [← Nat.div_add_mod j b.perTop, ← Nat.div_add_mod m b.perTop, hrow, Nat.add_left_cancel heq]

/-- The block of position `p`, cut off behind `p`. -/
theorem lastBlock_end {p c : Nat} (hc : 0 < c) : min ((p / c + 1) * c) (p + 1) = p + 1 := by
  refine Nat.min_eq_right ?_
  rw [Nat.add_one_mul]
  exact Nat.lt_div_mul_add hc

/-- A block that begins before the block of position `p` ends at or before `p`. -/
theorem earlierBlock_end {k p c : Nat} (hc : 0 < c) (hk : k * c < p + 1) (hne : k ≠ p / c) : (k + 1) * c ≤ p := by
  have hle : k ≤ p / c := (Nat.le_div_iff_mul_le hc).mpr (by omega)
  exact (Nat.le_div_iff_mul_le hc).mp (by omega)

/-- `s` with the entries of the blocks of position `p` written: that of its top-block, and that of its middle-block if
it is stored. -/
def State.withEntries (s : State) (p : Nat) (v : Word) (w : BitVec 16) : State :=
  { s with
    top := s.top.write (p / s.build.bt) v
    mid := if isStored s.build (p / s.build.bm) then s.mid.write (midaddr s.build (p / s.build.bm)) w else s.mid }

section
variable {s : State} {p : Nat} {v : Word} {w : BitVec 16} (hs : s.Inv)
include hs

theorem read_withEntries_top (a : Nat) :
    (s.withEntries p v w).top.read a = if a = p / s.build.bt then v else s.top.read a :=
  Memory.read_write _ _ _ _ hs.topForm

theorem read_withEntries_mid (a : Nat) :
    (s.withEntries p v w).mid.read a =
      if isStored s.build (p / s.build.bm) = true ∧ a = midaddr s.build (p / s.build.bm) then w
      else s.mid.read a := by
  rw [State.withEntries]
  cases isStored s.build (p / s.build.bm) with
  | false => simp
  | true => simpa using Memory.read_write _ _ _ _ hs.midForm

/-- INV after a command that leaves `p` the last position, keeps the bits before it and gives the entries of its blocks
the counts up to it (R204). -/
theorem summariesHold_of_lastEntries {u : State} {m : Memory 64} {size : Word}
    (hu : u = { s.withEntries p v w with mem := m, rvsize := size }) (hsum : s.summariesHold = true)
    (hp : p ≤ s.vsize) (hsize : size.toNat = p + 1) (hbits : ∀ i, i < p → u.vbit i = s.vbit i)
    (hv : v.toNat = vectorTally u true 0 (p + 1))
    (hw : isStored s.build (p / s.build.bm) = true →
      w.toNat = vectorTally u true (p / s.build.bt * s.build.bt) (p + 1)) :
    u.summariesHold = true := by
  have hlegal := hs.legal
  obtain ⟨hpos, hlt, -, -⟩ := Build.legal_blocks hlegal
  have hbuild : u.build = s.build := by rw [hu]; rfl
  have htop (t : Nat) : u.topOf t = if t = p / s.build.bt then v.toNat else s.topOf t := by
    rw [State.topOf, State.topOf, ← apply_ite BitVec.toNat, ← read_withEntries_top hs, hu]
  have hmid (j : Nat) (hj : isStored s.build j = true) :
      u.midOf j = if j = p / s.build.bm then w.toNat else s.midOf j := by
    rw [State.midOf, State.midOf, hbuild, hu, read_withEntries_mid hs, apply_ite BitVec.toNat]
    refine if_congr ⟨fun ⟨hm, haddr⟩ => midaddr_inj hlegal hj hm haddr, ?_⟩ rfl rfl
    rintro rfl
    exact ⟨hj, rfl⟩
  have hlast : u.vsize = p + 1 := by rw [hu]; exact hsize
  -- A block that ends before the last position counts the same bits as before.
  have earlier {a e : Nat} (he : e ≤ p) :
      vectorTally s true a (min e s.vsize) = vectorTally u true a (min e (p + 1)) := by
    rw [Nat.min_eq_left (he.trans hp), Nat.min_eq_left (Nat.le_succ_of_le he)]
    exact (vectorTally_congr true fun i hi => hbits i (by omega)).symm
  rw [summariesHold_iff (by rwa [hbuild]), hbuild, hlast]
  refine ⟨fun t ht => ?_, fun j hj hstored => ?_⟩
  · rw [htop]
    split
    · next h => rw [hv, h, lastBlock_end (by omega)]
    · next hne =>
      have hend := earlierBlock_end (by omega) ht hne
      rw [← earlier hend]
      exact topOf_eq hlegal hsum (by rw [Nat.add_one_mul] at hend; omega)
  · rw [hmid j hstored]
    split
    · next h => rw [hw (h ▸ hstored), h, lastBlock_end hpos, middleBlock_div_perTop hlegal]
    · next hne =>
      have hend := earlierBlock_end hpos hj hne
      rw [← earlier hend]
      exact midOf_eq hlegal hsum (by rw [Nat.add_one_mul] at hend; omega) hstored

end

end Sys2Proof.Machine
end

section
/-! Rank in the rank vector (43_rank_select.md R205): while INV holds the three counts of `rank1f` lie side by side. -/

namespace Sys2Proof.Machine

variable {s : State} {p : Nat} (hlegal : s.build.legal = true) (hsum : s.summariesHold = true) (hp : p < s.vsize)
include hlegal hsum hp

/-- The count before the top-block of a position, as `rank1f` takes it (R205). -/
theorem topOf_before :
    (if p / s.build.bt > 0 then s.topOf (p / s.build.bt - 1) else 0) =
      vectorTally s true 0 (p / s.build.bt * s.build.bt) :=
  cumTop_before true hlegal hsum ((Nat.div_mul_le_self p s.build.bt).trans hp.le)

/-- The count before the middle-block of a position in its top-block, as `rank1f` takes it (R205). -/
theorem midOf_before :
    (if p / s.build.bm % s.build.perTop ≠ 0 then s.midOf (p / s.build.bm - 1) else 0) =
      vectorTally s true (p / s.build.bt * s.build.bt) (p / s.build.bm * s.build.bm) := by
  obtain ⟨hfirst, hlast⟩ := middleBlock_mem_topBlock hlegal p
  have hplace := Nat.div_add_mod' (p / s.build.bm) s.build.perTop
  rw [middleBlock_div_perTop hlegal] at hplace
  rw [← cumMid_before true hlegal hsum hfirst hlast ((Nat.div_mul_le_self p s.build.bm).trans hp.le)]
  exact if_congr (by omega) rfl rfl

/-- `rank1f` counts the 1-bits up to its position (R205). -/
theorem rank1f_eq : s.rank1f p = vectorTally s true 0 (p + 1) := by
  obtain ⟨hfirst, -⟩ := middleBlock_mem_topBlock hlegal p
  have hstart : p / s.build.bt * s.build.bt ≤ p / s.build.bm * s.build.bm := topBlock_le_middleBlock hlegal hfirst
  have hmid : p / s.build.bm * s.build.bm ≤ p + 1 := (Nat.div_mul_le_self _ _).trans (Nat.le_succ p)
  have htail : ones s.mem (s.vbegin + p / s.build.bm * s.build.bm) (s.vbegin + p + 1) =
      vectorTally s true (p / s.build.bm * s.build.bm) (p + 1) := by
    rw [Nat.add_assoc]
    exact vones_eq_vectorTally (s := s) _ _
  rw [State.rank1f, topOf_before hlegal hsum hp, midOf_before hlegal hsum hp, htail,
    ← vectorTally_add true (Nat.zero_le _) hstart, ← vectorTally_add true (Nat.zero_le _) hmid]

/-- The rank of a position for either bit value (R205, R213). -/
theorem rankOf_eq (x : Bool) : s.rankOf x p = vectorTally s x 0 (p + 1) := by
  rw [State.rankOf, rank1f_eq hlegal hsum hp]
  exact vectorTally_eq_of_ones x (Nat.zero_le _) rfl

end Sys2Proof.Machine
end

section
/-! RV.APPEND (43_rank_select.md R211): the entries of the new position's blocks stand at the counts before it, then the
bit is added. -/

namespace Sys2Proof.Machine

/-- A cell written twice holds the second value. -/
theorem Memory.write_write {w : Nat} {m : Memory w} (a : Nat) (v v' : BitVec w) (h : Memory.wf m) :
    (m.write a v).write a v' = m.write a v' := by
  have h1 := Memory.wf_write m a v h
  refine Memory.ext_of_read _ _ (Memory.wf_write _ a v' h1) (Memory.wf_write m a v' h) fun b => ?_
  rw [Memory.read_write _ _ _ _ h1, Memory.read_write _ _ _ _ h, Memory.read_write _ _ _ _ h]
  split <;> rfl

/-- Where the new position's entry of `TOP` stands before the bit is added (R211, step (i)). -/
def runningTop (s : State) : Word :=
  if s.vsize % s.build.bt ≠ 0 then s.top.read (s.vsize / s.build.bt)
  else if s.vsize = 0 then 0#64
  else s.top.read (s.vsize / s.build.bt - 1)

/-- Where the new position's entry of `MID` stands before the bit is added (R211, step (ii)). -/
def runningMid (s : State) : BitVec 16 :=
  if s.vsize % s.build.bm ≠ 0 then s.mid.read (midaddr s.build (s.vsize / s.build.bm))
  else if s.vsize % s.build.bt = 0 then 0#16
  else s.mid.read (midaddr s.build (s.vsize / s.build.bm - 1))

/-- The state `RV.APPEND` leaves, its entries holding `v` and `w` (R211). -/
def State.appended (s : State) (bit v : Word) (w : BitVec 16) : State :=
  { s.withEntries s.vsize v w with
    mem := bitWrite s.mem (s.vbegin + s.vsize) 1 bit
    rvsize := word (s.vsize + 1) }

section
variable {s : State} (hs : s.Inv)
include hs

theorem appendTop_eq (bit : Word) :
    appendTop s bit.toNat = s.top.write (s.vsize / s.build.bt) (runningTop s + bit) := by
  have hadd (x : Word) : word (x.toNat + bit.toNat) = x + bit := BitVec.eq_of_toNat_eq (by simp [word])
  simp only [appendTop, hadd, runningTop]
  by_cases hopens : s.vsize % s.build.bt = 0
  · have hfirst : s.vsize / s.build.bt > 0 ↔ ¬s.vsize = 0 := by
      have := Nat.div_add_mod s.vsize s.build.bt
      rw [hopens] at this
      rw [gt_iff_lt, Nat.pos_iff_ne_zero]
      refine not_congr ⟨fun h => ?_, fun h => ?_⟩
      · rw [← this, h, Nat.mul_zero]
      · rw [h, Nat.zero_div]
    rw [if_pos hopens, if_neg (not_not.mpr hopens), Memory.write_write _ _ _ hs.topForm,
      Memory.read_write _ _ _ _ hs.topForm, if_pos rfl, if_congr hfirst rfl rfl, ite_not]
  · rw [if_neg hopens, if_pos hopens]

theorem appendMid_eq (bit : Word) :
    appendMid s bit.toNat =
      if isStored s.build (s.vsize / s.build.bm) then
        s.mid.write (midaddr s.build (s.vsize / s.build.bm)) (runningMid s + bit.setWidth 16)
      else s.mid := by
  have hadd (x : BitVec 16) : BitVec.ofNat 16 (x.toNat + bit.toNat) = x + bit.setWidth 16 :=
    BitVec.eq_of_toNat_eq (by simp)
  simp only [appendMid, hadd, runningMid]
  by_cases hopens : s.vsize % s.build.bm = 0
  · simp only [if_pos hopens, if_neg (not_not.mpr hopens), Memory.write_write _ _ _ hs.midForm,
      Memory.read_write _ _ _ _ hs.midForm, if_true]
  · simp only [if_neg hopens, if_pos hopens]

/-- While INV holds `RV.APPEND` writes the counts before its position and the bit (R211). -/
theorem appendSummaries_eq (bit : Word) :
    { s with top := appendTop s bit.toNat, mid := appendMid s bit.toNat } =
      s.withEntries s.vsize (runningTop s + bit) (runningMid s + bit.setWidth 16) := by
  rw [appendTop_eq hs, appendMid_eq hs]
  rfl

variable (hsum : s.summariesHold = true)
include hsum

/-- While INV holds the running entry of `TOP` counts the vector (R204, R211). -/
theorem runningTop_toNat : (runningTop s).toNat = vectorTally s true 0 s.vsize := by
  obtain ⟨-, hlt, -, -⟩ := Build.legal_blocks hs.legal
  have hplace := Nat.div_add_mod' s.vsize s.build.bt
  rw [runningTop]
  split
  · next hinside =>
    have hend : s.vsize < (s.vsize / s.build.bt + 1) * s.build.bt := by
      rw [Nat.add_one_mul]; exact Nat.lt_div_mul_add (by omega)
    have := topOf_eq hs.legal hsum (show s.vsize / s.build.bt * s.build.bt < s.vsize by omega)
    rwa [Nat.min_eq_right hend.le] at this
  · next hopens =>
    split
    · next hempty => rw [hempty, vectorTally_self]; rfl
    · next hmore =>
      have hblocks : s.vsize / s.build.bt * s.build.bt = s.vsize := by omega
      have := cumTop_before true hs.legal hsum hblocks.le
      rwa [if_pos (Nat.pos_of_ne_zero fun h => hmore (by rw [← hblocks, h, Nat.zero_mul])), hblocks] at this

/-- While INV holds the running entry of a stored middle-block counts its top-block up to the size (R204, R211). -/
theorem runningMid_toNat (hstored : isStored s.build (s.vsize / s.build.bm) = true) :
    (runningMid s).toNat = vectorTally s true (s.vsize / s.build.bt * s.build.bt) s.vsize := by
  obtain ⟨hpos, -, -, -⟩ := Build.legal_blocks hs.legal
  have hplace := Nat.div_add_mod' s.vsize s.build.bm
  rw [runningMid]
  split
  · next hinside =>
    have hend : s.vsize < (s.vsize / s.build.bm + 1) * s.build.bm := by
      rw [Nat.add_one_mul]; exact Nat.lt_div_mul_add hpos
    have := midOf_eq hs.legal hsum (show s.vsize / s.build.bm * s.build.bm < s.vsize by omega) hstored
    rwa [Nat.min_eq_right hend.le, middleBlock_div_perTop hs.legal] at this
  · next hopens =>
    have hblocks : s.vsize / s.build.bm * s.build.bm = s.vsize := by omega
    have htop := Nat.div_add_mod' s.vsize s.build.bt
    split
    · next hfirst =>
      rw [show s.vsize / s.build.bt * s.build.bt = s.vsize by omega, vectorTally_self]
      rfl
    · next hmore =>
      obtain ⟨hfrom, hlast⟩ := middleBlock_mem_topBlock hs.legal s.vsize
      have hnext : s.vsize / s.build.bm > s.vsize / s.build.bt * s.build.perTop := by
        refine lt_of_le_of_ne hfrom fun h => hmore ?_
        have := perTop_mul_bm hs.legal (s.vsize / s.build.bt)
        rw [h, hblocks] at this
        omega
      have := cumMid_before true hs.legal hsum hfrom hlast hblocks.le
      rwa [if_pos hnext, hblocks] at this

end

/-- The vector's bits after an append: the new one, and the others as they were (R211). -/
theorem vbit_appended {s : State} {bit v : Word} {w : BitVec 16} (hs : s.Inv) (hbit : bit.toNat ≤ 1) (i : Nat) :
    (s.appended bit v w).vbit i = if i = s.vsize then bit.getLsbD 0 else s.vbit i := by
  have hstored : (s.appended bit v w).vbit i = _ :=
    bitAt_bitWrite s.mem (s.vbegin + s.vsize) 1 (s.vbegin + i) bit hs.memForm (by omega) (by omega)
  rw [hstored, State.vbit]
  by_cases hi : i = s.vsize
  · rw [if_pos hi, if_pos (by omega), hi, Nat.sub_self]
  · rw [if_neg hi, if_neg (by omega)]

/-- A bit as an operand: its value is its one bit. -/
theorem toNat_getLsbD_zero {bit : Word} (h : bit.toNat ≤ 1) : (bit.getLsbD 0 == true).toNat = bit.toNat := by
  rw [BitVec.getLsbD, Nat.testBit_zero]
  interval_cases bit.toNat <;> rfl

/-- A count up to the new position takes in the bit (R211). -/
theorem vectorTally_appended {s : State} {bit v : Word} {w : BitVec 16} (hs : s.Inv) (hbit : bit.toNat ≤ 1) {a : Nat}
    (ha : a ≤ s.vsize) :
    vectorTally (s.appended bit v w) true a (s.vsize + 1) = vectorTally s true a s.vsize + bit.toNat := by
  rw [vectorTally_succ true ha, vbit_appended hs hbit, if_pos rfl, toNat_getLsbD_zero hbit]
  congr 1
  exact vectorTally_congr true fun i hi => by rw [vbit_appended hs hbit, if_neg (by omega)]

theorem bt_lt_of_legal {b : Build} (h : b.legal = true) : b.bt < 2 ^ 16 := by
  simp [Build.legal] at h; omega

/-- INV after an append that gives the entries the counts before it and the bit (R204, R211). -/
theorem appended_summariesHold {s : State} {bit : Word} (hs : s.Inv) (hsum : s.summariesHold = true)
    (hsize : s.vsize < s.rvcap.toNat) (hbit : bit.toNat ≤ 1) :
    (s.appended bit (runningTop s + bit) (runningMid s + bit.setWidth 16)).summariesHold = true := by
  obtain ⟨-, hlt, -, -⟩ := Build.legal_blocks hs.legal
  have hbt := bt_lt_of_legal hs.legal
  have hcap := s.rvcap.isLt
  have hbegin := Nat.div_mul_le_self s.vsize s.build.bt
  refine summariesHold_of_lastEntries hs rfl hsum le_rfl (word_toNat (by omega))
    (fun i hi => by rw [vbit_appended hs hbit, if_neg (by omega)]) ?_ fun hstored => ?_
  · have hcount := vectorTally_le (s := s) true 0 s.vsize
    rw [vectorTally_appended hs hbit (Nat.zero_le _), BitVec.toNat_add, runningTop_toNat hs hsum]
    exact Nat.mod_eq_of_lt (by omega)
  · have hcount := vectorTally_le (s := s) true (s.vsize / s.build.bt * s.build.bt) s.vsize
    have hend := Nat.lt_div_mul_add (a := s.vsize) (b := s.build.bt) (by omega)
    rw [vectorTally_appended hs hbit hbegin, BitVec.toNat_add, runningMid_toNat hs hsum hstored, BitVec.toNat_setWidth,
      Nat.mod_eq_of_lt (show bit.toNat < 2 ^ 16 by omega)]
    exact Nat.mod_eq_of_lt (by omega)

end Sys2Proof.Machine
end

section
/-! RV.SHORTEN (43_rank_select.md R221): the entries of the new last blocks are counted again. -/

namespace Sys2Proof.Machine

/-- The state `RV.SHORTEN` to `n` bits leaves, `n` not 0, its entries holding `v` and `w` (R221). -/
def State.shortened (s : State) (n v : Word) (w : BitVec 16) : State :=
  { s.withEntries (n.toNat - 1) v w with rvsize := n }

section
variable {s : State} (hs : s.Inv) (hsum : s.summariesHold = true)
include hs hsum

/-- While INV holds `RV.SHORTEN` writes the counts up to the new last position (R221). -/
theorem shortenSummaries_eq {q : Nat} (hq : q < s.vsize) :
    shortenSummaries s q =
      s.withEntries q (word (vectorTally s true 0 (q + 1)))
        (BitVec.ofNat 16 (vectorTally s true (q / s.build.bt * s.build.bt) (q + 1))) := by
  have hbegin : q / s.build.bt * s.build.bt ≤ q + 1 := (Nat.div_mul_le_self _ _).trans (Nat.le_succ q)
  rw [← vectorTally_sub true (Nat.zero_le _) hbegin, ← topOf_before hs.legal hsum hq, ← rank1f_eq hs.legal hsum hq]
  rfl

/-- INV after `RV.SHORTEN` to at least one bit (R204, R221). -/
theorem shortened_summariesHold {n : Word} (hpos : 1 ≤ n.toNat) (hle : n.toNat ≤ s.vsize) :
    (s.shortened n (word (vectorTally s true 0 n.toNat))
      (BitVec.ofNat 16 (vectorTally s true ((n.toNat - 1) / s.build.bt * s.build.bt) n.toNat))).summariesHold =
      true := by
  obtain ⟨-, hlt, -, -⟩ := Build.legal_blocks hs.legal
  have hlast : n.toNat - 1 + 1 = n.toNat := by omega
  refine summariesHold_of_lastEntries hs (p := n.toNat - 1) rfl hsum (by omega) hlast.symm (fun _ _ => rfl) ?_
    fun _ => ?_
  · have hcount := vectorTally_le (s := s) true 0 n.toNat
    rw [word_toNat (by omega), hlast]
    exact (vectorTally_congr true fun _ _ => rfl).symm
  · have hcount := vectorTally_le (s := s) true ((n.toNat - 1) / s.build.bt * s.build.bt) n.toNat
    have hend := Nat.lt_div_mul_add (a := n.toNat - 1) (b := s.build.bt) (by omega)
    have hbt := bt_lt_of_legal hs.legal
    rw [BitVec.toNat_ofNat, Nat.mod_eq_of_lt (by omega), hlast]
    exact (vectorTally_congr true fun _ _ => rfl).symm

end

end Sys2Proof.Machine
end

section
/-! Every rank-vector command but RV.REBASE keeps INV (43_rank_select.md R204). -/

namespace Sys2Proof.Machine

/-- A command whose completion leaves INV keeps it however it is answered. -/
theorem Answered.summariesHold {s t : State} (h : Answered (fun u => u.summariesHold = true) s t)
    (hsum : s.summariesHold = true) : t.summariesHold = true := by
  cases h with
  | locked _ ht => rwa [ht, State.respond_summariesHold]
  | completed r u hu ht => rwa [ht, State.respond_summariesHold]
  | faulted _ c cw a ht => rw [ht]; exact hsum

section
variable {s t : State}

theorem execRvInit_keepsSummaries {base cap : Word} (h : execRvInit base cap s = .next t) :
    Answered (fun u => u.summariesHold = true) s t :=
  answered_of_runCommand h <| Reply.leaves_check fun _ => Reply.leaves_check fun _ => summariesHold_of_empty rfl

variable (hsum : s.summariesHold = true)
include hsum

theorem execRvCap_keepsSummaries {cap : Word} (h : execRvCap cap s = .next t) :
    Answered (fun u => u.summariesHold = true) s t :=
  answered_of_runCommand h <| Reply.leaves_check fun _ => Reply.leaves_check fun _ => hsum

variable (hs : s.Inv)
include hs

theorem execRvAppend_keepsSummaries {bit : Word} (h : execRvAppend bit s = .next t) :
    Answered (fun u => u.summariesHold = true) s t := by
  refine answered_of_runCommand h (Reply.leaves_check fun hcap => Reply.leaves_check fun hbit =>
    Reply.leaves_guard fun _ => ?_)
  simp only [hsum, if_true, appendSummaries_eq hs]
  exact appended_summariesHold hs hsum (Nat.not_le.mp hcap) (Nat.not_lt.mp hbit)

theorem execRvShorten_keepsSummaries {n : Word} (h : execRvShorten n s = .next t) :
    Answered (fun u => u.summariesHold = true) s t := by
  refine answered_of_runCommand h (Reply.leaves_check fun hle => Reply.leaves_ite
    (fun hzero => summariesHold_of_empty hzero) fun hpos => Reply.leaves_guard fun _ => ?_)
  have hle : n.toNat ≤ s.vsize := Nat.not_lt.mp hle
  have hlast : n.toNat - 1 + 1 = n.toNat := by omega
  have hkept := shortened_summariesHold hs hsum (Nat.pos_of_ne_zero hpos) hle
  simp only [hsum, if_true, shortenSummaries_eq hs hsum (show n.toNat - 1 < s.vsize by omega), hlast]
  exact hkept

end

/-- Settles O51: the commands that write leave INV by the lemmas on their own, and the queries leave the state. -/
theorem rankVectorCommandsKeepTheSummaries : Obligations.RankVectorCommandsKeepTheSummaries := by
  intro i s t hi hrebase hs hsum h
  refine Answered.summariesHold ?_ hsum
  cases i with
  | rvInit base cap c => exact execRvInit_keepsSummaries h
  | rvAppend bit b c => exact execRvAppend_keepsSummaries hsum hs h
  | rvShorten n b c => exact execRvShorten_keepsSummaries hsum hs h
  | rvCap cap b c => exact execRvCap_keepsSummaries hsum h
  | rvRebase base b c => exact absurd rfl (hrebase base b c)
  | rvRank1 _ _ _ | rvRank0 _ _ _ | rvPred1 _ _ _ | rvSucc1 _ _ _ | rvPred0 _ _ _ | rvSucc0 _ _ _ =>
    exact answered_of_runCommand h (positionQuery_leaves hsum _ _)
  | rvSel1 _ _ _ | rvSel0 _ _ _ => exact answered_of_runCommand h (rvSelectRule_leaves hsum _ _)
  | rvNones _ _ _ | rvNzeros _ _ _ => exact answered_of_runCommand h (summaryQuery_leaves hsum _)
  | rvBit _ _ _ =>
    exact answered_of_runCommand h (Reply.leaves_check fun _ => Reply.leaves_guard fun _ => hsum)
  | _ => exact absurd hi Bool.false_ne_true

end Sys2Proof.Machine
end

section
/-! The rank-vector commands that place the vector or read one bit: RV.INIT, RV.CAP, RV.REBASE and RV.BIT
(43_rank_select.md R210, R220, R224, R225). -/

namespace Sys2Proof.Machine

section
variable {s : State} {base n : Nat} {reply : Reply} (hmax : n ≤ s.build.rvmax)
include hmax

/-- A vector placed with a capacity that has its entries but not its words: the second check (R210, R224). -/
theorem placement_bounds (hout : s.build.nwords < base + n / 64) :
    (if n > s.build.rvmax then .raise .capacity else if !s.holdsWords base (n / 64) then .raise .bounds else reply) =
      .raise .bounds :=
  (if_neg (Nat.not_lt.mpr hmax)).trans (if_pos (not_holdsWords_iff.mpr hout))

/-- A vector placed with a capacity that has its entries and its words (R210, R224). -/
theorem placement_ok (hfit : base + n / 64 ≤ s.build.nwords) :
    (if n > s.build.rvmax then .raise .capacity else if !s.holdsWords base (n / 64) then .raise .bounds else reply) =
      reply :=
  (if_neg (Nat.not_lt.mpr hmax)).trans (if_neg (not_holdsWords_iff.not.mpr (Nat.not_lt.mpr hfit)))

end

/-- Settles O37: the checks in their order, then an empty vector, which has no block in use. -/
theorem rvInitPlacesAnEmptyVector : Obligations.RvInitPlacesAnEmptyVector := by
  rintro s base cap c hf _ rfl
  exact ⟨fun hmax => faults_of_rule hf rfl (if_pos hmax),
    fun hmax hout => faults_of_rule hf rfl (placement_bounds hmax hout),
    fun hmax hfit => ⟨_, answers_of_rule hf rfl (placement_ok hmax hfit), summariesHold_of_empty rfl, rfl⟩⟩

/-- Settles O49: the checks in their order, then one register. -/
theorem rvCapSetsTheCapacity : Obligations.RvCapSetsTheCapacity := by
  rintro s cap b c hf _ rfl
  exact ⟨fun hmax => faults_of_rule hf rfl (if_pos hmax),
    fun hmax hout => faults_of_rule hf rfl (placement_bounds hmax hout),
    fun hmax hfit => answers_of_rule hf rfl (placement_ok hmax hfit)⟩

/-- Settles O50: the new base shows the vector the bits it had, so its entries count them still. -/
theorem rvRebaseMovesTheBaseOnly : Obligations.RvRebaseMovesTheBaseOnly := by
  intro s base b c hf
  refine ⟨fun hout => faults_of_rule hf rfl (if_pos (not_holdsWords_iff.mpr hout)), fun hfit => ?_⟩
  exact ⟨_, answers_of_rule hf rfl (if_neg (not_holdsWords_iff.not.mpr (Nat.not_lt.mpr hfit))), rfl,
    fun hsum hcopied => summariesHold_of_same_bits hcopied hsum⟩

/-- Settles O45: the check INDEX, then the bit; the summaries are not read. -/
theorem rvBitReadsTheBit : Obligations.RvBitReadsTheBit := by
  rintro s p b c ⟨hs, hf⟩
  refine ⟨fun hp => faults_of_rule hf rfl (if_pos hp), fun hp => ?_⟩
  rw [bitWord_eq_ofNat]
  exact answers_of_rule hf rfl ((if_neg (Nat.not_le.mpr hp)).trans (Reply.guard_eq hs.reaches_vsize))

end Sys2Proof.Machine
end

section
/-! RV.APPEND and RV.SHORTEN as commands (43_rank_select.md R211, R221): what they leave, with INV and without. -/

namespace Sys2Proof.Machine

variable {s : State}

/-- The entries that a command writes while INV does not hold are free (R204, log entry 5). -/
theorem freeSummaries_eq (s : State) (p : Nat) :
    freeSummaries s p = s.withEntries p (Config.freeTop s.tick) (Config.freeMid s.tick) := rfl

/-- An append that passes its checks (R211). -/
theorem rvAppend_answers {bit b c : Word} (h : s.Ready) (hcap : s.vsize < s.rvcap.toNat) (hbit : bit.toNat ≤ 1) :
    ∃ v w, Answers (.rvAppend bit b c) s s.rvsize (s.appended bit v w) ∧
      (s.summariesHold = true → v = runningTop s + bit ∧ w = runningMid s + bit.setWidth 16) := by
  have hrule {u : State} (hu : (if s.summariesHold then
        { s with top := appendTop s bit.toNat, mid := appendMid s bit.toNat } else freeSummaries s s.vsize) = u) :
      Answers (.rvAppend bit b c) s s.rvsize
        { u with mem := bitWrite s.mem (s.vbegin + s.vsize) 1 bit, rvsize := word (s.vsize + 1) } := by
    subst hu
    exact answers_of_rule h.unlocked rfl <| (if_neg (Nat.not_le.mpr hcap)).trans <|
      (if_neg (Nat.not_lt.mpr hbit)).trans (Reply.guard_eq (h.inv.reaches hcap))
  by_cases hsum : s.summariesHold = true
  · exact ⟨_, _, hrule ((if_pos hsum).trans (appendSummaries_eq h.inv bit)), fun _ => ⟨rfl, rfl⟩⟩
  · exact ⟨_, _, hrule ((if_neg hsum).trans (freeSummaries_eq s _)), fun h => absurd h hsum⟩

/-- A shortening to at least one bit (R221). -/
theorem rvShorten_answers {n b c : Word} (h : s.Ready) (hpos : 1 ≤ n.toNat) (hle : n.toNat ≤ s.vsize) :
    ∃ v w, Answers (.rvShorten n b c) s n (s.shortened n v w) ∧
      (s.summariesHold = true → v = word (vectorTally s true 0 n.toNat) ∧
        w = BitVec.ofNat 16 (vectorTally s true ((n.toNat - 1) / s.build.bt * s.build.bt) n.toNat)) := by
  have hrule {u : State} (hu : (if s.summariesHold then shortenSummaries s (n.toNat - 1)
        else freeSummaries s (n.toNat - 1)) = u) :
      Answers (.rvShorten n b c) s n { u with rvsize := n } := by
    subst hu
    exact answers_of_rule h.unlocked rfl <| (if_neg (Nat.not_lt.mpr hle)).trans <|
      (if_neg (Nat.one_le_iff_ne_zero.mp hpos)).trans (Reply.guard_eq h.inv.reaches_vsize)
  have hlast : n.toNat - 1 + 1 = n.toNat := by omega
  by_cases hsum : s.summariesHold = true
  · have hcounts := shortenSummaries_eq h.inv hsum (show n.toNat - 1 < s.vsize by omega)
    rw [hlast] at hcounts
    exact ⟨_, _, hrule ((if_pos hsum).trans hcounts), fun _ => ⟨rfl, rfl⟩⟩
  · exact ⟨_, _, hrule ((if_neg hsum).trans (freeSummaries_eq s _)), fun h => absurd h hsum⟩

section
variable {p : Nat} (hs : s.Inv) (v : Word) (w : BitVec 16)
include hs

/-- Only the entry of the position's top-block is written. -/
theorem read_withEntries_top_other {a : Nat} (ha : a ≠ p / s.build.bt) :
    (s.withEntries p v w).top.read a = s.top.read a := by rw [read_withEntries_top hs, if_neg ha]

theorem read_withEntries_top_last : (s.withEntries p v w).top.read (p / s.build.bt) = v := by
  rw [read_withEntries_top hs, if_pos rfl]

/-- Only the entry of the position's middle-block is written, if it has one. -/
theorem read_withEntries_mid_other {a : Nat}
    (ha : isStored s.build (p / s.build.bm) = true → a ≠ midaddr s.build (p / s.build.bm)) :
    (s.withEntries p v w).mid.read a = s.mid.read a := by
  rw [read_withEntries_mid hs, if_neg fun ⟨hstored, heq⟩ => ha hstored heq]

theorem read_withEntries_mid_last (hstored : isStored s.build (p / s.build.bm) = true) :
    (s.withEntries p v w).mid.read (midaddr s.build (p / s.build.bm)) = w := by
  rw [read_withEntries_mid hs, if_pos ⟨hstored, rfl⟩]

end

/-- Settles O38: the checks in their order, then the bit, the two entries and the size. -/
theorem rvAppendAppendsTheBit : Obligations.RvAppendAppendsTheBit := by
  intro s bit b c h
  have hf := h.unlocked
  refine ⟨fun hcap => faults_of_rule hf rfl (if_pos hcap), fun hcap hbit => faults_of_rule hf rfl ?_,
    fun hcap hbit => ?_⟩
  · exact (if_neg (Nat.not_le.mpr hcap)).trans (if_pos hbit)
  · obtain ⟨v, w, hanswer, hcounts⟩ := rvAppend_answers (b := b) (c := c) h hcap hbit
    have hstored : FieldStored s.mem (bitWrite s.mem (s.vbegin + s.vsize) 1 bit) _ 1 bit :=
      fieldStored_bitWrite h.inv.memForm (by omega) (by omega)
    refine ⟨_, hanswer, by rw [← word_add_one]; rfl, hstored,
      fun _ => read_withEntries_top_other h.inv v w,
      fun _ => read_withEntries_mid_other h.inv v w, fun hsum => ?_⟩
    obtain ⟨hv, hw⟩ := hcounts hsum
    exact ⟨by rw [hv, hw]; exact appended_summariesHold h.inv hsum hcap hbit,
      (read_withEntries_top_last h.inv v w).trans hv,
      fun hblock => (read_withEntries_mid_last h.inv v w hblock).trans hw⟩

/-- Settles O47: the check INDEX; then a vector without blocks, or the two entries and the size. -/
theorem rvShortenTruncatesTheVector : Obligations.RvShortenTruncatesTheVector := by
  intro s n b c h
  have hf := h.unlocked
  refine ⟨fun hout => faults_of_rule hf rfl (if_pos hout), fun hle => ?_⟩
  rcases Nat.eq_zero_or_pos n.toNat with hzero | hpos
  · refine ⟨{ s with rvsize := n }, answers_of_rule hf rfl ?_, rfl, fun _ => ⟨rfl, rfl⟩, fun _ _ => rfl,
      fun _ _ => rfl, fun _ => ⟨summariesHold_of_empty hzero, fun hpos => by omega⟩⟩
    exact (if_neg (Nat.not_lt.mpr hle)).trans (if_pos hzero)
  · obtain ⟨v, w, hanswer, hcounts⟩ := rvShorten_answers (b := b) (c := c) h hpos hle
    refine ⟨_, hanswer, rfl, fun hzero => by omega, fun _ => read_withEntries_top_other h.inv v w,
      fun _ => read_withEntries_mid_other h.inv v w, fun hsum => ?_⟩
    obtain ⟨hv, hw⟩ := hcounts hsum
    exact ⟨by rw [hv, hw]; exact shortened_summariesHold h.inv hsum hpos hle, fun _ =>
      ⟨(read_withEntries_top_last h.inv v w).trans hv,
        fun hblock => (read_withEntries_mid_last h.inv v w hblock).trans hw⟩⟩

end Sys2Proof.Machine
end

section
/-! The rules of the rank-vector queries (43_rank_select.md R212 to R219, R222, R223): with INV they answer what they
count or find, without it a free value (R204, log entry 5). -/

namespace Sys2Proof.Machine

section
variable (x : Bool) (p b c : Word) (s : State)

theorem exec_rvRankOf :
    exec (rvRankOf x p b c) s =
      runCommand (rvRankOf x p b c).opcode (rvRankOf x p b c).operandA s
        (positionQuery p.toNat (word (s.rankOf x p.toNat)) s) := by
  cases x <;> rfl

theorem exec_rvSelectOf :
    exec (rvSelectOf x p b c) s =
      runCommand (rvSelectOf x p b c).opcode (rvSelectOf x p b c).operandA s (rvSelectRule x p.toNat s) := by
  cases x <;> rfl

theorem exec_rvPredecessorOf :
    exec (rvPredecessorOf x p b c) s =
      runCommand (rvPredecessorOf x p b c).opcode (rvPredecessorOf x p b c).operandA s
        (positionQuery p.toNat (positionOrNotFound (s.rvPredecessor x p.toNat)) s) := by
  cases x <;> rfl

theorem exec_rvSuccessorOf :
    exec (rvSuccessorOf x p b c) s =
      runCommand (rvSuccessorOf x p b c).opcode (rvSuccessorOf x p b c).operandA s
        (positionQuery p.toNat (positionOrNotFound (s.rvSuccessor x p.toNat)) s) := by
  cases x <;> rfl

end

section
variable {s : State} {p k : Nat} {r : Word} {x : Bool}

theorem positionQuery_index (hp : s.vsize ≤ p) : positionQuery p r s = .raise .index := if_pos hp

theorem positionQuery_eq (hp : p < s.vsize) : positionQuery p r s = summaryQuery r s := if_neg (Nat.not_le.mpr hp)

variable (hs : s.Inv)
include hs

theorem summaryQuery_done (hsum : s.summariesHold = true) : summaryQuery r s = .done r s :=
  (Reply.guard_eq hs.reaches_vsize).trans (if_pos hsum)

theorem summaryQuery_free (hsum : s.summariesHold = false) :
    summaryQuery r s = .done (Config.freeResult s.tick) s :=
  (Reply.guard_eq hs.reaches_vsize).trans (if_neg (by simp [hsum]))

/-- A select of a rank above 0 while INV does not hold: the comparison with a population is free too (log entry 8). -/
theorem rvSelectRule_free (hsum : s.summariesHold = false) (hk : 1 ≤ k) :
    rvSelectRule x k s = .raise .rank ∨ rvSelectRule x k s = .done (Config.freeResult s.tick) s := by
  have hrule : rvSelectRule x k s =
      if Config.freeRankFault s.tick then .raise .rank else .done (Config.freeResult s.tick) s :=
    (if_neg (Nat.one_le_iff_ne_zero.mp hk)).trans <|
      (Reply.guard_eq hs.reaches_vsize).trans (if_neg (by simp [hsum]))
  rw [hrule]
  cases Config.freeRankFault s.tick with
  | true => exact .inl rfl
  | false => exact .inr rfl

variable (hsum : s.summariesHold = true)
include hsum

/-- A select finds nothing for rank 0 and above the number of such bits (R214, R215). -/
theorem rvSelectRule_rank (h : k = 0 ∨ vectorTally s x 0 s.vsize < k) : rvSelectRule x k s = .raise .rank := by
  by_cases hzero : k = 0
  · exact if_pos hzero
  · refine (if_neg hzero).trans <| (Reply.guard_eq hs.reaches_vsize).trans <| (if_pos hsum).trans (if_pos ?_)
    rw [population_eq x hs.legal hsum]
    exact h.resolve_left hzero

/-- A select of a bit's rank finds the bit (R207, R226). -/
theorem rvSelectRule_vectorTally {q : Nat} (hq : q < s.vsize) (hx : s.vbit q = x) :
    rvSelectRule x (vectorTally s x 0 (q + 1)) s = .done (word q) s := by
  have hpos : vectorTally s x 0 (q + 1) ≠ 0 :=
    Nat.ne_zero_of_lt (vectorTally_lt_of_vbit hx le_rfl (Nat.zero_le q))
  have hpop : ¬vectorTally s x 0 (q + 1) > s.population x := by
    rw [population_eq x hs.legal hsum]
    exact Nat.not_lt.mpr (vectorTally_mono x (Nat.zero_le _) hq)
  have hend := (reaches_iff.mp hs.reaches_vsize).1
  rw [rvSelectRule, if_neg hpos, Reply.guard_eq hs.reaches_vsize, if_pos hsum, if_neg hpop,
    rvsel_vectorTally hs.legal hsum hq hx hend]

end

/-- Every rank from 1 up to the number of such bits is the rank of one (R214, R215). -/
theorem exists_vbit_of_rank {s : State} {x : Bool} {k : Nat} (hk : 1 ≤ k) (hle : k ≤ vectorTally s x 0 s.vsize) :
    ∃ q, q < s.vsize ∧ s.vbit q = x ∧ vectorTally s x 0 (q + 1) = k := by
  rw [vectorTally, tally_eq_countFrom] at hle
  obtain ⟨q, hq⟩ := kthFrom_isSome hk hle
  obtain ⟨-, hlt, hx, hcount⟩ := (kthFrom_eq_some _ k 0 _ q hk).mp hq
  exact ⟨q, by omega, beq_iff_eq.mp hx, (tally_eq_countFrom _ _ _).trans hcount⟩

/-- What a select found when it completed while INV holds (R214, R215). -/
theorem rvSelectRule_completed {s t : State} {x : Bool} {k : Nat} {r : Word} (hs : s.Inv)
    (hsum : s.summariesHold = true) (h : rvSelectRule x k s = .done r t) :
    ∃ q, q < s.vsize ∧ s.vbit q = x ∧ vectorTally s x 0 (q + 1) = k ∧ r = word q := by
  by_cases hout : k = 0 ∨ vectorTally s x 0 s.vsize < k
  · rw [rvSelectRule_rank hs hsum hout] at h
    cases h
  · obtain ⟨q, hq, hx, rfl⟩ := exists_vbit_of_rank (s := s) (x := x) (k := k) (by omega) (by omega)
    rw [rvSelectRule_vectorTally hs hsum hq hx] at h
    cases h
    exact ⟨q, hq, hx, rfl, rfl⟩

end Sys2Proof.Machine
end

section
/-! Rank, select and the counts of the whole vector (43_rank_select.md R212 to R215, R222, R223, R226). -/

namespace Sys2Proof.Machine

section
variable {s : State} {p b c : Word} (h : s.Ready) (hsum : s.summariesHold = true)
include h hsum

/-- The rank of a position below the size (R212, R213). -/
theorem rvRank_answers (x : Bool) (hp : p.toNat < s.vsize) :
    Answers (rvRankOf x p b c) s (word (vectorTally s x 0 (p.toNat + 1))) s := by
  rw [← rankOf_eq h.inv.legal hsum hp]
  exact answers_of_rule h.unlocked (exec_rvRankOf x p b c s)
    ((positionQuery_eq hp).trans (summaryQuery_done h.inv hsum))

/-- The select of the rank of a bit of the vector (R214, R215, R226). -/
theorem rvSelect_answers {x : Bool} {q : Nat} (hq : q < s.vsize) (hx : s.vbit q = x)
    (hrank : p.toNat = vectorTally s x 0 (q + 1)) : Answers (rvSelectOf x p b c) s (word q) s :=
  answers_of_rule h.unlocked (exec_rvSelectOf x p b c s) (hrank ▸ rvSelectRule_vectorTally h.inv hsum hq hx)

end

theorem word_of_toNat (x : Word) : word x.toNat = x := by rw [word, BitVec.ofNat_toNat, BitVec.setWidth_eq]

/-- Settles O39: the check INDEX, then `rank1f`, which counts the bits. -/
theorem rvRankCountsTheBits : Obligations.RvRankCountsTheBits := by
  intro x s p b c h
  exact ⟨fun hp => faults_of_rule h.unlocked (exec_rvRankOf x p b c s) (positionQuery_index hp),
    fun hp hsum => rvRank_answers h hsum x hp⟩

/-- Settles O40: a rank within the population is the rank of a bit, which the select finds. -/
theorem rvSelectFindsTheKthBit : Obligations.RvSelectFindsTheKthBit := by
  intro x s k b c h hsum
  refine ⟨fun hout => faults_of_rule h.unlocked (exec_rvSelectOf x k b c s) (rvSelectRule_rank h.inv hsum hout),
    fun hpos hle => ?_⟩
  obtain ⟨q, hq, hx, hrank⟩ := exists_vbit_of_rank hpos hle
  exact ⟨q, hq, hx, hrank, rvSelect_answers h hsum hq hx hrank.symm⟩

/-- Settles O41: the select of a bit's rank is its position, and what a select answers has its operand as its rank. -/
theorem rankAndSelectAreDual : Obligations.RankAndSelectAreDual := by
  intro x s b c h hsum
  refine ⟨fun p hp hx => ⟨_, rvRank_answers h hsum x hp, ?_⟩, fun k q hselect => ?_⟩
  · have hcount := vectorTally_le (s := s) x 0 (p.toNat + 1)
    have hmax := s.rvsize.isLt
    have hselect := rvSelect_answers (p := word (vectorTally s x 0 (p.toNat + 1))) (b := b) (c := c) h hsum hp hx
      (word_toNat (by omega))
    rwa [word_of_toNat p] at hselect
  · rw [Answers, exec_rvSelectOf] at hselect
    obtain ⟨n, hn, hx, hrank, rfl⟩ := rvSelectRule_completed h.inv hsum (reply_eq_done h.unlocked hselect)
    have hmax := s.rvsize.isLt
    have hnat : (word n).toNat = n := word_toNat (hn.trans hmax)
    have hanswer := rvRank_answers (p := word n) (b := b) (c := c) h hsum x (by rwa [hnat])
    rw [hnat, hrank, word_of_toNat k] at hanswer
    rw [hnat]
    exact ⟨hn, hx, hanswer⟩

/-- Settles O46: `numOnes` and `numZeros` are the population of their bit value. -/
theorem rvCountsTheOnesAndTheZeros : Obligations.RvCountsTheOnesAndTheZeros := by
  intro s a b c h hsum
  have hpopulation (x : Bool) : s.population x = vectorTally s x 0 s.rvsize.toNat :=
    population_eq x h.inv.legal hsum
  rw [← hpopulation true, ← hpopulation false]
  exact ⟨answers_of_rule h.unlocked rfl (summaryQuery_done h.inv hsum),
    answers_of_rule h.unlocked rfl (summaryQuery_done h.inv hsum)⟩

/-- Settles O48: the shortened vector meets the invariant and INV, and its bits are those of the longer one. -/
theorem rankSurvivesShorten : Obligations.RankSurvivesShorten := by
  intro s n p b c h hsum hp hle
  have hpos : 1 ≤ n.toNat := by omega
  obtain ⟨v, w, hshorten, hcounts⟩ := rvShorten_answers (b := b) (c := c) h hpos hle
  obtain ⟨rfl, rfl⟩ := hcounts hsum
  have hready : State.Ready _ := ⟨exec_inv h.inv hshorten, h.unlocked⟩
  have hkept := shortened_summariesHold h.inv hsum hpos hle
  refine ⟨_, _, hshorten, rvRank_answers h hsum true (hp.trans_le hle), ?_⟩
  rw [← vectorTally_congr true fun _ _ => rfl]
  exact rvRank_answers hready hkept true hp

end Sys2Proof.Machine
end

section
/-! Predecessor and successor in the rank vector (43_rank_select.md R216 to R219). -/

namespace Sys2Proof.Machine

section
variable {s : State} {x : Bool} {v q : Nat}

theorem rvPredecessor_eq_some :
    s.rvPredecessor x v = some q ↔ q ≤ v ∧ s.vbit q = x ∧ ∀ r, q < r → r ≤ v → s.vbit r ≠ x := by
  simp [State.rvPredecessor, greatestFrom_eq_some]

theorem rvPredecessor_eq_none : s.rvPredecessor x v = none ↔ ∀ r, r ≤ v → s.vbit r ≠ x := by
  simp [State.rvPredecessor, greatestFrom_eq_none]

theorem rvSuccessor_eq_some :
    s.rvSuccessor x v = some q ↔
      v ≤ q ∧ q < s.vsize ∧ s.vbit q = x ∧ ∀ r, v ≤ r → r < q → s.vbit r ≠ x := by
  have hrange : v ≤ q → (q < v + (s.vsize - v) ↔ q < s.vsize) := by omega
  simp only [State.rvSuccessor, leastFrom_eq_some, beq_iff_eq, beq_eq_false_iff_ne]
  exact and_congr_right fun hvq => and_congr_left' (hrange hvq)

theorem rvSuccessor_eq_none :
    s.rvSuccessor x v = none ↔ ∀ r, v ≤ r → r < s.vsize → s.vbit r ≠ x := by
  simp only [State.rvSuccessor, leastFrom_eq_none, beq_eq_false_iff_ne]
  exact forall_congr' fun r => forall_congr' fun hvr =>
    ⟨fun h hr => h (by omega), fun h hr => h (by omega)⟩

end

/-- Settles O42: the search downwards, found or not. -/
theorem rvPredecessorFindsTheNearestBit : Obligations.RvPredecessorFindsTheNearestBit := by
  intro x s v b c h
  have hexec := exec_rvPredecessorOf x v b c s
  refine ⟨fun hv => faults_of_rule h.unlocked hexec (positionQuery_index hv), fun hv hsum => ?_⟩
  have hanswer := answers_of_rule h.unlocked hexec ((positionQuery_eq hv).trans (summaryQuery_done h.inv hsum))
  cases hfound : s.rvPredecessor x v.toNat with
  | some q =>
    obtain ⟨hle, hx, habove⟩ := rvPredecessor_eq_some.mp hfound
    rw [hfound] at hanswer
    exact .inl ⟨q, hle, hx, habove, hanswer⟩
  | none =>
    rw [hfound] at hanswer
    exact .inr ⟨rvPredecessor_eq_none.mp hfound, hanswer⟩

/-- Settles O43: the search upwards, found or not. -/
theorem rvSuccessorFindsTheNearestBit : Obligations.RvSuccessorFindsTheNearestBit := by
  intro x s v b c h
  have hexec := exec_rvSuccessorOf x v b c s
  refine ⟨fun hv => faults_of_rule h.unlocked hexec (positionQuery_index hv), fun hv hsum => ?_⟩
  have hanswer := answers_of_rule h.unlocked hexec ((positionQuery_eq hv).trans (summaryQuery_done h.inv hsum))
  cases hfound : s.rvSuccessor x v.toNat with
  | some q =>
    obtain ⟨hle, hlt, hx, hbelow⟩ := rvSuccessor_eq_some.mp hfound
    rw [hfound] at hanswer
    exact .inl ⟨q, hle, hlt, hx, hbelow, hanswer⟩
  | none =>
    rw [hfound] at hanswer
    exact .inr ⟨rvSuccessor_eq_none.mp hfound, hanswer⟩

/-- Settles O52: each query passes its checks and answers a free value; a select may raise RANK instead. -/
theorem queriesWithoutSummariesStillAnswer : Obligations.QueriesWithoutSummariesStillAnswer := by
  intro x s b c h hsum
  have hf := h.unlocked
  have hcount {r : Word} : summaryQuery r s = _ := summaryQuery_free h.inv hsum
  refine ⟨fun p hp => ?_, fun a => ⟨⟨_, answers_of_rule hf rfl hcount⟩, ⟨_, answers_of_rule hf rfl hcount⟩⟩,
    fun k hk => ?_⟩
  · have hquery {r : Word} : positionQuery p.toNat r s = _ := (positionQuery_eq hp).trans hcount
    exact ⟨⟨_, answers_of_rule hf (exec_rvRankOf x p b c s) hquery⟩,
      ⟨_, answers_of_rule hf (exec_rvPredecessorOf x p b c s) hquery⟩,
      ⟨_, answers_of_rule hf (exec_rvSuccessorOf x p b c s) hquery⟩⟩
  · have hexec := exec_rvSelectOf x k b c s
    rcases rvSelectRule_free h.inv hsum hk with hrule | hrule
    · exact .inr (faults_of_rule hf hexec hrule)
    · exact .inl ⟨_, answers_of_rule hf hexec hrule⟩

end Sys2Proof.Machine
end

section
/-! The source's way to a neighbour (43_rank_select.md R216 to R219): a scan of two words, then a rank and a select. -/

namespace Sys2Proof.Machine

section
variable {s : State} {x : Bool} {v q : Nat} (hs : s.Inv) (hsum : s.summariesHold = true) (hv : v < s.vsize)
include hs hsum

theorem rvsel_of_vbit (hq : q < s.vsize) (hx : s.vbit q = x) : s.rvsel (vectorTally s x 0 (q + 1)) x = some q :=
  rvsel_vectorTally hs.legal hsum hq hx (reaches_iff.mp hs.reaches_vsize).1

include hv

/-- The predecessor's way: the rank of `v` is the rank of the predecessor, and 0 when there is none (R216, R218). -/
theorem predecessorByRank_eq : s.predecessorByRank x v = s.rvPredecessor x v := by
  rw [State.predecessorByRank, rankOf_eq hs.legal hsum hv]
  generalize hlo : 64 * (v / 64 - 1) = lo
  have hlo_le : lo ≤ v := by omega
  cases hscan : greatestFrom (fun q => s.vbit q == x) lo (v + 1 - lo) with
  | some q =>
    obtain ⟨-, hlt, hx, habove⟩ := (greatestFrom_eq_some _ _ _ _).mp hscan
    exact (rvPredecessor_eq_some.mpr ⟨by omega, beq_iff_eq.mp hx,
      fun r hqr hrv => beq_eq_false_iff_ne.mp (habove r hqr (by omega))⟩).symm
  | none =>
    cases hfound : s.rvPredecessor x v with
    | none =>
      have hnone := rvPredecessor_eq_none.mp hfound
      exact if_pos (vectorTally_eq_zero fun r _ hr => hnone r (by omega))
    | some q =>
      obtain ⟨hqv, hx, habove⟩ := rvPredecessor_eq_some.mp hfound
      have hrank : vectorTally s x 0 (v + 1) = vectorTally s x 0 (q + 1) := by
        rw [vectorTally_add x (Nat.zero_le _) (Nat.succ_le_succ hqv),
          vectorTally_eq_zero fun r hr hrv => habove r hr (by omega), Nat.add_zero]
      have hpos := vectorTally_lt_of_vbit hx le_rfl (Nat.zero_le q)
      rw [hrank]
      exact (if_neg (by omega)).trans (rvsel_of_vbit hs hsum (by omega) hx)

/-- The successor's way: behind a miss the rank of the successor is one more than that of `v`, which is the whole
population when there is none (R217, R219). -/
theorem successorByRank_eq : s.successorByRank x v = s.rvSuccessor x v := by
  rw [State.successorByRank, rankOf_eq hs.legal hsum hv, population_eq x hs.legal hsum]
  generalize hhi : min (64 * (v / 64 + 2)) s.vsize = hi
  have hvhi : v < hi := by omega
  cases hscan : leastFrom (fun q => s.vbit q == x) v (hi - v) with
  | some q =>
    obtain ⟨hvq, hlt, hx, hbelow⟩ := (leastFrom_eq_some _ _ _ _).mp hscan
    exact (rvSuccessor_eq_some.mpr ⟨hvq, by omega, beq_iff_eq.mp hx,
      fun r hvr hrq => beq_eq_false_iff_ne.mp (hbelow r hvr hrq)⟩).symm
  | none =>
    have hmiss : s.vbit v ≠ x :=
      beq_eq_false_iff_ne.mp ((leastFrom_eq_none _ _ _).mp hscan v le_rfl (by omega))
    cases hfound : s.rvSuccessor x v with
    | none =>
      have hnone := rvSuccessor_eq_none.mp hfound
      have hrest : vectorTally s x (v + 1) s.vsize = 0 := vectorTally_eq_zero fun r hr => hnone r (by omega)
      have hall := vectorTally_add (s := s) x (Nat.zero_le (v + 1)) hv
      exact if_pos (by omega)
    | some q =>
      obtain ⟨hvq, hq, hx, hbelow⟩ := rvSuccessor_eq_some.mp hfound
      have hlt : v < q := lt_of_le_of_ne hvq fun heq => hmiss (heq ▸ hx)
      have hrank : vectorTally s x 0 (q + 1) = vectorTally s x 0 (v + 1) + 1 := by
        rw [vectorTally_succ x (Nat.zero_le q), hx, vectorTally_add x (Nat.zero_le _) hlt,
          vectorTally_eq_zero fun r hr hrq => hbelow r (by omega) hrq]
        simp
      have hpop := vectorTally_mono (s := s) x (Nat.zero_le (q + 1)) hq
      rw [← hrank]
      exact (if_neg (by omega)).trans (rvsel_of_vbit hs hsum hq hx)

end

/-- Settles O44: both ways, by whether the scan hits and whether there is such a bit. -/
theorem neighboursByRankAreTheNeighbours : Obligations.NeighboursByRankAreTheNeighbours :=
  fun _ _ _ hs hsum hv => ⟨predecessorByRank_eq hs hsum hv, successorByRank_eq hs hsum hv⟩

end Sys2Proof.Machine
end

section
/-! CSRR (44_system.md R240): the register table of 10_state.md R25 lists each register's number and value, and `csrOf`
is the look-up of a number in it. -/

namespace Sys2Proof.Machine

theorem mem_csrs (r : Csr) : r ∈ csrs := by cases r <;> decide

theorem csrOf_number (r : Csr) : csrOf (Csr.number r) = some r := by cases r <;> rfl

theorem number_of_csrOf {n : Nat} {r : Csr} (h : csrOf n = some r) : Csr.number r = n :=
  beq_iff_eq.mp (List.find?_some (p := fun r => Csr.number r == n) h)

theorem word_number_toNat (r : Csr) : (word (Csr.number r)).toNat = Csr.number r := by cases r <;> rfl

theorem statusRegister_eq (s : State) : statusRegister s = if s.faulted then 1#64 else 0#64 := by
  cases h : s.faulted <;> simp [statusRegister, h]

/-- The written-out table is the model's register file, row by row. -/
theorem registerTable_eq (s : State) : registerTable s = csrs.map fun r => (word (Csr.number r), s.csr r) := by
  rw [registerTable, ← statusRegister_eq]
  rfl

theorem mem_registerTable {s : State} {num v : Word} :
    (num, v) ∈ registerTable s ↔ ∃ r, csrOf num.toNat = some r ∧ s.csr r = v := by
  simp only [registerTable_eq, List.mem_map, Prod.mk.injEq]
  constructor
  · rintro ⟨r, -, rfl, rfl⟩
    exact ⟨r, by rw [word_number_toNat, csrOf_number], rfl⟩
  · rintro ⟨r, hr, rfl⟩
    exact ⟨r, mem_csrs r, by rw [number_of_csrOf hr, word_of_toNat], rfl⟩

theorem csrOf_eq_none {s : State} {num : Word} (h : ∀ e ∈ registerTable s, e.1 ≠ num) : csrOf num.toNat = none :=
  Option.eq_none_iff_forall_ne_some.mpr fun r hr => h (num, s.csr r) (mem_registerTable.mpr ⟨r, hr, rfl⟩) rfl

/-- Settles O20: the number has a row of the table, which is its register, or none, and then the lock decides. -/
theorem csrrReadsTheRegisterTable : Obligations.CsrrReadsTheRegisterTable := by
  refine fun s num b c => ⟨?_, fun hnone => ?_⟩
  · rintro ⟨_, v⟩ hrow rfl
    obtain ⟨r, hr, rfl⟩ := mem_registerTable.mp hrow
    exact execCsrr_register hr
  · have hexec : exec (.csrr num b c) s = runCommand 0x01#8 num s (.raise .csrnum) :=
      execCsrr_other (csrOf_eq_none hnone)
    exact ⟨fun hf => faults_of_rule hf hexec rfl, fun hf => hexec.trans (runCommand_locked hf)⟩

end Sys2Proof.Machine
end

section
/-! What every command raises (60_exceptions.md R281, R285, R292): its rule raises faults of its row of the matrix alone,
and the record of a fault holds the command's own packet. -/

namespace Sys2Proof.Machine

/-- If the rule raises a fault, it is one of `codes`. -/
def Reply.RaisesOnly (codes : List FaultCode) : Reply → Prop
  | .done _ _ => True
  | .raise c => c ∈ codes
  | .stop _ => True

section
variable {codes : List FaultCode} {c : Prop} [Decidable c]

theorem Reply.raisesOnly_ite {r₁ r₂ : Reply} (h₁ : r₁.RaisesOnly codes) (h₂ : r₂.RaisesOnly codes) :
    (if c then r₁ else r₂).RaisesOnly codes := by
  split
  · exact h₁
  · exact h₂

/-- A check of the row comes first. -/
theorem Reply.raisesOnly_check {code : FaultCode} {reply : Reply} (h : reply.RaisesOnly codes)
    (hcode : code ∈ codes := by simp [faultMatrix]) : (if c then .raise code else reply).RaisesOnly codes :=
  Reply.raisesOnly_ite hcode h

/-- A check that the command stays inside the address spaces comes first (log entry 9). -/
theorem Reply.raisesOnly_guard {f : Fault} {reply : Reply} (h : reply.RaisesOnly codes) :
    (if c then .stop f else reply).RaisesOnly codes := Reply.raisesOnly_ite trivial h

end

/-! ### The rules that commands share -/

theorem selectRule_raisesOnly (x : Bool) (base rank : Word) (s : State) :
    (selectRule x base rank s).RaisesOnly [.bounds, .rank] := by
  refine Reply.raisesOnly_check (Reply.raisesOnly_check ?_)
  split
  · exact .tail _ (.head _)
  · trivial

theorem predecessorRule_raisesOnly (x : Bool) (p n : Word) (s : State) :
    (predecessorRule x p n s).RaisesOnly [.bounds] :=
  Reply.raisesOnly_check (Reply.raisesOnly_check (Reply.raisesOnly_ite trivial trivial))

theorem successorRule_raisesOnly (x : Bool) (p n : Word) (s : State) : (successorRule x p n s).RaisesOnly [.bounds] :=
  Reply.raisesOnly_check (Reply.raisesOnly_check trivial)

theorem elementRead_raisesOnly (i : Nat) (s : State) : (elementRead i s).RaisesOnly [.index] :=
  Reply.raisesOnly_check (Reply.raisesOnly_guard trivial)

theorem elementWrite_raisesOnly (i : Nat) (val : Word) (s : State) :
    (elementWrite i val s).RaisesOnly [.index, .value] :=
  Reply.raisesOnly_check (Reply.raisesOnly_check (Reply.raisesOnly_guard trivial))

theorem summaryQuery_raisesOnly (codes : List FaultCode) (r : Word) (s : State) :
    (summaryQuery r s).RaisesOnly codes :=
  Reply.raisesOnly_guard (Reply.raisesOnly_ite trivial trivial)

theorem positionQuery_raisesOnly (p : Nat) (r : Word) (s : State) : (positionQuery p r s).RaisesOnly [.index] :=
  Reply.raisesOnly_check (summaryQuery_raisesOnly _ r s)

theorem rvSelectRule_raisesOnly (x : Bool) (k : Nat) (s : State) : (rvSelectRule x k s).RaisesOnly [.rank] := by
  refine Reply.raisesOnly_check (Reply.raisesOnly_guard (Reply.raisesOnly_ite (Reply.raisesOnly_check ?_)
    (Reply.raisesOnly_check trivial)))
  split <;> trivial

/-! ### Every command -/

/-- How a command runs: `CSRR` of a register's number whatever the lock (44_system.md R240), everything else by a rule
that raises only the faults of its row of the matrix (60_exceptions.md R292). -/
inductive Runs (i : Instr) (s : State) : Prop
  | register (num b c : Word) (r : Csr) (hi : i = .csrr num b c) (hr : csrOf num.toNat = some r)
  | rule (reply : Reply) (hexec : exec i s = runCommand i.opcode i.operandA s reply)
      (hraises : reply.RaisesOnly (faultMatrix i))

theorem csrr_runs (num b c : Word) (s : State) : Runs (.csrr num b c) s := by
  cases hr : csrOf num.toNat with
  | some r => exact .register num b c r rfl hr
  | none => exact .rule (.raise .csrnum) (execCsrr_other hr) (.head _)

/-- A command without a check of its own. -/
theorem runs_of_done {i : Instr} {s u : State} {r : Word}
    (hexec : exec i s = runCommand i.opcode i.operandA s (.done r u)) : Runs i s := .rule _ hexec trivial

/-- The checks of each command, in the order of its rule. -/
theorem exec_runs (i : Instr) (s : State) : Runs i s :=
  match i with
  | .csrr num b c => csrr_runs num b c s
  | .popc _ _ _ | .bsize _ _ _ | .clz _ _ _ | .ctz _ _ _ => runs_of_done rfl
  | .rdbits _ _ _ => .rule _ rfl (Reply.raisesOnly_check (Reply.raisesOnly_ite trivial (.tail _ (.head _))))
  | .wrbits _ _ _ => .rule _ rfl
      (Reply.raisesOnly_check (Reply.raisesOnly_check (Reply.raisesOnly_check trivial)))
  | .cnt1 _ _ _ | .movbits _ _ _ => .rule _ rfl (Reply.raisesOnly_check trivial)
  | .sel1 _ _ _ | .sel0 _ _ _ => .rule _ rfl (selectRule_raisesOnly _ _ _ _)
  | .pred1 _ _ _ | .pred0 _ _ _ => .rule _ rfl (predecessorRule_raisesOnly _ _ _ _)
  | .succ1 _ _ _ | .succ0 _ _ _ => .rule _ rfl (successorRule_raisesOnly _ _ _ _)
  | .cpybits _ _ _ | .rvInit _ _ _ | .rvCap _ _ _ | .pkCfg _ _ _ => .rule _ rfl
      (Reply.raisesOnly_check (Reply.raisesOnly_check trivial))
  | .rvAppend _ _ _ | .pkAppend _ _ _ | .pkConvert _ _ _ => .rule _ rfl
      (Reply.raisesOnly_check (Reply.raisesOnly_check (Reply.raisesOnly_guard trivial)))
  | .rvRank1 _ _ _ | .rvRank0 _ _ _ | .rvPred1 _ _ _ | .rvSucc1 _ _ _ | .rvPred0 _ _ _ | .rvSucc0 _ _ _ =>
      .rule _ rfl (positionQuery_raisesOnly _ _ _)
  | .rvSel1 _ _ _ | .rvSel0 _ _ _ => .rule _ rfl (rvSelectRule_raisesOnly _ _ _)
  | .rvShorten _ _ _ => .rule _ rfl
      (Reply.raisesOnly_check (Reply.raisesOnly_ite trivial (Reply.raisesOnly_guard trivial)))
  | .rvNones _ _ _ | .rvNzeros _ _ _ => .rule _ rfl (summaryQuery_raisesOnly _ _ _)
  | .rvRebase _ _ _ | .pkRebase _ _ _ => .rule _ rfl (Reply.raisesOnly_check trivial)
  | .rvBit _ _ _ => .rule _ rfl (Reply.raisesOnly_check (Reply.raisesOnly_guard trivial))
  | .pkRd _ _ _ | .pkItrd _ _ _ => .rule _ rfl (elementRead_raisesOnly _ _)
  | .pkWr _ _ _ | .pkItwr _ _ _ => .rule _ rfl (elementWrite_raisesOnly _ _ _)
  | .pkResize _ _ _ => .rule _ rfl (Reply.raisesOnly_ite trivial trivial)
  | .pkClear _ _ _ | .pkSeek _ _ _ | .pkAdv _ _ _ => runs_of_done rfl
  | .pkCap _ _ _ => .rule _ rfl (Reply.raisesOnly_guard (Reply.raisesOnly_check trivial))

/-! ### The record of a fault -/

/-- The fault code of a number (60_exceptions.md R281). -/
def faultCodeOf (n : BitVec 8) : Option FaultCode :=
  [.illegal, .width, .bounds, .value, .rank, .overlap, .capacity, .index, .csrnum].find?
    fun c => FaultCode.number c == n

theorem faultCodeOf_number (c : FaultCode) : faultCodeOf c.number = some c := by cases c <;> rfl

theorem FaultCode.number_injective : Function.Injective FaultCode.number := fun c c' h =>
  Option.some.inj <| by rw [← faultCodeOf_number c, h, faultCodeOf_number]

/-- No completion leaves the state that a fault leaves. -/
theorem takeFault_ne_respond {s u : State} {c : FaultCode} {cw : BitVec 32} {a r : Word} :
    s.takeFault c cw a ≠ u.respond statusOk r := fun h =>
  have ⟨_, hst, _⟩ := State.respond_inj h
  c.number_ne_statusOk hst

/-- A fault leaves a record of its own. -/
theorem takeFault_inj {s : State} {c c' : FaultCode} {cw cw' : BitVec 32} {a a' : Word}
    (h : s.takeFault c cw a = s.takeFault c' cw' a') : c = c' ∧ cw = cw' ∧ a = a' :=
  ⟨FaultCode.number_injective (congrArg State.fcause h), congrArg State.fcw h, congrArg State.finfo h⟩

/-- A command that faulted raised a fault of its row, and the record holds its packet (60_exceptions.md R285, R292). -/
theorem exec_faulted {i : Instr} {s : State} {c : FaultCode} {cw : BitVec 32} {a : Word} (hf : s.faulted = false)
    (h : exec i s = .next (s.takeFault c cw a)) :
    c ∈ faultMatrix i ∧ cw = commandWord (encode i) ∧ a = fieldA (encode i) := by
  rw [encode, commandWord_packet, fieldA_packet]
  cases exec_runs i s with
  | register num b d r hi hr =>
    subst hi
    have ht := (execCsrr_register (s := s) hr).symm.trans h
    exact absurd (Host.Outcome.next.inj ht).symm takeFault_ne_respond
  | rule reply hexec hraises =>
    rcases runCommand_cases (hexec ▸ h) with ⟨hl, -⟩ | ⟨-, r, u, -, ht⟩ | ⟨-, c', rfl, ht⟩
    · simp [hf] at hl
    · exact absurd ht takeFault_ne_respond
    · obtain ⟨rfl, rfl, rfl⟩ := takeFault_inj ht
      exact ⟨hraises, rfl, rfl⟩

/-- Settles O17: the rule of the command raised the fault, and it raises only faults of its row. -/
theorem commandsRaiseOnlyTheirFaults : Obligations.CommandsRaiseOnlyTheirFaults := by
  intro i s c hf h
  obtain ⟨hrow, -⟩ := exec_faulted hf h
  exact hrow

/-- No command raises ILLEGAL (60_exceptions.md R292): it is the fault of a packet that is no command. -/
theorem illegal_not_mem_faultMatrix (i : Instr) : .illegal ∉ faultMatrix i := by
  cases i <;> simp [faultMatrix]

/-- What no rule writes: the lock, the fault record, and what is not the engine's (60_exceptions.md R285). -/
structure KeepsRecord (s u : State) : Prop where
  faulted : u.faulted = s.faulted
  fcause : u.fcause = s.fcause
  fcw : u.fcw = s.fcw
  finfo : u.finfo = s.finfo
  port : u.port = s.port
  responses : u.responses = s.responses
  tick : u.tick = s.tick

theorem OtherEffect.keepsRecord {s u : State} (e : OtherEffect s u) : KeepsRecord s u := by
  rw [e.frame]
  exact ⟨rfl, rfl, rfl, rfl, rfl, rfl, rfl⟩

theorem RankEffect.keepsRecord {s u : State} (e : RankEffect s u) : KeepsRecord s u := by
  rw [e.frame]
  exact ⟨rfl, rfl, rfl, rfl, rfl, rfl, rfl⟩

theorem Answered.mono {P Q : State → Prop} {s t : State} (h : Answered P s t) (hPQ : ∀ u, P u → Q u) :
    Answered Q s t := by
  cases h with
  | locked hf ht => exact .locked hf ht
  | completed r u hu ht => exact .completed r u (hPQ u hu) ht
  | faulted hf c cw a ht => exact .faulted hf c cw a ht

/-- However a command is answered, its rule wrote no record. -/
theorem exec_keepsRecord {i : Instr} {s t : State} (h : exec i s = .next t) : Answered (KeepsRecord s) s t := by
  rcases exec_answered h with ⟨-, ha⟩ | ⟨-, ha⟩
  · exact ha.mono fun _ e => e.keepsRecord
  · exact ha.mono fun _ e => e.keepsRecord

/-- Settles O16: a command that completes keeps the record, and one that faults leaves the record of its packet. -/
theorem commandsCompleteOrFaultPrecisely : Obligations.CommandsCompleteOrFaultPrecisely := by
  intro i s t hf h
  cases exec_keepsRecord h with
  | locked hl _ => simp [hf] at hl
  | completed r u hu ht =>
    subst ht
    exact .inr ⟨r, congrArg (· ++ _) hu.responses, hu.faulted.trans hf, hu.fcause, hu.fcw, hu.finfo, hu.port, hu.tick⟩
  | faulted _ c cw a ht =>
    subst ht
    obtain ⟨hrow, rfl, rfl⟩ := exec_faulted hf h
    exact .inl ⟨c, fun hc => illegal_not_mem_faultMatrix i (hc ▸ hrow), rfl⟩

end Sys2Proof.Machine
end

section
/-! The locked and the idle engine (60_exceptions.md R286, R287, R289). -/

namespace Sys2Proof.Machine

/-- Settles O7: an empty port is the idle case of the step. -/
theorem idleEngineHoldsItsState : Obligations.IdleEngineHoldsItsState := fun _ => step_idle

/-- The fields of the command word (30_encoding.md R100). -/
theorem extractLsb'_commandWord {start len : Nat} (p : BitVec 224) (h : start + len ≤ 32) :
    (commandWord p).extractLsb' start len = p.extractLsb' start len := BitVec.extractLsb'_extractLsb'_of_le h

/-- A packet whose command word is 1 is a `CSRR` (30_encoding.md R100, R104). -/
theorem decode_of_commandWord_one {p : BitVec 224} (h : commandWord p = 0x00000001#32) :
    decode p = .command (.csrr (fieldA p) (fieldB p) (fieldC p)) := by
  have hop : fieldOp p = 0x01#8 := by rw [fieldOp, ← extractLsb'_commandWord p (by decide), h]; rfl
  have hrsv : fieldRsv p = 0#24 := by rw [fieldRsv, ← extractLsb'_commandWord p (by decide), h]; rfl
  exact decode_eq_command_iff.mpr ⟨hrsv, ⟨0x01#8, "CSRR", .csrr⟩, by rw [hop]; rfl, rfl⟩

/-- The command word and operand A of a packet that decodes to a `CSRR`. -/
theorem fields_of_decode_csrr {p : BitVec 224} {num b c : Word} (h : decode p = .command (.csrr num b c)) :
    commandWord p = 0x00000001#32 ∧ fieldA p = num := by
  rw [← encodeOfDecodeIsThePacket p _ h, encode, commandWord_packet, fieldA_packet]
  exact ⟨rfl, rfl⟩

/-- `CSRR` of a register is answered with its value, by a locked engine too (60_exceptions.md R286). -/
theorem answerRequest_register {s : State} {p : BitVec 224} {e : Word × Word} (he : e ∈ registerTable s)
    (hcw : commandWord p = 0x00000001#32) (hA : fieldA p = e.1) :
    answerRequest p s = .next (s.respond statusOk e.2) := by
  obtain ⟨hrow, -⟩ := csrrReadsTheRegisterTable s (fieldA p) (fieldB p) (fieldC p)
  rw [answerRequest_command (decode_of_commandWord_one hcw)]
  exact hrow e he hA.symm

/-- A locked engine answers LOCKED to every packet that reads no register (60_exceptions.md R286). -/
theorem answerRequest_locked {s : State} {p : BitVec 224} (hf : s.faulted = true)
    (h : commandWord p ≠ 0x00000001#32 ∨ ∀ e ∈ registerTable s, fieldA p ≠ e.1) :
    answerRequest p s = .next (s.respond statusLocked 0#64) := by
  cases hdecode : decode p with
  | illegal why => rw [answerRequest_illegal hdecode, illegalPacket, if_pos hf]
  | command i =>
    rw [answerRequest_command hdecode]
    cases exec_runs i s with
    | rule reply hexec _ => rw [hexec, runCommand_locked hf]
    | register num b c r hi hr =>
      subst hi
      obtain ⟨hcw, hA⟩ := fields_of_decode_csrr hdecode
      have hrow : (num, s.csr r) ∈ registerTable s := mem_registerTable.mpr ⟨r, hr, rfl⟩
      rcases h with hne | hnone
      · exact absurd hcw hne
      · exact absurd hA (hnone _ hrow)

/-- Settles O14: the packet reads a register or is answered LOCKED, and taking it from the port changes no register. -/
theorem lockedEngineOnlyReadsRegisters : Obligations.LockedEngineOnlyReadsRegisters := by
  intro s p rest hf hport
  rw [step_request hport]
  refine ⟨fun e he hcw hA => ?_, fun hother => ?_⟩
  · exact answerRequest_register (s := { s with port := rest, tick := s.tick + 1 }) he hcw hA
  · exact answerRequest_locked (s := { s with port := rest, tick := s.tick + 1 }) hf hother

/-- Settles O15: the engine idles or takes a packet, and a locked engine answers that by O14. -/
theorem onlyResetUnlocks : Obligations.OnlyResetUnlocks := by
  intro s t hf hstep hreset
  cases hport : s.port with
  | nil =>
    cases (step_idle hport).symm.trans hstep
    exact ⟨hf, rfl, rfl, rfl⟩
  | cons input rest =>
    cases input with
    | reset m tp d => exact absurd hport (hreset m tp d rest)
    | request p =>
      obtain ⟨hread, hother⟩ := lockedEngineOnlyReadsRegisters s p rest hf hport
      by_cases h : commandWord p = 0x00000001#32 ∧ ∃ e ∈ registerTable s, fieldA p = e.1
      · obtain ⟨hcw, e, he, hA⟩ := h
        cases (hread e he hcw hA).symm.trans hstep
        exact ⟨hf, rfl, rfl, rfl⟩
      · have hnone : commandWord p ≠ 0x00000001#32 ∨ ∀ e ∈ registerTable s, fieldA p ≠ e.1 := by
          simpa only [not_and_or, not_exists, ne_eq, imp_iff_not_or] using h
        cases (hother hnone).symm.trans hstep
        exact ⟨hf, rfl, rfl, rfl⟩

end Sys2Proof.Machine
end

section
/-! The registers and the summaries after a reset input (70_reset_and_hazards.md R310). -/

namespace Sys2Proof.Machine

/-- A reset empties the rank vector, whatever the three memories hold after it (10_state.md R40). -/
theorem takeReset_vsize (s : State) (m tp : List (Nat × BitVec 64)) (d : List (Nat × BitVec 16)) :
    (s.takeReset m tp d).vsize = 0 := by
  rw [State.vsize, State.takeReset_rvsize, BitVec.toNat_ofNat, Nat.zero_mod]

/-- The summary invariant asks for the entries of the blocks in use only, and after a reset no block is in use
(43_rank_select.md R204). -/
theorem takeReset_summariesHold (s : State) (m tp : List (Nat × BitVec 64)) (d : List (Nat × BitVec 16)) :
    (s.takeReset m tp d).summariesHold = true :=
  summariesHold_of_empty (takeReset_vsize s m tp d)

/-- Settles O8: the step takes the reset, locked or not; its registers are the reset values by definition, and the rank
vector is empty, so that INV holds of any contents of `TOP` and `MID`. -/
theorem resetInputGivesTheResetValues : Obligations.ResetInputGivesTheResetValues := by
  intro s m tp d rest hport
  exact ⟨_, step_reset hport, takeReset_summariesHold _ m tp d, rfl⟩

end Sys2Proof.Machine
end
